-- ==== Sys2Proof/Word.lean ====
section
/-! DEFINITION. The word types of the block: the 32-bit bus word, the byte and the wide register index. -/

namespace Sys2Proof

/-- A 32-bit bus word: the one access size of the window (R8, R82). -/
abbrev Word := BitVec 32

/-- A byte of BUF (R48). -/
abbrev Byte := BitVec 8

/-- The index of a wide register W0 to W15; every value is legal (R30, R111). -/
abbrev WReg := Fin 16

end Sys2Proof
end

