-- ==== Sys2Proof/Config.lean ====
section
/-! DEFINITION. The implementation parameters the spec leaves OPEN (00_scope.md R6, R7) and the free values of
the random-bits port (10_state.md R52). -/

namespace Sys2Proof

/-- The parameters of one build of the block. They are fixed for a machine: State holds them in a field that
no step changes, so a statement about every state is a statement about every NBITS and BASE. -/
structure Config where
  /-- NBITS, the width in bits of W0-W15 and N (R6). -/
  nbits : Nat
  /-- BASE, the byte address of the window on the host bus (R7). -/
  base : Nat
deriving DecidableEq, Repr

namespace Config

/-- The reference configuration, NBITS = 2048 (R6). DESIGN CHOICE (log 1): BASE = 0, which the spec leaves OPEN. -/
def reference : Config := { nbits := 2048, base := 0 }

/-- The answers of a random-bits port that is left free: the k-th one is a value nobody knows (R52: "a free
input of the engine step, under no law"). No body: nothing can be proved of a value of it (log 3). -/
opaque portAnswer : Nat → Nat

end Config

end Sys2Proof
end

