-- ==== Sys2Proof/Syntax.lean ====
section
/-! DEFINITION. The sixteen commands of the block as one inductive type: one constructor per row of
spec/opcode_table.json, holding the register fields the command uses (30_encoding.md R113). -/

namespace Sys2Proof

/-- A decoded command. Fields a command ignores (R114) are not part of it. The arguments of every
constructor stand in the operand order of the assembler syntax (R124). -/
inductive Instr where
  /-- NOP (R140). -/
  | nop
  /-- SETMOD Wa (R141). -/
  | setmod (ra : WReg)
  /-- GCD Wd, Wa, Wb (R142). -/
  | gcd (rd ra rb : WReg)
  /-- MODINV Wd, Wa, Wn (R143): rb is the modulus operand. -/
  | modinv (rd ra rb : WReg)
  /-- MUL Wlo, Whi, Wa, Wb (R170): rd is the low destination, rc the high one. -/
  | mul (rd rc ra rb : WReg)
  /-- BREDUCE Wd, Whi, Wlo (R171): ra is the high half, rb the low half. -/
  | breduce (rd ra rb : WReg)
  /-- MODMUL Wd, Wa, Wb (R172). -/
  | modmul (rd ra rb : WReg)
  /-- MONTMUL Wd, Wa, Wb (R161). -/
  | montmul (rd ra rb : WReg)
  /-- MONTIN Wd, Wa (R162). -/
  | montin (rd ra : WReg)
  /-- MONTOUT Wd, Wa (R163). -/
  | montout (rd ra : WReg)
  /-- POWMOD Wd, Wbase, Wexp (R180). -/
  | powmod (rd ra rb : WReg)
  /-- VERIFY Ws, We, Wm (R181): ra is the signature, rb the exponent, rc the message. -/
  | verify (ra rb rc : WReg)
  /-- MRTEST Wa (R190): the iterations stand in ARG1. -/
  | mrtest (ra : WReg)
  /-- PRIMEGEN Wd (R200): the bits stand in ARG0, the iterations in ARG1. -/
  | primegen (rd : WReg)
  /-- BLKENC Wd, Wexp (R211): the chunk stands in BUF, its length in ARG0. -/
  | blkenc (rd rb : WReg)
  /-- BLKDEC Wd, Wc, Wexp (R212): ra is the ciphertext, rb the exponent. -/
  | blkdec (rd ra rb : WReg)
deriving DecidableEq, Repr

end Sys2Proof
end

