-- ==== Sys2Proof/WellFormed.lean ====
section
/-! DEFINITION. What makes the inputs of the model well formed: the parameters (R6, R7), a command word (R116,
R117) and a bus access (R82). A decoded command needs no check of its own: its register fields have the type
`WReg`, and "Every index value is legal" (R111). -/

namespace Sys2Proof

/-- The legal parameters: NBITS is a multiple of 32 with 64 <= NBITS <= 8192 (R6), and BASE a multiple of
0x8000 (R7). -/
abbrev Config.Legal (c : Config) : Prop :=
  64 ≤ c.nbits ∧ c.nbits ≤ 8192 ∧ c.nbits % 32 = 0 ∧ c.base % 0x8000 = 0

/-- A word that names a command: a legal opcode (R113, R116) and zero in bits [31:24] (R117). -/
abbrev Word.NamesCommand (w : Word) : Prop :=
  w.toNat % 0x100 < 0x10 ∧ w.toNat / 0x1000000 = 0

/-- An access the bus lets through: 4 bytes wide, at an offset that is a multiple of 4 (R82). -/
abbrev AccessFits (off size : Nat) : Prop := size = 4 ∧ off % 4 = 0

end Sys2Proof
end

