-- ==== Sys2Proof/Decode.lean ====
section
/-! DEFINITION. Decoding a 32-bit command word (30_encoding.md R110 to R119), total on every word, and after it
the encoder (R121). -/

namespace Sys2Proof

/-- The three outcomes of decoding a word (R119). -/
inductive Decoded where
  /-- One of the sixteen commands of R113. -/
  | instr (i : Instr)
  /-- The opcode is 0x10 to 0xFF (R116). -/
  | illegalOpcode
  /-- A legal opcode with a nonzero value in bits [31:24] (R117). -/
  | reservedBits
deriving DecidableEq, Repr

/-- Bits [7:0], the opcode (R110). -/
def opcField (w : Word) : Byte := w.extractLsb' 0 8

/-- The 4-bit register index that starts at bit `lo` (R111). -/
def regField (lo : Nat) (w : Word) : WReg := (w.extractLsb' lo 4).toFin

/-- Bits [11:8] (R110). -/
def rdField (w : Word) : WReg := regField 8 w

/-- Bits [15:12] (R110). -/
def raField (w : Word) : WReg := regField 12 w

/-- Bits [19:16] (R110). -/
def rbField (w : Word) : WReg := regField 16 w

/-- Bits [23:20] (R110). -/
def rcField (w : Word) : WReg := regField 20 w

/-- Bits [31:24], reserved (R110, R117). -/
def rsvField (w : Word) : Byte := w.extractLsb' 24 8

/-- The opcode map of R113. -/
def decodeOpcode (opc : Nat) (rd ra rb rc : WReg) : Option Instr :=
  match opc with
  | 0x00 => some .nop
  | 0x01 => some (.setmod ra)
  | 0x02 => some (.gcd rd ra rb)
  | 0x03 => some (.modinv rd ra rb)
  | 0x04 => some (.mul rd rc ra rb)
  | 0x05 => some (.breduce rd ra rb)
  | 0x06 => some (.modmul rd ra rb)
  | 0x07 => some (.montmul rd ra rb)
  | 0x08 => some (.montin rd ra)
  | 0x09 => some (.montout rd ra)
  | 0x0A => some (.powmod rd ra rb)
  | 0x0B => some (.verify ra rb rc)
  | 0x0C => some (.mrtest ra)
  | 0x0D => some (.primegen rd)
  | 0x0E => some (.blkenc rd rb)
  | 0x0F => some (.blkdec rd ra rb)
  | _ => none

/-- What a command word names. An illegal opcode is reported whatever bits [31:24] hold (R117, R234). -/
def decode (w : Word) : Decoded :=
  match decodeOpcode (opcField w).toNat (rdField w) (raField w) (rbField w) (rcField w) with
  | none => .illegalOpcode
  | some i => if rsvField w = 0 then .instr i else .reservedBits

/-- A command word from its fields, with bits [31:24] zero (R121). -/
def packWord (opc : Byte) (rd ra rb rc : WReg) : Word :=
  opc.setWidth 32 ||| (BitVec.ofNat 32 rd <<< 8) ||| (BitVec.ofNat 32 ra <<< 12) |||
    (BitVec.ofNat 32 rb <<< 16) ||| (BitVec.ofNat 32 rc <<< 20)

/-- The word of a command: "Any unused field is set to 0" (R121). -/
def encode : Instr → Word
  | .nop => packWord 0x00 0 0 0 0
  | .setmod ra => packWord 0x01 0 ra 0 0
  | .gcd rd ra rb => packWord 0x02 rd ra rb 0
  | .modinv rd ra rb => packWord 0x03 rd ra rb 0
  | .mul rd rc ra rb => packWord 0x04 rd ra rb rc
  | .breduce rd ra rb => packWord 0x05 rd ra rb 0
  | .modmul rd ra rb => packWord 0x06 rd ra rb 0
  | .montmul rd ra rb => packWord 0x07 rd ra rb 0
  | .montin rd ra => packWord 0x08 rd ra 0 0
  | .montout rd ra => packWord 0x09 rd ra 0 0
  | .powmod rd ra rb => packWord 0x0A rd ra rb 0
  | .verify ra rb rc => packWord 0x0B 0 ra rb rc
  | .mrtest ra => packWord 0x0C 0 ra 0 0
  | .primegen rd => packWord 0x0D rd 0 0 0
  | .blkenc rd rb => packWord 0x0E rd 0 rb 0
  | .blkdec rd ra rb => packWord 0x0F rd ra rb 0

/-- The bits of the word that matter to a command: opcode, reserved bits and the fields it uses (R113, R114). -/
def fieldMask : Instr → Word
  | .nop => 0xFF0000FF
  | .setmod _ => 0xFF00F0FF
  | .gcd _ _ _ => 0xFF0FFFFF
  | .modinv _ _ _ => 0xFF0FFFFF
  | .mul _ _ _ _ => 0xFFFFFFFF
  | .breduce _ _ _ => 0xFF0FFFFF
  | .modmul _ _ _ => 0xFF0FFFFF
  | .montmul _ _ _ => 0xFF0FFFFF
  | .montin _ _ => 0xFF00FFFF
  | .montout _ _ => 0xFF00FFFF
  | .powmod _ _ _ => 0xFF0FFFFF
  | .verify _ _ _ => 0xFFFFF0FF
  | .mrtest _ => 0xFF00F0FF
  | .primegen _ => 0xFF000FFF
  | .blkenc _ _ => 0xFF0F0FFF
  | .blkdec _ _ _ => 0xFF0FFFFF

/-- The command word whose first `nbits` bits are `w` and whose other bits are zero. A command has one length,
32 bits (R112), and is one bus word, so bit 0 of the table's numbering is bit 0 of the word. -/
def tableWord (nbits w : Nat) : Word := BitVec.ofNat 32 (w % 2 ^ nbits)

/-- The command the decoder reads from a word of the opcode table, if it names one. -/
def decodeTableWord (nbits w : Nat) : Option Instr :=
  match decode (tableWord nbits w) with
  | .instr i => some i
  | .illegalOpcode => none
  | .reservedBits => none

end Sys2Proof
end

