-- ==== Sys2Proof/Machine/State.lean ====
section
/-! DEFINITION. The state of the machine as plain data, everything 10_state.md (R30 to R54) gives the block and the
three agents of 00_scope.md R18, the reasons a step can stop, and the state after reset (R54, R260). -/

namespace Sys2Proof.Machine

/-- The error codes the block records in STATUS.ERRCODE (60_exceptions.md R232). Codes 0x09 to 0xFF are never
recorded, so they have no name here. -/
inductive ErrCode where
  | none | illegalOpcode | reservedBits | noModulus | evenModulus | keyTooSmall | badArg | badModulus | divByZero
deriving DecidableEq, Repr

/-- The stored fields of STATUS (R39). BUSY is read from the engine phase (R47) and has no copy here; the
reserved bits read 0 and have no storage. -/
structure Status where
  done : Bool
  err : Bool
  flag : Bool
  modv : Bool
  cmdovr : Bool
  accerr : Bool
  errcode : ErrCode
deriving DecidableEq, Repr

/-- What the engine holds while BUSY (R47): the accepted word CUR and, for PRIMEGEN, the number of candidates
drawn so far and the last of them. -/
structure Command where
  word : Word
  attempts : Nat
  candidate : Option Nat
deriving DecidableEq, Repr

/-- The engine phase (R47). -/
inductive Phase where
  | idle
  | busy (cur : Command)
deriving DecidableEq, Repr

/-- What the random-bits port does once the answers queued for it are used up: it supplies nothing (R52, R266), it
answers one value again and again, or it answers values left free (`Config.portAnswer`). -/
inductive PortTail where
  | silent
  | always (v : Nat)
  | free
deriving DecidableEq, Repr

/-- The random-bits port (R52) as the model sees it: answers queued for it in order, what follows them, and the
number of free values taken so far. A model's own field: an input, under no law (log 3). -/
structure Port where
  queue : List Nat
  tail : PortTail
  taken : Nat
deriving DecidableEq, Repr

/-- A host bus access (R13): the byte address on the host bus, the access size in bytes, and the value written.
Only 4-byte accesses get through (R82); the size is there so that the others can be refused. -/
inductive HostAccess where
  | read (addr size : Nat)
  | write (addr size : Nat) (v : Word)
deriving DecidableEq, Repr

/-- One action of one agent (R18), or the external reset (R260). -/
inductive Event where
  /-- The host performs a bus access. -/
  | access (a : HostAccess)
  /-- The engine has its turn. -/
  | engine
  /-- The random-bits port gets one more answer to supply. -/
  | supply (v : Nat)
  /-- The reset input is asserted, and stays so (R260). -/
  | assertReset
  /-- The reset input is released (R260). -/
  | releaseReset
deriving DecidableEq, Repr

/-- The block's answer to the last host access (R13): nothing yet, the data of a read, or a write taken. -/
inductive BusReply where
  | none
  | data (v : Word)
  | ack
deriving DecidableEq, Repr

/-- Bytes by index in canonical form: indices strictly rising, no entry equal to what an unlisted index reads as
(`Memory.wf` in Ops.lean). BUF is held so (R48). -/
abbrev Memory := List Host.Cell

/-- The machine. The first field is the build's parameters; then the registers of 10_state.md in its order; the
last four are the model's own: the level of the reset input, the inputs still to come and the last answer on the bus. -/
structure State where
  /-- NBITS and BASE (R6, R7); no step changes them. -/
  cfg : Config
  /-- W0 to W15 (R30), each a natural number below 2^NBITS (R10; `State.Inv`). -/
  w : Vector Nat 16
  /-- N, the modulus register (R32). -/
  n : Nat
  /-- BUF, the byte buffer, by byte index (R48). -/
  buf : Memory
  /-- CTRL.IE (R38). -/
  ie : Bool
  /-- STATUS but for BUSY (R39). -/
  status : Status
  /-- CMD, the last accepted word (R42). -/
  cmd : Word
  /-- ARG0 (R43). -/
  arg0 : Word
  /-- ARG1 (R43). -/
  arg1 : Word
  /-- RES0 (R44). -/
  res0 : Word
  /-- BLKSZ (R45). -/
  blksz : Word
  /-- NBITLEN (R46). -/
  nbitlen : Word
  /-- The engine phase with the held command (R47). -/
  phase : Phase
  /-- The external reset input stands asserted (R260); the model's own field, a signal from outside (log 9). -/
  resetHeld : Bool
  /-- The random-bits port's answers to come (R52); the model's own field (log 3). -/
  port : Port
  /-- The actions of the agents still to come, the next first; the model's own field (log 2). -/
  pending : List Event
  /-- The answer to the last host access; the model's own field (log 8). -/
  reply : BusReply
deriving DecidableEq, Repr

/-- Why a step stops. Both are raised by the host's access, never by a command. -/
inductive Fault where
  /-- Raised by a host access that is not 4 bytes wide or not at a multiple of 4: "A model refuses such an access as
  a fault of the host's step" (R82). Safe: the block answers a bus error, changes nothing and goes on; the model stops. -/
  | busError
  /-- Raised by a host access at an address outside the 32 KiB window at BASE, which does not reach the block (R80,
  R81; log 7). Safe: the block is not addressed and goes on; the model stops. -/
  | outsideWindow
deriving DecidableEq, Repr

/-- Why a step has no meaning. -/
inductive Refusal where
  /-- Raised by exec for a command without a meaning in this model. Safe: the model stops. No arm raises it. -/
  | notModelled (mnemonic : String)
deriving DecidableEq, Repr

/-- The state after reset for a build with parameters `c` (R54, R260): every register 0, the engine IDLE, the reset input
released.
DESIGN CHOICE (log 2, 3, 8): nothing pending, a port left free, no answer on the bus. -/
def State.resetFor (c : Config) : State where
  cfg := c
  w := Vector.replicate 16 0
  n := 0
  buf := []
  ie := false
  status :=
    { done := false, err := false, flag := false, modv := false, cmdovr := false, accerr := false, errcode := .none }
  cmd := 0
  arg0 := 0
  arg1 := 0
  res0 := 0
  blksz := 0
  nbitlen := 0
  phase := .idle
  resetHeld := false
  port := { queue := [], tail := .free, taken := 0 }
  pending := []
  reply := .none

/-- The machine right after reset, in the reference configuration (R6, R54; log 1). -/
def State.reset : State := State.resetFor Config.reference

end Sys2Proof.Machine
end

