-- ==== Sys2Proof/Machine/Ops.lean ====
section
/-! DEFINITION. The named operations over the state: reading and writing bytes of BUF and wide registers, the random-bits
port, and the command lifecycle: accept (R230), successful completion (R231) and error completion (R233), which is
this block's taking of an exception (R237). There is no return from one: an accept or a W1C write acknowledges it (R238). -/

namespace Sys2Proof.Machine

/-! ### Derived quantities -/

/-- NW, the 32-bit words in a wide register (R9). -/
def numWords (c : Config) : Nat := c.nbits / 32

/-- NB, the bytes in BUF (R9). -/
def numBytes (c : Config) : Nat := c.nbits / 8

/-- R = 2^NBITS, the Montgomery radix (R9, R160) and the bound of a wide register (R10). -/
def radix (c : Config) : Nat := 2 ^ c.nbits

/-! ### Bytes by index -/

/-- What an index that is not listed reads as: BUF's reset value, "every byte 0" (R48). -/
def unlistedByte : Byte := 0

/-- The byte at an index. -/
def Memory.read : Memory → Nat → Byte
  | [], _ => unlistedByte
  | (b, v) :: m, a => if b = a then v else Memory.read m a

/-- An entry for `a` in front of `m`, unless `a` reads so without one. -/
def Memory.cons (a : Nat) (v : Byte) (m : Memory) : Memory :=
  if v = unlistedByte then m else (a, v) :: m

/-- Write one byte, keeping the canonical form. -/
def Memory.write : Memory → Nat → Byte → Memory
  | [], a, v => Memory.cons a v []
  | (b, u) :: m, a, v =>
    if a < b then Memory.cons a v ((b, u) :: m)
    else if a = b then Memory.cons a v m
    else (b, u) :: Memory.write m a v

/-- Write the bytes `f 0`, `f 1`, ... , `f (k - 1)` at the indices `a`, `a + 1`, ... in that order. -/
def Memory.fill (m : Memory) (a : Nat) : Nat → (Nat → Byte) → Memory
  | 0, _ => m
  | k + 1, f => Memory.write (Memory.fill m a k f) (a + k) (f k)

/-- The canonical form: indices strictly rising from `lo`, no entry equal to `unlistedByte`. -/
def Memory.wfFrom (lo : Nat) : Memory → Bool
  | [] => true
  | (a, v) :: m => decide (lo ≤ a) && decide (v ≠ unlistedByte) && Memory.wfFrom (a + 1) m

/-- The canonical form of a byte memory. -/
def Memory.wf (m : Memory) : Bool := Memory.wfFrom 0 m

/-! ### Wide registers and BUF -/

namespace State

/-- x[i], the number in wide register Wi (R12, R30). -/
def readW (s : State) (i : WReg) : Nat := s.w[i]

/-- x[i] <- v (R12, R30). -/
def setW (s : State) (i : WReg) (v : Nat) : State := { s with w := s.w.set i v }

/-- BUF[j] (R12, R48). -/
def readBuf (s : State) (j : Nat) : Byte := Memory.read s.buf j

/-- BUF[j] <- f j for every j below NB (R48, R212). -/
def fillBuf (s : State) (f : Nat → Byte) : State := { s with buf := Memory.fill s.buf 0 (numBytes s.cfg) f }

/-- STATUS.BUSY, which reads the engine phase (R47). -/
def isBusy (s : State) : Bool :=
  match s.phase with
  | .idle => false
  | .busy _ => true

/-- The level of the interrupt output (R49, R240). -/
def irq (s : State) : Bool := s.ie && s.status.done

/-! ### The command lifecycle -/

/-- Accept of the word `v` (R230). FLAG, RES0, CMDOVR, ACCERR, MODV and the data registers keep their values. -/
def accept (s : State) (v : Word) : State :=
  { s with
    cmd := v
    status := { s.status with done := false, err := false, errcode := .none }
    phase := .busy { word := v, attempts := 0, candidate := none } }

/-- complete(f, r), a successful completion (R231). -/
def complete (s : State) (f : Bool) (r : Nat) : State :=
  { s with
    res0 := BitVec.ofNat 32 r
    status := { s.status with flag := f, errcode := .none, err := false, done := true }
    phase := .idle }

/-- raise Error(code), an error completion (R233): nothing but STATUS and the phase changes. -/
def raise (s : State) (code : ErrCode) : State :=
  { s with
    status := { s.status with errcode := code, err := true, flag := false, done := true }
    phase := .idle }

/-- Every register at its reset value, the engine IDLE and any running command abandoned (R54, R260). The parameters, the
level of the reset input, the port, which "is outside the block", the other agents' pending actions and the last answer
on the bus are no registers of the block and stay (log 9). -/
def clearRegisters (s : State) : State :=
  { State.resetFor s.cfg with resetHeld := s.resetHeld, port := s.port, pending := s.pending, reply := s.reply }

/-- The reset input is asserted: the registers take their reset values, and keep them while it stays asserted, since
no access then changes one (`State.afterWrite`; R260, log 9). -/
def assertReset (s : State) : State := { s.clearRegisters with resetHeld := true }

/-- The reset input is released: the registers stand as the asserted reset left them (R260). -/
def releaseReset (s : State) : State := { s with resetHeld := false }

/-! ### The number of candidates PRIMEGEN has drawn -/

/-- The attempt count the engine holds (R47); no attempt count while IDLE (R54). -/
def attempts (s : State) : Nat :=
  match s.phase with
  | .idle => 0
  | .busy c => c.attempts

/-- The engine stays BUSY after an attempt with count `cnt` and the candidate `c` (R203). -/
def stayBusy (s : State) (cnt c : Nat) : State :=
  match s.phase with
  | .idle => s
  | .busy cur => { s with phase := .busy { cur with attempts := cnt, candidate := some c } }

end State

/-! ### Pre-checks -/

/-- What a step or a command answers. -/
abbrev Result := Host.Outcome State Fault Refusal

/-- One pre-check of a command (R14, R234): if `bad` holds the command ends as an error completion with `code`, and
else it goes on with `k`. -/
def check (bad : Prop) [Decidable bad] (code : ErrCode) (s : State) (k : Result) : Result :=
  if bad then .next (s.raise code) else k

/-- NO_MODULUS, the pre-check of every command that reduces modulo N (R232, R235). -/
def checkModulus (s : State) (k : Result) : Result :=
  check (s.status.modv = false) .noModulus s k

/-- NO_MODULUS, then EVEN_MODULUS: the pre-checks of the Montgomery commands (R164, R235). -/
def checkOddModulus (s : State) (k : Result) : Result :=
  checkModulus s (check (s.n % 2 = 0) .evenModulus s k)

/-! ### The random-bits port -/

/-- Take the port's next answer, or nothing if it supplies none (R52). -/
def Port.take (p : Port) : Option (Nat × Port) :=
  match p.queue with
  | v :: q => some (v, { p with queue := q })
  | [] =>
    match p.tail with
    | .silent => none
    | .always v => some (v, p)
    | .free => some (Config.portAnswer p.taken, { p with taken := p.taken + 1 })

/-- The value in [lo, hi] that an answer `v` of the port stands for: itself when it lies there (log 4). -/
def inRange (lo hi v : Nat) : Nat :=
  if lo ≤ v ∧ v ≤ hi then v else lo + v % (hi - lo + 1)

/-- DrawRange(lo, hi) (R14). -/
def Port.drawRange (p : Port) (lo hi : Nat) : Option (Nat × Port) :=
  match p.take with
  | none => none
  | some (v, q) => some (inRange lo hi v, q)

/-- DrawBits(b), a value in [0, 2^b) (R14). -/
def Port.drawBits (p : Port) (b : Nat) : Option (Nat × Port) := p.drawRange 0 (2 ^ b - 1)

/-- The port with one more answer to supply. -/
def Port.supply (p : Port) (v : Nat) : Port := { p with queue := p.queue ++ [v] }

end Sys2Proof.Machine
end

