-- ==== Sys2Proof/Machine/Flags.lean ====
section
/-! DEFINITION. The status words the host sees: the code of an error (R232), the STATUS and CTRL words with their
fields in place (R38, R39), and what a write of STATUS clears. -/

namespace Sys2Proof.Machine

/-- The byte STATUS.ERRCODE holds for a code (R232). -/
def ErrCode.code : ErrCode → Nat
  | .none => 0x00
  | .illegalOpcode => 0x01
  | .reservedBits => 0x02
  | .noModulus => 0x03
  | .evenModulus => 0x04
  | .keyTooSmall => 0x05
  | .badArg => 0x06
  | .badModulus => 0x07
  | .divByZero => 0x08

/-- A bit in its place. -/
def bitAt (i : Nat) (b : Bool) : Nat := b.toNat * 2 ^ i

/-- The STATUS word (R39): bit 7 and bits [31:16] read 0. -/
def State.statusWord (s : State) : Word :=
  BitVec.ofNat 32
    (bitAt 0 s.isBusy + bitAt 1 s.status.done + bitAt 2 s.status.err + bitAt 3 s.status.flag +
      bitAt 4 s.status.modv + bitAt 5 s.status.cmdovr + bitAt 6 s.status.accerr + s.status.errcode.code * 2 ^ 8)

/-- The CTRL word (R38): bits [31:1] read 0. -/
def State.ctrlWord (s : State) : Word := BitVec.ofNat 32 (bitAt 0 s.ie)

/-- A host write of `v` to STATUS: "A write affects only the W1C bits written as 1" (R39). -/
def State.writeStatus (s : State) (v : Word) : State :=
  { s with
    status :=
      { s.status with
        done := s.status.done && !v.getLsbD 1
        err := s.status.err && !v.getLsbD 2
        cmdovr := s.status.cmdovr && !v.getLsbD 5
        accerr := s.status.accerr && !v.getLsbD 6 } }

/-- A host write of `v` to CTRL: bit 0 is IE, the others are ignored (R38). -/
def State.writeCtrl (s : State) (v : Word) : State := { s with ie := v.getLsbD 0 }

/-- STATUS.CMDOVR <- 1: a CMD write arrived while BUSY (R42, R236). -/
def State.setCmdovr (s : State) : State := { s with status := { s.status with cmdovr := true } }

/-- STATUS.ACCERR <- 1: a blocked access arrived while BUSY (R88, R236). -/
def State.setAccerr (s : State) : State := { s with status := { s.status with accerr := true } }

end Sys2Proof.Machine
end

