-- ==== Sys2Proof/Machine/Operands.lean ====
section
/-! DEFINITION. The operand forms of the commands (R115, R123): the 32-bit words of a wide value (R31), the
concatenation of two wide registers (R11), byte strings and their numbers (R15), and the words of BUF (R48). -/

namespace Sys2Proof.Machine

/-- bitlen(v): 0 for 0 and otherwise the least b with v < 2^b (R11). -/
def bitlen (v : Nat) : Nat := if v = 0 then 0 else Nat.log2 v + 1

/-! ### Words of a wide value -/

/-- Bits [32j+31 : 32j] of a wide value (R31). -/
def wordOf (x j : Nat) : Word := BitVec.ofNat 32 (x / 2 ^ (32 * j))

/-- A wide value with bits [32j+31 : 32j] set to `v` and the others left (R31). -/
def withWord (x j : Nat) (v : Word) : Nat :=
  x / 2 ^ (32 * (j + 1)) * 2 ^ (32 * (j + 1)) + v.toNat * 2 ^ (32 * j) + x % 2 ^ (32 * j)

/-- a : b with b a wide value, that is a * 2^NBITS + b (R11). -/
def concatWide (c : Config) (a b : Nat) : Nat := a * radix c + b

/-! ### Byte strings -/

/-- int_BE of a byte string, its first byte the most significant (R15). -/
def intBE (bs : List Byte) : Nat := bs.foldl (fun acc b => acc * 256 + b.toNat) 0

/-- The length of BE(m): ceil(bitlen(m)/8) (R15). -/
def lenBE (m : Nat) : Nat := (bitlen m + 7) / 8

/-- BE(m), the minimal big-endian byte string of m (R15). -/
def bytesBE (m : Nat) : List Byte :=
  (List.range (lenBE m)).map fun i => BitVec.ofNat 8 (m / 256 ^ (lenBE m - 1 - i))

/-! ### Words and chunks of BUF -/

namespace State

/-- Word w of BUF: BUF[4w] in bits [7:0] up to BUF[4w+3] in bits [31:24] (R48, R83). -/
def bufWord (s : State) (w : Nat) : Word :=
  s.readBuf (4 * w + 3) ++ s.readBuf (4 * w + 2) ++ s.readBuf (4 * w + 1) ++ s.readBuf (4 * w)

/-- A host write of `v` to word w of BUF (R48, R83). -/
def setBufWord (s : State) (w : Nat) (v : Word) : State :=
  { s with buf := Memory.fill s.buf (4 * w) 4 fun b => v.extractLsb' (8 * b) 8 }

/-- The chunk BUF[0], ... , BUF[len-1] (R211). -/
def chunk (s : State) (len : Nat) : List Byte := (List.range len).map s.readBuf

/-- The block integer of a chunk: the marker byte 0xFF, then the chunk's bytes, read big-endian (R210, R211). -/
def blockInt (s : State) (len : Nat) : Nat := intBE (0xFF#8 :: s.chunk len)

end State

/-- The number of payload bytes of a decrypted block: all but the first exported byte (R212). -/
def payloadLen (m : Nat) : Nat := lenBE m - 1

/-- Byte j of the payload of a decrypted block, zero past its end (R212). -/
def payloadByte (m j : Nat) : Byte :=
  if j < payloadLen m then (bytesBE m).getD (1 + j) 0 else 0

/-- The dropped first byte was the 0xFF marker (R212). -/
def markerFound (m : Nat) : Bool := decide ((bytesBE m).head? = some 0xFF#8)

end Sys2Proof.Machine
end

