-- ==== Sys2Proof/Machine/Bus.lean ====
section
/-! DEFINITION. The host's bus accesses (20_memory.md): the map of the window (R80), reading and writing its words
(R84, R86), accesses while a command runs (R88), and the accesses the bus refuses (R82). -/

namespace Sys2Proof.Machine

/-- What stands at a word of the window (R80). Reserved offsets and the unused tail words of BUF, N and Wi are
`reserved` (R84). -/
inductive Slot where
  | id | cfg | ctrl | status | cmd | arg0 | arg1 | res0 | blksz | nbitlen
  | buf (w : Nat)
  | modulus (j : Nat)
  | wide (i : WReg) (j : Nat)
  | reserved
deriving DecidableEq, Repr

/-- The size of the window in bytes (R7, R80). -/
def windowBytes : Nat := 0x8000

/-- The slot at a byte offset that is a multiple of 4 (R80). -/
def slotAt (c : Config) (off : Nat) : Slot :=
  if off = 0x000 then .id
  else if off = 0x004 then .cfg
  else if off = 0x008 then .ctrl
  else if off = 0x00C then .status
  else if off = 0x010 then .cmd
  else if off = 0x014 then .arg0
  else if off = 0x018 then .arg1
  else if off = 0x01C then .res0
  else if off = 0x020 then .blksz
  else if off = 0x024 then .nbitlen
  else if off < 0x800 then .reserved
  else if off < 0xC00 then (if (off - 0x800) / 4 < numWords c then .buf ((off - 0x800) / 4) else .reserved)
  else if off < 0x1000 then .reserved
  else if off < 0x1400 then
    (if (off - 0x1000) / 4 < numWords c then .modulus ((off - 0x1000) / 4) else .reserved)
  else if off < 0x4000 then .reserved
  else if off < windowBytes then
    (if off % 0x400 / 4 < numWords c then .wide (Fin.ofNat 16 ((off - 0x4000) / 0x400)) (off % 0x400 / 4)
      else .reserved)
  else .reserved

/-- The constant ID, the ASCII "RSA1" (R36). -/
def idWord : Word := 0x52534131

/-- The constant CFG: NBITS in bits [15:0], 16 in bits [23:16] (R37). -/
def cfgWord (c : Config) : Word := BitVec.ofNat 32 (c.nbits % 2 ^ 16 + 16 * 2 ^ 16)

namespace State

/-- The word a slot holds. -/
def slotWord (s : State) : Slot → Word
  | .id => idWord
  | .cfg => cfgWord s.cfg
  | .ctrl => s.ctrlWord
  | .status => s.statusWord
  | .cmd => s.cmd
  | .arg0 => s.arg0
  | .arg1 => s.arg1
  | .res0 => s.res0
  | .blksz => s.blksz
  | .nbitlen => s.nbitlen
  | .buf w => s.bufWord w
  | .modulus j => wordOf s.n j
  | .wide i j => wordOf (s.readW i) j
  | .reserved => 0

/-- A host write of `v` to a slot while the engine is IDLE. A write to CMD is an accept (R42); a write to a read-only
or reserved slot is ignored (R84). -/
def writeSlot (s : State) (v : Word) : Slot → State
  | .id => s
  | .cfg => s
  | .ctrl => s.writeCtrl v
  | .status => s.writeStatus v
  | .cmd => s.accept v
  | .arg0 => { s with arg0 := v }
  | .arg1 => { s with arg1 := v }
  | .res0 => s
  | .blksz => s
  | .nbitlen => s
  | .buf w => s.setBufWord w v
  | .modulus _ => s
  | .wide i j => s.setW i (withWord (s.readW i) j v)
  | .reserved => s

end State

/-- A read of the slot is blocked while BUSY: the words of W0-W15, N and BUF (R88). -/
def Slot.readBlocked : Slot → Bool
  | .buf _ => true
  | .modulus _ => true
  | .wide _ _ => true
  | _ => false

/-- A write of the slot is blocked and sets ACCERR while BUSY: the words of W0-W15 and BUF, ARG0 and ARG1 (R88). -/
def Slot.writeBlocked : Slot → Bool
  | .buf _ => true
  | .wide _ _ => true
  | .arg0 => true
  | .arg1 => true
  | _ => false

namespace State

/-- The word a host read of the slot returns: 0 for a read that is blocked (R88). -/
def readData (s : State) (t : Slot) : Word :=
  if s.isBusy && t.readBlocked then 0 else s.slotWord t

/-- The state after a host read of the slot: a blocked read sets ACCERR, any other has no side effect (R86, R88). -/
def afterRead (s : State) (t : Slot) : State :=
  if s.isBusy && t.readBlocked then s.setAccerr else s

/-- The state after a host write of `v` to the slot (R84, R86, R88). While the reset input stands asserted the write has
no effect, since "every piece of state" then has its reset value (R260; log 9). -/
def afterWrite (s : State) (t : Slot) (v : Word) : State :=
  if s.resetHeld then s
  else if s.isBusy then
    if t = .cmd then s.setCmdovr else if t.writeBlocked then s.setAccerr else s.writeSlot v t
  else s.writeSlot v t

/-- MemRead(off, 4) at an offset the bus lets through (R13): the answer stands on the bus. -/
def memRead (s : State) (off : Nat) : State :=
  { s.afterRead (slotAt s.cfg off) with reply := .data (s.readData (slotAt s.cfg off)) }

/-- MemWrite(off, 4, v) at an offset the bus lets through (R13). -/
def memWrite (s : State) (off : Nat) (v : Word) : State :=
  { s.afterWrite (slotAt s.cfg off) v with reply := .ack }

/-- The bus's own checks of an access at a byte address of the host bus (R82; log 7): `k` gets the offset. -/
def throughBus (s : State) (addr size : Nat) (k : Nat → State) : Result :=
  if addr < s.cfg.base ∨ s.cfg.base + windowBytes ≤ addr then .fault .outsideWindow
  else if AccessFits (addr - s.cfg.base) size then .next (k (addr - s.cfg.base)) else .fault .busError

/-- The host's step: one bus access (R82 to R88). -/
def hostStep (s : State) : HostAccess → Result
  | .read addr size => s.throughBus addr size fun off => s.memRead off
  | .write addr size v => s.throughBus addr size fun off => s.memWrite off v

end State

end Sys2Proof.Machine
end

