-- ==== Sys2Proof/Machine/Arith.lean ====
section
/-! DEFINITION. The source's number-theoretic algorithms as functions on natural numbers: Euclid (R142), the modular
inverse (R143), square-and-multiply (R180) and the Miller-Rabin test with its draws (R190). Every loop is structural
recursion on a bound of its number of turns; the lemmas of Laws/Arith.lean show that no bound is ever reached early. -/

namespace Sys2Proof.Machine

/-! ### Euclid -/

/-- The loop of R142: while b != 0, (a, b) <- (b, a mod b). The bound `b` on its turns suffices, since "the
remainder strictly decreases". -/
def euclidLoop : Nat → Nat → Nat → Nat
  | 0, a, _ => a
  | k + 1, a, b => if b = 0 then a else euclidLoop k b (a % b)

/-- gcd(a, b) by the classic Euclidean algorithm (R142). -/
def euclid (a b : Nat) : Nat := euclidLoop b a b

/-! ### Modular inverse -/

/-- The extended Euclidean loop (R143): the coefficient t of a with a * t = gcd modulo n, not yet normalised. -/
def bezoutLoop : Nat → Nat → Nat → Int → Int → Int
  | 0, _, _, t, _ => t
  | k + 1, r, r', t, t' =>
    if r' = 0 then t else bezoutLoop k r' (r % r') t' (t - (r / r' : Nat) * t')

/-- The inverse of a modulo n, "normalized into [0, n)" (R143). It is one when gcd(a, n) = 1. -/
def modInverse (a n : Nat) : Nat := (bezoutLoop (a % n) n (a % n) 0 1 % (n : Int)).toNat

/-- Rinv, the inverse of the Montgomery radix modulo N (R160). -/
def montRinv (c : Config) (n : Nat) : Nat := modInverse (radix c) n

/-! ### Modular exponentiation -/

/-- The loop of R180, one turn per bit of the exponent. -/
def powLoop (n : Nat) : Nat → Nat → Nat → Nat → Nat
  | 0, _, _, result => result
  | k + 1, base, e, result =>
    if e = 0 then result
    else powLoop n k (base * base % n) (e / 2) (if e % 2 = 1 then result * base % n else result)

/-- "right-to-left square-and-multiply modular exponentiation" (R180). -/
def powMod (base e n : Nat) : Nat := powLoop n (bitlen e) (base % n) e 1

/-! ### Miller-Rabin -/

/-- Repeated halving (R190, R191): from r and s, the odd part of r and s plus the number of halvings. -/
def halvings : Nat → Nat → Nat → Nat × Nat
  | 0, r, s => (r, s)
  | k + 1, r, s => if r % 2 = 0 then halvings k (r / 2) (s + 1) else (r, s)

/-- r and s with n - 1 = 2^s * r and r odd (R191). -/
def oddPart (n : Nat) : Nat × Nat := halvings (bitlen (n - 1)) (n - 1) 0

/-- The squarings of one round (R190): at most `k` more turns from y. False is a reject. -/
def squarings (n : Nat) : Nat → Nat → Bool
  | 0, y => decide (y = n - 1)
  | k + 1, y =>
    if y = n - 1 then true else if y * y % n = 1 then false else squarings n k (y * y % n)

/-- One witness round with witness a (R190). False is a reject. -/
def witnessRound (n a : Nat) : Bool :=
  let rs := oddPart n
  let y := powMod a rs.1 n
  decide (y = 1 ∨ y = n - 1) || squarings n (rs.2 - 1) y

/-- The witness rounds of R190, each with one draw from [2, n-2] (R193). Nothing if the port runs dry. -/
def witnessRounds (n : Nat) : Nat → Port → Option (Bool × Port)
  | 0, p => some (true, p)
  | k + 1, p =>
    match p.drawRange 2 (n - 2) with
    | none => none
    | some (a, q) => if witnessRound n a then witnessRounds n k q else some (false, q)

/-- The number of witness rounds for `iterations`: max(iterations - 1, 0) (R192). -/
def roundCount (iterations : Nat) : Nat := iterations - 1

/-- is_prime(n, iterations) with the port `p` (R190): the answer and the port after the draws, or nothing if the
port does not supply all the draws the test takes (R52). -/
def millerRabin (n iterations : Nat) (p : Port) : Option (Bool × Port) :=
  if n = 2 ∨ n = 3 then some (true, p)
  else if n < 2 ∨ n % 2 = 0 then some (false, p)
  else witnessRounds n (roundCount iterations) p

/-! ### Prime candidates -/

/-- The candidate made from a draw r: c = r OR 2^(bits-1) (R201). -/
def candidateOf (bits r : Nat) : Nat := r ||| 2 ^ (bits - 1)

/-- One more candidate drawn, saturating at 0xFFFFFFFF (R200). -/
def countUp (cnt : Nat) : Nat := min (cnt + 1) 0xFFFFFFFF

/-- What one attempt of PRIMEGEN finds (R200, R203): the candidate, its test's answer and the port after the draws. -/
structure Attempt where
  candidate : Nat
  accepted : Bool
  port : Port
deriving DecidableEq, Repr

/-- One attempt of PRIMEGEN (R200, R203), or nothing if the port does not supply all its draws. -/
def primeAttempt (bits iterations : Nat) (p : Port) : Option Attempt :=
  match p.drawBits bits with
  | none => none
  | some (r, q) =>
    match millerRabin (candidateOf bits r) iterations q with
    | none => none
    | some (ok, q') => some { candidate := candidateOf bits r, accepted := ok, port := q' }

end Sys2Proof.Machine
end

