-- ==== Sys2Proof/Machine/Barrett.lean ====
section
/-! DEFINITION. The barrett_reducer unit (42_barrett.md): MUL, BREDUCE, MODMUL. The results are exact for every
register input; how the unit reduces is not architectural (R34). -/

namespace Sys2Proof.Machine

/-- MUL Wlo, Whi, Wa, Wb (R170): the high half is written after the low one, so it wins when rd = rc. -/
def execMul (rd rc ra rb : WReg) (s : State) : Result :=
  .next
    (((s.setW rd (s.readW ra * s.readW rb % radix s.cfg)).setW rc
      (s.readW ra * s.readW rb / radix s.cfg)).complete false 0)

/-- BREDUCE Wd, Whi, Wlo (R171). -/
def execBreduce (rd ra rb : WReg) (s : State) : Result :=
  checkModulus s
    (.next ((s.setW rd (concatWide s.cfg (s.readW ra) (s.readW rb) % s.n)).complete false 0))

/-- MODMUL Wd, Wa, Wb (R172). -/
def execModmul (rd ra rb : WReg) (s : State) : Result :=
  checkModulus s (.next ((s.setW rd (s.readW ra * s.readW rb % s.n)).complete false 0))

end Sys2Proof.Machine
end

