-- ==== Sys2Proof/Machine/BlockCipher.lean ====
section
/-! DEFINITION. The rsa_block_cipher_transform (46_block_cipher.md): BLKENC and BLKDEC. -/

namespace Sys2Proof.Machine

/-- BLKENC Wd, Wexp (R211): NO_MODULUS, KEY_TOO_SMALL, BAD_ARG, then the marked chunk to the power x[rb]. -/
def execBlkenc (rd rb : WReg) (s : State) : Result :=
  checkModulus s
    (check (s.blksz.toNat < 2) .keyTooSmall s
      (check (s.arg0.toNat < 1 ∨ s.blksz.toNat - 1 < s.arg0.toNat) .badArg s
        (.next ((s.setW rd (powMod (s.blockInt s.arg0.toNat) (s.readW rb) s.n)).complete false 0))))

/-- BLKDEC Wd, Wc, Wexp (R212): the payload to BUF, zero-filled; the plaintext integer to rd; the payload length to
RES0; FLAG when the dropped byte was the marker. -/
def execBlkdec (rd ra rb : WReg) (s : State) : Result :=
  checkModulus s
    (let m := powMod (s.readW ra) (s.readW rb) s.n
     .next (((s.fillBuf (payloadByte m)).setW rd m).complete (markerFound m) (payloadLen m)))

end Sys2Proof.Machine
end

