-- ==== Sys2Proof/Machine/MillerRabin.lean ====
section
/-! DEFINITION. The miller_rabin_test_unit (44_miller_rabin.md): MRTEST. -/

namespace Sys2Proof.Machine

/-- MRTEST Wa (R190). "It is one atomic engine step once its draws are supplied" (R196); while the port does not
supply them the engine holds in phase BUSY and nothing changes (R52, R266; log 5). -/
def execMrtest (ra : WReg) (s : State) : Result :=
  match millerRabin (s.readW ra) s.arg1.toNat s.port with
  | none => .next s
  | some (ok, p) => .next ({ s with port := p }.complete ok 0)

end Sys2Proof.Machine
end

