-- ==== Sys2Proof/Machine/Modexp.lean ====
section
/-! DEFINITION. The modular_exponent_engine (43_modexp.md): POWMOD and VERIFY. -/

namespace Sys2Proof.Machine

/-- POWMOD Wd, Wbase, Wexp (R180). -/
def execPowmod (rd ra rb : WReg) (s : State) : Result :=
  checkModulus s (.next ((s.setW rd (powMod (s.readW ra) (s.readW rb) s.n)).complete false 0))

/-- VERIFY Ws, We, Wm (R181): the message is compared unreduced. -/
def execVerify (ra rb rc : WReg) (s : State) : Result :=
  checkModulus s
    (.next (s.complete (decide (powMod (s.readW ra) (s.readW rb) s.n = s.readW rc)) 0))

end Sys2Proof.Machine
end

