-- ==== Sys2Proof/Machine/Montgomery.lean ====
section
/-! DEFINITION. The montgomery_multiplier unit (41_montgomery.md): MONTMUL, MONTIN, MONTOUT, with the radix
R = 2^NBITS and Rinv its inverse modulo the odd modulus (R160, R164). -/

namespace Sys2Proof.Machine

/-- MONTMUL Wd, Wa, Wb (R161). -/
def execMontmul (rd ra rb : WReg) (s : State) : Result :=
  checkOddModulus s
    (.next ((s.setW rd (s.readW ra * s.readW rb * montRinv s.cfg s.n % s.n)).complete false 0))

/-- MONTIN Wd, Wa (R162). -/
def execMontin (rd ra : WReg) (s : State) : Result :=
  checkOddModulus s (.next ((s.setW rd (s.readW ra * radix s.cfg % s.n)).complete false 0))

/-- MONTOUT Wd, Wa (R163). -/
def execMontout (rd ra : WReg) (s : State) : Result :=
  checkOddModulus s (.next ((s.setW rd (s.readW ra * montRinv s.cfg s.n % s.n)).complete false 0))

end Sys2Proof.Machine
end

