-- ==== Sys2Proof/Machine/Primegen.lean ====
section
/-! DEFINITION. The prime_candidate_generator (45_primegen.md): PRIMEGEN, one attempt per engine step (R203). -/

namespace Sys2Proof.Machine

/-- PRIMEGEN Wd (R200): one attempt. It completes with the accepted candidate and the count, or stays BUSY with the
count and the candidate held (R203); while the port does not supply the attempt's draws the engine holds (R52, R266;
log 5). The BAD_ARG check reads ARG0, which no access can change while the engine is BUSY (R88; log 10). -/
def execPrimegen (rd : WReg) (s : State) : Result :=
  check (s.arg0.toNat < 2 ∨ s.cfg.nbits < s.arg0.toNat) .badArg s
    (match primeAttempt s.arg0.toNat s.arg1.toNat s.port with
      | none => .next s
      | some a =>
        if a.accepted then
          .next (({ s with port := a.port }.setW rd a.candidate).complete false (countUp s.attempts))
        else .next ({ s with port := a.port }.stayBusy (countUp s.attempts) a.candidate))

end Sys2Proof.Machine
end

