-- ==== Sys2Proof/Machine/Primitives.lean ====
section
/-! DEFINITION. Control, modulus setup and modular primitives (40_primitives.md): NOP, SETMOD, GCD, MODINV. -/

namespace Sys2Proof.Machine

/-- N <- v with MODV, NBITLEN and BLKSZ (R33, R45, R46, R141). -/
def State.setModulus (s : State) (v : Nat) : State :=
  { s with
    n := v
    status := { s.status with modv := true }
    nbitlen := BitVec.ofNat 32 (bitlen v)
    blksz := BitVec.ofNat 32 ((bitlen v - 1) / 8) }

/-- NOP (R140). -/
def execNop (s : State) : Result := .next (s.complete false 0)

/-- SETMOD Wa (R141). -/
def execSetmod (ra : WReg) (s : State) : Result :=
  check (s.readW ra < 2) .badModulus s (.next ((s.setModulus (s.readW ra)).complete false 0))

/-- GCD Wd, Wa, Wb (R142). -/
def execGcd (rd ra rb : WReg) (s : State) : Result :=
  .next ((s.setW rd (euclid (s.readW ra) (s.readW rb))).complete false 0)

/-- MODINV Wd, Wa, Wn (R143): "No inverse" is FLAG = 0 with the sentinel 0, not an error. -/
def execModinv (rd ra rb : WReg) (s : State) : Result :=
  check (s.readW rb = 0) .divByZero s
    (if 1 < euclid (s.readW ra) (s.readW rb) then .next ((s.setW rd 0).complete false 0)
      else .next ((s.setW rd (modInverse (s.readW ra) (s.readW rb))).complete true 0))

end Sys2Proof.Machine
end

