-- ==== Sys2Proof/Machine/Dispatch.lean ====
section
/-! DEFINITION. The engine's execution of a decoded command: one arm per constructor of Instr. -/

namespace Sys2Proof.Machine

/-- What the engine does with a command in one step (R231; one attempt for PRIMEGEN, R203). -/
def exec (i : Instr) (s : State) : Host.Outcome State Fault Refusal :=
  match i with
  | .nop => Sys2Proof.Machine.execNop s
  | .setmod ra => Sys2Proof.Machine.execSetmod ra s
  | .gcd rd ra rb => Sys2Proof.Machine.execGcd rd ra rb s
  | .modinv rd ra rb => Sys2Proof.Machine.execModinv rd ra rb s
  | .mul rd rc ra rb => Sys2Proof.Machine.execMul rd rc ra rb s
  | .breduce rd ra rb => Sys2Proof.Machine.execBreduce rd ra rb s
  | .modmul rd ra rb => Sys2Proof.Machine.execModmul rd ra rb s
  | .montmul rd ra rb => Sys2Proof.Machine.execMontmul rd ra rb s
  | .montin rd ra => Sys2Proof.Machine.execMontin rd ra s
  | .montout rd ra => Sys2Proof.Machine.execMontout rd ra s
  | .powmod rd ra rb => Sys2Proof.Machine.execPowmod rd ra rb s
  | .verify ra rb rc => Sys2Proof.Machine.execVerify ra rb rc s
  | .mrtest ra => Sys2Proof.Machine.execMrtest ra s
  | .primegen rd => Sys2Proof.Machine.execPrimegen rd s
  | .blkenc rd rb => Sys2Proof.Machine.execBlkenc rd rb s
  | .blkdec rd ra rb => Sys2Proof.Machine.execBlkdec rd ra rb s

end Sys2Proof.Machine
end

