-- ==== Sys2Proof/Machine/Engine.lean ====
section
/-! DEFINITION. The engine's step (60_exceptions.md section 1) and the step of every agent, which Step.lean calls. -/

namespace Sys2Proof.Machine

/-- The engine runs a held command word: the pre-checks ILLEGAL_OPCODE and RESERVED_BITS (R116, R117, R234), then
the command itself. -/
def runWord (w : Word) (s : State) : Result :=
  match decode w with
  | .illegalOpcode => .next (s.raise .illegalOpcode)
  | .reservedBits => .next (s.raise .reservedBits)
  | .instr i => exec i s

/-- The engine's turn: in phase BUSY one step of the held command (R203, R231); "An idle engine does nothing
observable" (R246; log 12). -/
def engineStep (s : State) : Result :=
  match s.phase with
  | .idle => .next s
  | .busy c => runWord c.word s

/-- One action of one agent (R18), or the reset input (R260). -/
def eventStep (e : Event) (s : State) : Result :=
  match e with
  | .access a => s.hostStep a
  | .engine => engineStep s
  | .supply v => .next { s with port := s.port.supply v }
  | .assertReset => .next s.assertReset
  | .releaseReset => .next s.releaseReset

/-- The next agent's action: the first of the pending ones, and the engine's turn when none is pending (log 2). -/
def nextAction (s : State) : Result :=
  match s.pending with
  | [] => engineStep s
  | e :: rest => eventStep e { s with pending := rest }

/-- The state in which the engine, with the next turn, holds the just accepted word `v` (R230). -/
def State.holdingWord (s : State) (v : Word) : State := { s.accept v with pending := .engine :: s.pending }

end Sys2Proof.Machine
end

