-- ==== Sys2Proof/Machine/Step.lean ====
section
/-! DEFINITION. One step of the machine: one action of the agent whose turn it is (00_scope.md R18). -/

namespace Sys2Proof.Machine

/-- One step (R18, R89). -/
def step (s : State) : Host.Outcome State Fault Refusal := nextAction s

/-- The state from which the very next step runs the command whose word is `w`: the word stands accepted (R230) and
the engine has the turn (log 6). There is no program counter and no fetch (R35, R92). -/
def State.withFetchWord (s : State) (nbits w : Nat) : State := s.holdingWord (tableWord nbits w)

end Sys2Proof.Machine
end

