-- ==== Sys2Proof/Machine/Assembler.lean ====
section
/-! DEFINITION. The assembler's side of 30_encoding.md section 5: the command syntax (R124), the pseudo-instructions
(R126) and the host notation WR, RD, LDW, ISSUE and WAIT as the agents' actions (R125). -/

namespace Sys2Proof.Machine

/-- The name of a wide register, W0 to W15 (R124). -/
def regName (i : WReg) : String := "W" ++ toString i.val

/-- A mnemonic with its operands, separated by commas (R124). -/
def asmLine (mnemonic : String) (operands : List WReg) : String :=
  if operands.isEmpty then mnemonic else mnemonic ++ " " ++ String.intercalate ", " (operands.map regName)

/-- The assembler syntax of a command (R124). -/
def asm : Instr → String
  | .nop => asmLine "NOP" []
  | .setmod ra => asmLine "SETMOD" [ra]
  | .gcd rd ra rb => asmLine "GCD" [rd, ra, rb]
  | .modinv rd ra rb => asmLine "MODINV" [rd, ra, rb]
  | .mul rd rc ra rb => asmLine "MUL" [rd, rc, ra, rb]
  | .breduce rd ra rb => asmLine "BREDUCE" [rd, ra, rb]
  | .modmul rd ra rb => asmLine "MODMUL" [rd, ra, rb]
  | .montmul rd ra rb => asmLine "MONTMUL" [rd, ra, rb]
  | .montin rd ra => asmLine "MONTIN" [rd, ra]
  | .montout rd ra => asmLine "MONTOUT" [rd, ra]
  | .powmod rd ra rb => asmLine "POWMOD" [rd, ra, rb]
  | .verify ra rb rc => asmLine "VERIFY" [ra, rb, rc]
  | .mrtest ra => asmLine "MRTEST" [ra]
  | .primegen rd => asmLine "PRIMEGEN" [rd]
  | .blkenc rd rb => asmLine "BLKENC" [rd, rb]
  | .blkdec rd ra rb => asmLine "BLKDEC" [rd, ra, rb]

/-! ### Pseudo-instructions (R126) -/

/-- SIGN Wd, Wm, Wpriv. -/
def pseudoSign (rd rm rpriv : WReg) : Instr := .powmod rd rm rpriv

/-- RSAENC Wd, Wm, Wpub. -/
def pseudoRsaenc (rd rm rpub : WReg) : Instr := .powmod rd rm rpub

/-- RSADEC Wd, Wc, Wpriv. -/
def pseudoRsadec (rd rc rpriv : WReg) : Instr := .powmod rd rc rpriv

/-- MODSQR Wd, Wa. -/
def pseudoModsqr (rd ra : WReg) : Instr := .modmul rd ra ra

/-- MONTSQR Wd, Wa. -/
def pseudoMontsqr (rd ra : WReg) : Instr := .montmul rd ra ra

/-- MODRED Wd, Wz, Wa, "with Wz = 0 beforehand". -/
def pseudoModred (rd rz ra : WReg) : Instr := .breduce rd rz ra

/-- ISPRIME Wa. -/
def pseudoIsprime (ra : WReg) : Instr := .mrtest ra

/-! ### Host notation (R125) -/

/-- WR off, v. -/
def hostWr (c : Config) (off : Nat) (v : Word) : Event := .access (.write (c.base + off) 4 v)

/-- RD off. -/
def hostRd (c : Config) (off : Nat) : Event := .access (.read (c.base + off) 4)

/-- LDW Wi, v: "writes the NW words of v into Wi, least significant first". -/
def hostLdw (c : Config) (i : WReg) (v : Nat) : List Event :=
  (List.range (numWords c)).map fun j => hostWr c (0x4000 + 0x400 * i.val + 4 * j) (wordOf v j)

/-- ISSUE of a command: WR 0x010 with its word. -/
def hostIssue (c : Config) (i : Instr) : Event := hostWr c 0x010 (encode i)

/-- A WAIT that sees BUSY = 0 at its `polls`-th poll of STATUS, the engine having a turn before each poll (log 13). -/
def hostWait (c : Config) (polls : Nat) : List Event :=
  (List.replicate polls [Event.engine, hostRd c 0x00C]).flatten

end Sys2Proof.Machine
end

