-- ==== Sys2Proof/Machine/Driver.lean ====
section
/-! DEFINITION. The host driver's stream procedures (46_block_cipher.md section 2: R220, R221) over bus accesses. They
bind the host and not the block; they are here so that the source's stream properties (R222) can be stated. -/

namespace Sys2Proof.Machine

/-- The host errors of the stream procedures (R5, R220, R221). The block has no code for them. -/
inductive HostError where
  | insufficientKeyStrength
  | signatureMismatch
  | malformedCiphertextLine
deriving DecidableEq, Repr

/-- A public key with its signed identity as numbers (R220, R223). -/
structure PublicKey where
  n : Nat
  e : Nat
  signature : Nat
  identity : Nat
deriving DecidableEq, Repr

/-- A private key as numbers (R221, R223). -/
structure PrivateKey where
  n : Nat
  d : Nat
deriving DecidableEq, Repr

namespace State

/-- Host writes one after the other, each to its offset. -/
def hostWrites (s : State) (ws : List (Nat × Word)) : State := ws.foldl (fun t a => t.memWrite a.1 a.2) s

/-- LDW Wi, v (R125): the NW words of v from its low end. DESIGN CHOICE (log 18): a number of 2^NBITS or more, which D2
says cannot be loaded, loads its low NBITS bits; the rules name no reaction for a key number. -/
def loadWide (s : State) (i : WReg) (v : Nat) : State :=
  s.hostWrites ((List.range (numWords s.cfg)).map fun j => (0x4000 + 0x400 * i.val + 4 * j, wordOf v j))

/-- The data of a host read at an offset. -/
def hostRead (s : State) (off : Nat) : Word := s.readData (slotAt s.cfg off)

/-- Wi as the host reads it, word by word (R31). -/
def hostReadWide (s : State) (i : WReg) : Nat :=
  (List.range (numWords s.cfg)).foldl
    (fun acc j => acc + (s.hostRead (0x4000 + 0x400 * i.val + 4 * j)).toNat * 2 ^ (32 * j)) 0

/-- ISSUE of a command that takes no draws, and the WAIT for it: the accept, then the engine's one step (R230, R231).
DESIGN CHOICE (log 19): the driver does not look at STATUS.ERR; after an error completion it goes on with the N, BLKSZ,
RES0 and BUF that stood before (R233). R220 and R221 name no reaction. -/
def issueAndWait (s : State) (i : Instr) : State :=
  match engineStep (s.memWrite 0x010 (encode i)) with
  | .next t => t
  | .fault _ => s
  | .refused _ => s

/-- The chunk's bytes written into BUF from BUF[0] on, a last partial word filled up with zero bytes (R48, R220). -/
def loadChunk (s : State) (chunk : List Byte) : State :=
  s.hostWrites
    ((List.range ((chunk.length + 3) / 4)).map fun w =>
      (0x800 + 4 * w,
        chunk.getD (4 * w + 3) 0 ++ chunk.getD (4 * w + 2) 0 ++ chunk.getD (4 * w + 1) 0 ++ chunk.getD (4 * w) 0))

/-- BUF[0..len-1] as the host reads it, by words (R48). -/
def hostReadBuf (s : State) (len : Nat) : List Byte :=
  (List.range len).map fun j => (s.hostRead (0x800 + 4 * (j / 4))).extractLsb' (8 * (j % 4)) 8

/-- One chunk encrypted: the chunk to BUF, its length to ARG0, BLKENC W4, W1, and W4 read back (R220 step 4). -/
def encryptChunk (s : State) (chunk : List Byte) : Nat × State :=
  let t := ((s.loadChunk chunk).memWrite 0x014 (BitVec.ofNat 32 chunk.length)).issueAndWait (.blkenc 4 1)
  (t.hostReadWide 4, t)

/-- One line decrypted: the ciphertext to W4, BLKDEC W5, W4, W1, and BUF[0..RES0-1] read back (R221 step 2). -/
def decryptLine (s : State) (c : Nat) : List Byte × State :=
  let t := (s.loadWide 4 c).issueAndWait (.blkdec 5 4 1)
  (t.hostReadBuf (t.hostRead 0x01C).toNat, t)

end State

/-- The chunks of an input: full chunks of `size` bytes and a last shorter one; none of an empty input (R220). The
first argument bounds the number of chunks. -/
def chunksOf : Nat → Nat → List Byte → List (List Byte)
  | 0, _, _ => []
  | k + 1, size, bytes => if bytes = [] then [] else bytes.take size :: chunksOf k size (bytes.drop size)

/-- The chunks encrypted one after the other (R220 step 4). -/
def encryptChunks (s : State) : List (List Byte) → List Nat
  | [] => []
  | c :: cs => (s.encryptChunk c).1 :: encryptChunks (s.encryptChunk c).2 cs

/-- The host's encryption of a byte stream (R220). The registers that hold the key are the driver's choice
(log 13): n in W0, e in W1, the signature in W2, the identity in W3. A key number of 2^NBITS or more is log 18, a command
that ends as an error log 19. -/
def encryptStream (s : State) (key : PublicKey) (bytes : List Byte) : Except HostError (List Nat) :=
  let loaded := (((s.loadWide 0 key.n).loadWide 1 key.e).loadWide 2 key.signature).loadWide 3 key.identity
  let ready := loaded.issueAndWait (.setmod 0)
  let k := (ready.hostRead 0x020).toNat
  if k < 2 then .error .insufficientKeyStrength
  else
    let verified := ready.issueAndWait (.verify 2 1 3)
    if (verified.hostRead 0x00C).getLsbD 3 then
      .ok (encryptChunks verified (chunksOf bytes.length (k - 1) bytes))
    else .error .signatureMismatch

/-- The lines decrypted one after the other; a line that does not parse is `none` (R221 step 2). DESIGN CHOICE (log 20): a
malformed line gives the error alone, without the bytes of the lines before it; R221 says only report and abort. -/
def decryptLines (s : State) : List (Option Nat) → Except HostError (List Byte)
  | [] => .ok []
  | none :: _ => .error .malformedCiphertextLine
  | some c :: rest =>
    if radix s.cfg ≤ c then .error .malformedCiphertextLine
    else
      match decryptLines (s.decryptLine c).2 rest with
      | .ok bytes => .ok ((s.decryptLine c).1 ++ bytes)
      | .error e => .error e

/-- The host's decryption of ciphertext lines (R221), with n in W0 and d in W1 (log 13; logs 18, 19 and 20 as above). -/
def decryptStream (s : State) (key : PrivateKey) (lines : List (Option Nat)) : Except HostError (List Byte) :=
  decryptLines (((s.loadWide 0 key.n).loadWide 1 key.d).issueAndWait (.setmod 0)) lines

end Sys2Proof.Machine
end

