-- ==== Sys2Proof/Safety.lean ====
section
/-! DEFINITION. What a good state is (`State.Inv`, from 10_state.md R30 to R54), what a command leaves as it was, and when a run has
ended (R269): the terms in which claims are stated. -/

namespace Sys2Proof.Machine

/-- The registers that belong to the modulus agree with each other: MODV = 1 means N >= 2 with its NBITLEN and
BLKSZ, and MODV = 0 means that they still stand at 0 (R33, R45, R46, R54). -/
def State.ModulusInv (s : State) : Prop :=
  if s.status.modv then
    2 ≤ s.n ∧ s.nbitlen.toNat = bitlen s.n ∧ s.blksz.toNat = (bitlen s.n - 1) / 8
  else s.n = 0 ∧ s.nbitlen = 0 ∧ s.blksz = 0

/-- What the engine holds while BUSY (R47, R230): the word that CMD reads back, with DONE, ERR and ERRCODE still
cleared, an attempt count that fits 32 bits (R200) and a candidate that fits a wide register. -/
def State.EngineInv (s : State) : Prop :=
  match s.phase with
  | .idle => True
  | .busy c =>
    c.word = s.cmd ∧ c.attempts < 2 ^ 32 ∧ (∀ x, c.candidate = some x → x < radix s.cfg) ∧
      s.status.done = false ∧ s.status.err = false ∧ s.status.errcode = .none

/-- Every register stands at its reset value and the engine is IDLE (R54). -/
def AtResetValues (t : State) : Prop :=
  (∀ i, t.readW i = 0) ∧ t.n = 0 ∧ (∀ j, t.readBuf j = 0) ∧ t.ctrlWord = 0 ∧ t.statusWord = 0 ∧
    t.cmd = 0 ∧ t.arg0 = 0 ∧ t.arg1 = 0 ∧ t.res0 = 0 ∧ t.blksz = 0 ∧ t.nbitlen = 0 ∧ t.phase = .idle ∧
    t.irq = false

/-- A good state: legal parameters (R6, R7), register values in range (R10, R30, R32), BUF in canonical form within
its NB bytes (R48), the modulus registers agreeing, the engine's held command agreeing with STATUS and CMD, an error
code wherever ERR stands (R233), and every register at its reset value while the reset input stands asserted (R260). -/
structure State.Inv (s : State) : Prop where
  legal : s.cfg.Legal
  wide : ∀ i, s.readW i < radix s.cfg
  modulus : s.n < radix s.cfg
  bufForm : Memory.wf s.buf = true
  bufRange : ∀ j, numBytes s.cfg ≤ j → s.readBuf j = 0
  modulusRegs : s.ModulusInv
  engine : s.EngineInv
  errCoded : s.status.err = true → s.status.errcode ≠ .none
  underReset : s.resetHeld = true → AtResetValues s

/-- Every wide register but those of `ds` holds what it held. -/
def SameWideExcept (ds : List WReg) (s t : State) : Prop := ∀ i, i ∉ ds → t.readW i = s.readW i

/-- Every byte of BUF reads as before. -/
def SameBuf (s t : State) : Prop := ∀ j, t.readBuf j = s.readBuf j

/-- N, MODV, NBITLEN and BLKSZ are as before. -/
def SameModulus (s t : State) : Prop :=
  t.n = s.n ∧ t.status.modv = s.status.modv ∧ t.nbitlen = s.nbitlen ∧ t.blksz = s.blksz

/-- What no command writes is as before: the parameters, CTRL, CMD, ARG0, ARG1, the sticky bits, the level of the reset
input, and the other agents' pending actions with the answer on the bus. -/
def SameHostSide (s t : State) : Prop :=
  t.cfg = s.cfg ∧ t.ie = s.ie ∧ t.cmd = s.cmd ∧ t.arg0 = s.arg0 ∧ t.arg1 = s.arg1 ∧
    t.status.cmdovr = s.status.cmdovr ∧ t.status.accerr = s.status.accerr ∧ t.pending = s.pending ∧
    t.reply = s.reply ∧ t.resetHeld = s.resetHeld

/-- A command left everything but STATUS, RES0, the phase and the port as it was, except the wide registers `ds`. -/
def WritesOnlyWide (ds : List WReg) (s t : State) : Prop :=
  SameWideExcept ds s t ∧ SameBuf s t ∧ SameModulus s t ∧ SameHostSide s t

/-- A completion with FLAG = f and RES0 = r (R231). -/
def CompletedWith (f : Bool) (r : Nat) (t : State) : Prop :=
  t.status.flag = f ∧ t.res0.toNat = r ∧ t.status.errcode = .none ∧ t.status.err = false ∧
    t.status.done = true ∧ t.phase = .idle

/-- An error completion with `code`: nothing else changes (R233). -/
def FailedWith (code : ErrCode) (s t : State) : Prop :=
  t =
    { s with
      status :=
        { done := true, err := true, flag := false, modv := s.status.modv, cmdovr := s.status.cmdovr,
          accerr := s.status.accerr, errcode := code }
      phase := .idle }

/-- One step in which the action `e` comes first, before whatever else is pending. -/
def actFirst (e : Event) (s : State) : Result := step { s with pending := e :: s.pending }

/-- The path a command takes (R230, R231): the host writes its word to CMD, then the engine has its turn. -/
def Issued (i : Instr) (s t : State) : Prop :=
  ∃ u, actFirst (hostIssue s.cfg i) s = .next u ∧ actFirst .engine u = .next t

/-- A command that takes draws from the random-bits port (R52). -/
def TakesDraws : Instr → Prop
  | .mrtest _ => True
  | .primegen _ => True
  | _ => False

/-- The port can supply `k` more answers (R52). -/
def PortSupplies (p : Port) (k : Nat) : Prop := k ≤ p.queue.length ∨ p.tail ≠ .silent

/-- The witness a does not show n composite: with n - 1 = 2^k * r and r odd, a^r is 1 modulo n, or one of the k
squarings from a^r on is n - 1 (R190, R191). -/
def PassesRound (n a : Nat) : Prop :=
  ∃ r k, r % 2 = 1 ∧ n - 1 = 2 ^ k * r ∧ (a ^ r % n = 1 ∨ ∃ j, j < k ∧ a ^ (2 ^ j * r) % n = n - 1)

/-- An RSA key: n = p*q with p and q distinct primes, and d*e = 1 modulo (p-1)*(q-1) (R183, R214). -/
def RsaKey (n e d : Nat) : Prop :=
  ∃ p q, p.Prime ∧ q.Prime ∧ p ≠ q ∧ n = p * q ∧ d * e % ((p - 1) * (q - 1)) = 1 % ((p - 1) * (q - 1))

/-- The bytes of BE(m) as numbers, the most significant first (R15). -/
def digitsBE (m : Nat) : List Nat := (Nat.digits 256 m).reverse

/-- The offsets R84 calls reserved: those that R80 lists as reserved and the unused tail words of BUF, N and Wi. -/
def ReservedOffset (c : Config) (off : Nat) : Prop :=
  0x028 ≤ off ∧ off < 0x800 ∨ 0x800 + 4 * numWords c ≤ off ∧ off < 0x1000 ∨
    0x1000 + 4 * numWords c ≤ off ∧ off < 0x4000 ∨
    0x4000 ≤ off ∧ off < 0x8000 ∧ 4 * numWords c ≤ off % 0x400

/-- The offset of word j of Wi (R31). -/
def wideOffset (i : WReg) (j : Nat) : Nat := 0x4000 + 0x400 * i.val + 4 * j

/-- The end of a run: the host has nothing more to do and the engine is IDLE (R269). -/
def State.runEnded (s : State) : Prop :=
  (∀ a, Event.access a ∉ s.pending) ∧ s.phase = .idle

end Sys2Proof.Machine
end

