-- ==== Sys2Proof/Certificates/Slice0/Obligations.lean ====
section
/-! DEFINITION. The statements for the provers, from the numbered rules of spec/: encoding, the host's accesses, the command
lifecycle, what each command does and leaves, the invariant every step keeps, and the source's laws. -/

open Sys2Proof Sys2Proof.Machine

/-! ### Encoding (30_encoding.md) -/

/-- R110, R111, R113, R121: the word of every command, with every value of every field it uses, decodes to it. -/
def Obligations.DecodeOfEncodeIsTheCommand : Prop :=
  ∀ i : Instr, decode (encode i) = .instr i

/-- R114, R121: a command ignores the register fields it does not use; its word is the given one with those fields 0;
and what selects a command is the opcode in bits [7:0] with bits [31:24] zero (mask 0xFF0000FF). -/
def Obligations.IgnoredFieldsDoNotChangeTheCommand : Prop :=
  (∀ (w w' : Word) (i : Instr),
      decode w = .instr i → w' &&& fieldMask i = w &&& fieldMask i → decode w' = .instr i) ∧
    (∀ (w : Word) (i : Instr),
      decode w = .instr i →
        encode i = w &&& fieldMask i ∧ w &&& 0xFF0000FF = encode i &&& 0xFF0000FF) ∧
    ∀ w : Word, (∃ i, decode w = .instr i) ↔ (w &&& 0xFF0000FF).toNat < 0x10

/-- R113, R116, R117, R119: every word has exactly one of the three outcomes, chosen by its opcode and reserved bits. -/
def Obligations.DecodingHasThreeOutcomes : Prop :=
  ∀ w : Word,
    (decode w = .illegalOpcode ↔ 0x10 ≤ w.toNat % 0x100) ∧
      (decode w = .reservedBits ↔ w.toNat % 0x100 < 0x10 ∧ w.toNat / 0x1000000 ≠ 0) ∧
      ((∃ i, decode w = .instr i) ↔ w.toNat % 0x100 < 0x10 ∧ w.toNat / 0x1000000 = 0)

/-- R113, R121 and the words of 95_test_vectors.md: one written-out word for each opcode decodes to its command. -/
def Obligations.SampleWordsDecode : Prop :=
  decode 0x00FFFF00 = .instr .nop ∧ decode 0x00001001 = .instr (.setmod 1) ∧
    decode 0x00021302 = .instr (.gcd 3 1 2) ∧ decode 0x00021303 = .instr (.modinv 3 1 2) ∧
    decode 0x00521404 = .instr (.mul 4 5 1 2) ∧ decode 0x00089A05 = .instr (.breduce 10 9 8) ∧
    decode 0x00032506 = .instr (.modmul 5 2 3) ∧ decode 0x00054607 = .instr (.montmul 6 4 5) ∧
    decode 0x00002408 = .instr (.montin 4 2) ∧ decode 0x00006709 = .instr (.montout 7 6) ∧
    decode 0x0002130A = .instr (.powmod 3 1 2) ∧ decode 0x0023700B = .instr (.verify 7 3 2) ∧
    decode 0x0000200C = .instr (.mrtest 2) ∧ decode 0x0000010D = .instr (.primegen 1) ∧
    decode 0x0002040E = .instr (.blkenc 4 2) ∧ decode 0x0003450F = .instr (.blkdec 5 4 3)

/-! ### Reset, the invariant, the step -/

/-- R260: asserting the reset input gives every register its reset value, also while a command runs; while it stays
asserted no action of any agent changes one; they have the same values after it is released. ID and CFG keep
their constants, and the port is not affected. State.reset has the same values; that the reset input stands released in it
is the model's choice (log 9, DESIGN CHOICE). -/
def Obligations.ResetGivesTheResetValues : Prop :=
  (∀ s : State, ∃ t, actFirst .assertReset s = .next t ∧ AtResetValues t ∧ t.resetHeld = true ∧ t.cfg = s.cfg ∧
      t.port = s.port) ∧
    (∀ (s t : State) (e : Event), s.resetHeld = true → AtResetValues s → actFirst e s = .next t →
      AtResetValues t ∧ t.cfg = s.cfg ∧ (t.resetHeld = false ↔ e = .releaseReset)) ∧
    (∀ s : State, AtResetValues s →
      ∃ t, actFirst .releaseReset s = .next t ∧ AtResetValues t ∧ t.resetHeld = false ∧ t.cfg = s.cfg ∧
        t.port = s.port) ∧
    AtResetValues State.reset ∧ State.reset.resetHeld = false

/-- R6, R30 to R48, R54: the reset state of every legal build is a good state, State.reset among them. -/
def Obligations.ResetStateIsGood : Prop :=
  (∀ c : Config, c.Legal → State.Inv (State.resetFor c)) ∧ State.Inv State.reset

/-- R10, R30, R32, R33, R45 to R48, R232: every step of every agent keeps a good state good. -/
def Obligations.EveryStepKeepsStatesGood : Prop :=
  ∀ s t : State, s.Inv → step s = .next t → t.Inv

/-- R230, R231: the engine's turn runs the command that its held word decodes to. The two other clauses are the model's
choices: with nothing pending the engine has the turn (log 2, DESIGN CHOICE), and a word set up by withFetchWord is
the one the next step runs (log 6, DESIGN CHOICE). -/
def Obligations.StepRunsTheDecodedCommand : Prop :=
  (∀ (s : State) (c : Command) (i : Instr), s.phase = .busy c → decode c.word = .instr i →
      (s.pending = [] → step s = exec i s) ∧ actFirst .engine s = exec i s) ∧
    ∀ (s : State) (w : Nat) (i : Instr), decodeTableWord 32 w = some i →
      step (s.withFetchWord 32 w) = exec i (s.accept (tableWord 32 w))

/-! ### Host accesses (20_memory.md, 10_state.md)

An idle block is one whose engine is IDLE and whose reset input is released. What an access does while the reset input stands
asserted is said by `ResetGivesTheResetValues`. -/

/-- R82: an access inside the window that is not 4 bytes wide, or not at a multiple of 4, is a bus error of the host's
step; every other access inside the window is answered, and a read gets its data. That it is answered while the reset
input stands asserted too is the model's choice (log 9, DESIGN CHOICE). -/
def Obligations.OnlyAlignedWordAccessesGetThrough : Prop :=
  ∀ (s : State) (off size : Nat) (v : Word), off < 0x8000 →
    ((size ≠ 4 ∨ off % 4 ≠ 0) →
      actFirst (.access (.read (s.cfg.base + off) size)) s = .fault .busError ∧
        actFirst (.access (.write (s.cfg.base + off) size v)) s = .fault .busError) ∧
      (size = 4 → off % 4 = 0 →
        (∃ t d, actFirst (.access (.read (s.cfg.base + off) size)) s = .next t ∧ t.reply = .data d) ∧
          ∃ t, actFirst (.access (.write (s.cfg.base + off) size v)) s = .next t ∧ t.reply = .ack)

/-- R39, R232: a read of STATUS shows every field in its place, ERRCODE with the number R232 gives the code, and changes
nothing; a write clears exactly the W1C bits written as 1. Both at any time, but for a write under reset; that a read is
answered so while the reset input stands asserted is the model's choice (log 9, DESIGN CHOICE). -/
def Obligations.StatusReadsItsFieldsAndClearsW1C : Prop :=
  [ErrCode.none, .illegalOpcode, .reservedBits, .noModulus, .evenModulus, .keyTooSmall, .badArg, .badModulus,
        .divByZero].map ErrCode.code = [0x00, 0x01, 0x02, 0x03, 0x04, 0x05, 0x06, 0x07, 0x08] ∧
    ∀ (s : State) (v : Word),
      (∃ d : Word, actFirst (hostRd s.cfg 0x00C) s = .next { s with reply := .data d } ∧
        (d.getLsbD 0 = true ↔ ∃ c, s.phase = .busy c) ∧ d.getLsbD 1 = s.status.done ∧
        d.getLsbD 2 = s.status.err ∧ d.getLsbD 3 = s.status.flag ∧ d.getLsbD 4 = s.status.modv ∧
        d.getLsbD 5 = s.status.cmdovr ∧ d.getLsbD 6 = s.status.accerr ∧ d.getLsbD 7 = false ∧
        d.toNat / 0x100 = s.status.errcode.code) ∧
        (s.resetHeld = false → ∃ t, actFirst (hostWr s.cfg 0x00C v) s = .next { t with reply := .ack } ∧
          t =
            { s with
              status :=
                { done := s.status.done && !v.getLsbD 1, err := s.status.err && !v.getLsbD 2,
                  flag := s.status.flag, modv := s.status.modv, cmdovr := s.status.cmdovr && !v.getLsbD 5,
                  accerr := s.status.accerr && !v.getLsbD 6, errcode := s.status.errcode } })

/-- R49, R240: IRQ is CTRL.IE and DONE. It rises at a completion and, with the reset input released, when IE is set while
DONE stands; writing 1 to DONE, accepting a command or clearing IE drops it, and clearing IE leaves DONE pending. -/
def Obligations.InterruptFollowsEnableAndDone : Prop :=
  (∀ s : State, s.irq = true ↔ s.ie = true ∧ s.status.done = true) ∧
    (∀ (s t : State) (c : Command), s.phase = .busy c → actFirst .engine s = .next t → t.phase = .idle →
      t.irq = s.ie) ∧
    ∀ (s t : State) (v : Word), s.resetHeld = false →
      (actFirst (hostWr s.cfg 0x008 v) s = .next t →
        t.irq = (v.getLsbD 0 && s.status.done) ∧ t.status = s.status) ∧
        (actFirst (hostWr s.cfg 0x00C v) s = .next t → v.getLsbD 1 = true → t.irq = false) ∧
        (actFirst (hostWr s.cfg 0x010 v) s = .next t → s.phase = .idle → t.irq = false)

/-- R84: reserved offsets read 0 and ignore writes; writes to read-only registers, and to read-only fields of CTRL
(with the reset input released) and STATUS, are ignored; no access while the engine is IDLE raises ACCERR. The answers to
these accesses while the reset input stands asserted are the model's choice (log 9, DESIGN CHOICE). -/
def Obligations.ReservedAndReadOnlyOffsets : Prop :=
  ∀ (s : State) (off : Nat) (v : Word), s.cfg.Legal → off < 0x8000 → off % 4 = 0 →
    (ReservedOffset s.cfg off →
      actFirst (hostRd s.cfg off) s = .next { s with reply := .data 0 } ∧
        actFirst (hostWr s.cfg off v) s = .next { s with reply := .ack }) ∧
      (off = 0x000 ∨ off = 0x004 ∨ off = 0x01C ∨ off = 0x020 ∨ off = 0x024 ∨ 0x1000 ≤ off ∧ off < 0x1400 →
        actFirst (hostWr s.cfg off v) s = .next { s with reply := .ack }) ∧
      (s.resetHeld = false →
        actFirst (hostWr s.cfg 0x008 v) s = .next { s with ie := v.getLsbD 0, reply := .ack }) ∧
      (∃ t, actFirst (hostWr s.cfg 0x00C v) s = .next t ∧ t.phase = s.phase ∧ t.status.flag = s.status.flag ∧
        t.status.modv = s.status.modv ∧ t.status.errcode = s.status.errcode ∧ { t with status := s.status } =
          { s with reply := .ack }) ∧
      (s.phase = .idle →
        (∀ t, actFirst (hostRd s.cfg off) s = .next t → t.status.accerr = s.status.accerr) ∧
          ∀ t, actFirst (hostWr s.cfg off v) s = .next t → t.status.accerr = true → s.status.accerr = true)

/-- R31: while the engine is IDLE and the reset input released, word j of Wi reads bits [32j+31 : 32j]; a write sets those bits and leaves the others of
Wi, and every other register; words from NW on read 0 and ignore writes. -/
def Obligations.WideRegisterWords : Prop :=
  ∀ (s : State) (i : WReg) (j : Nat) (v : Word), s.cfg.Legal → s.phase = .idle → s.resetHeld = false →
    j < 256 →
    (j < numWords s.cfg →
      (∃ d : Word, actFirst (hostRd s.cfg (wideOffset i j)) s = .next { s with reply := .data d } ∧
        ∀ k, k < 32 → d.getLsbD k = (s.readW i).testBit (32 * j + k)) ∧
      ∃ x : Nat, actFirst (hostWr s.cfg (wideOffset i j) v) s = .next { s.setW i x with reply := .ack } ∧
        ∀ k, x.testBit k =
          if 32 * j ≤ k ∧ k < 32 * j + 32 then v.getLsbD (k - 32 * j) else (s.readW i).testBit k) ∧
      (numWords s.cfg ≤ j →
        actFirst (hostRd s.cfg (wideOffset i j)) s = .next { s with reply := .data 0 } ∧
          actFirst (hostWr s.cfg (wideOffset i j) v) s = .next { s with reply := .ack })

/-- R48, R83: while the engine is IDLE and the reset input released, word w of BUF reads BUF[4w] to BUF[4w+3] from its low byte lane up, and a write puts
its lanes there and changes no other byte. -/
def Obligations.BufferWords : Prop :=
  ∀ (s : State) (w : Nat) (v : Word), s.cfg.Legal → Memory.wf s.buf = true → s.phase = .idle →
    s.resetHeld = false → w < numWords s.cfg →
    (∃ d : Word, actFirst (hostRd s.cfg (0x800 + 4 * w)) s = .next { s with reply := .data d } ∧
      ∀ b, b < 4 → d.toNat / 256 ^ b % 256 = (s.readBuf (4 * w + b)).toNat) ∧
      ∃ t, actFirst (hostWr s.cfg (0x800 + 4 * w) v) s = .next t ∧
        (∀ b, b < 4 → (t.readBuf (4 * w + b)).toNat = v.toNat / 256 ^ b % 256) ∧
        (∀ j, j < 4 * w ∨ 4 * w + 4 ≤ j → t.readBuf j = s.readBuf j) ∧
        { t with buf := s.buf, reply := s.reply } = s

/-- R32, R36, R37, R38, R42 to R46: ID, CFG, CTRL, CMD, ARG0, ARG1, RES0, BLKSZ and NBITLEN read as they stand, at any time, and
the words of N while the engine is IDLE; ARG0 and ARG1 take every written value while it is IDLE and the reset input
released. That the reads are answered so while the reset input stands asserted is the model's choice (log 9, DESIGN
CHOICE). -/
def Obligations.HostReadsTheControlRegisters : Prop :=
  ∀ (s : State) (j : Nat) (v : Word), s.cfg.Legal →
    actFirst (hostRd s.cfg 0x000) s = .next { s with reply := .data 0x52534131 } ∧
      (∃ d : Word, actFirst (hostRd s.cfg 0x004) s = .next { s with reply := .data d } ∧
        d.toNat % 0x10000 = s.cfg.nbits ∧ d.toNat / 0x10000 % 0x100 = 16 ∧ d.toNat / 0x1000000 = 0) ∧
      (∃ d : Word, actFirst (hostRd s.cfg 0x008) s = .next { s with reply := .data d } ∧
        ∀ k, d.getLsbD k = true ↔ k = 0 ∧ s.ie = true) ∧
      actFirst (hostRd s.cfg 0x010) s = .next { s with reply := .data s.cmd } ∧
      actFirst (hostRd s.cfg 0x014) s = .next { s with reply := .data s.arg0 } ∧
      actFirst (hostRd s.cfg 0x018) s = .next { s with reply := .data s.arg1 } ∧
      actFirst (hostRd s.cfg 0x01C) s = .next { s with reply := .data s.res0 } ∧
      actFirst (hostRd s.cfg 0x020) s = .next { s with reply := .data s.blksz } ∧
      actFirst (hostRd s.cfg 0x024) s = .next { s with reply := .data s.nbitlen } ∧
      (s.phase = .idle → j < numWords s.cfg →
        ∃ d : Word, actFirst (hostRd s.cfg (0x1000 + 4 * j)) s = .next { s with reply := .data d } ∧
          ∀ k, k < 32 → d.getLsbD k = s.n.testBit (32 * j + k)) ∧
      (s.phase = .idle → s.resetHeld = false →
        actFirst (hostWr s.cfg 0x014 v) s = .next { s with arg0 := v, reply := .ack } ∧
          actFirst (hostWr s.cfg 0x018 v) s = .next { s with arg1 := v, reply := .ack })

/-- R88: while a command runs and the reset input is released, reads of W, N and BUF words return 0 and set ACCERR; writes to W and BUF words, ARG0 and
ARG1 are dropped and set ACCERR; a CMD write is dropped and sets CMDOVR; the control registers read as ever; CTRL
and STATUS take writes; RAZ/WI offsets behave as ever. So no access changes what the command reads or writes. -/
def Obligations.AccessesWhileBusy : Prop :=
  ∀ (s : State) (c : Command) (off : Nat) (v : Word), s.cfg.Legal → s.phase = .busy c →
    s.resetHeld = false → off < 0x8000 → off % 4 = 0 →
    ((0x800 ≤ off ∧ off < 0x800 + 4 * numWords s.cfg ∨ 0x1000 ≤ off ∧ off < 0x1000 + 4 * numWords s.cfg ∨
        0x4000 ≤ off ∧ off % 0x400 < 4 * numWords s.cfg →
      actFirst (hostRd s.cfg off) s = .next { s.setAccerr with reply := .data 0 }) ∧
      (0x800 ≤ off ∧ off < 0x800 + 4 * numWords s.cfg ∨ 0x4000 ≤ off ∧ off % 0x400 < 4 * numWords s.cfg ∨
          off = 0x014 ∨ off = 0x018 →
        actFirst (hostWr s.cfg off v) s = .next { s.setAccerr with reply := .ack }) ∧
      actFirst (hostWr s.cfg 0x010 v) s = .next { s.setCmdovr with reply := .ack } ∧
      (off < 0x028 → actFirst (hostRd s.cfg off) s = .next { s with reply := .data (s.slotWord (slotAt s.cfg off)) }) ∧
      actFirst (hostWr s.cfg 0x008 v) s = .next { s.writeCtrl v with reply := .ack } ∧
      actFirst (hostWr s.cfg 0x00C v) s = .next { s.writeStatus v with reply := .ack } ∧
      (ReservedOffset s.cfg off →
        actFirst (hostRd s.cfg off) s = .next { s with reply := .data 0 } ∧
          actFirst (hostWr s.cfg off v) s = .next { s with reply := .ack }) ∧
      ∀ (t : State) (a : HostAccess), actFirst (.access a) s = .next t →
        t.phase = s.phase ∧ t.cmd = s.cmd ∧ SameWideExcept [] s t ∧ SameBuf s t ∧ SameModulus s t ∧
          t.arg0 = s.arg0 ∧ t.arg1 = s.arg1 ∧ t.res0 = s.res0)

/-- R86: a read while the engine is IDLE changes nothing but the bus answer, and a write of anything but CMD done twice
leaves what it leaves done once. That the accesses are answered so while the reset input stands asserted is the model's
choice (log 9, DESIGN CHOICE). -/
def Obligations.IdleReadsAreCleanAndWritesIdempotent : Prop :=
  ∀ (s : State) (off : Nat) (v : Word), Memory.wf s.buf = true → off < 0x8000 → off % 4 = 0 →
    (s.phase = .idle → ∃ d, actFirst (hostRd s.cfg off) s = .next { s with reply := .data d }) ∧
      (off ≠ 0x010 → ∀ t u, actFirst (hostWr s.cfg off v) s = .next t → actFirst (hostWr s.cfg off v) t = .next u →
        u = t)

/-- R39, R236: CMDOVR and ACCERR, once set, stay until the host writes 1 to them or a reset occurs. -/
def Obligations.StickyBitsStayUntilCleared : Prop :=
  ∀ s t : State, step s = .next t →
    (s.status.cmdovr = true → t.status.cmdovr = false →
      s.pending.head? = some .assertReset ∨
        ∃ v : Word, s.pending.head? = some (hostWr s.cfg 0x00C v) ∧ v.getLsbD 5 = true) ∧
      (s.status.accerr = true → t.status.accerr = false →
        s.pending.head? = some .assertReset ∨
          ∃ v : Word, s.pending.head? = some (hostWr s.cfg 0x00C v) ∧ v.getLsbD 6 = true)

/-! ### The command lifecycle (60_exceptions.md) -/

/-- R230: a CMD write while the engine is IDLE and the reset input released accepts the word, whatever it is; the attempt count the engine holds with
it starts at 0 (R200). -/
def Obligations.CmdWriteWhileIdleIsAccepted : Prop :=
  ∀ (s : State) (w : Word), s.phase = .idle → s.resetHeld = false →
    ∃ t, actFirst (hostWr s.cfg 0x010 w) s = .next t ∧ t.cmd = w ∧
      (∃ c, t.phase = .busy c ∧ c.word = w ∧ c.attempts = 0) ∧
      t.status.done = false ∧ t.status.err = false ∧ t.status.errcode = .none ∧
      t.status.flag = s.status.flag ∧ t.res0 = s.res0 ∧ (∀ i, t.readW i = s.readW i) ∧ SameBuf s t ∧
      SameModulus s t ∧ t.ie = s.ie ∧ t.arg0 = s.arg0 ∧ t.arg1 = s.arg1 ∧
      t.status.cmdovr = s.status.cmdovr ∧ t.status.accerr = s.status.accerr ∧ t.irq = false

/-- R35, R42, R47, R246: the engine starts only by a CMD write while it is IDLE and the reset input is released; and the
turn of an IDLE engine leaves all state as it was (log 12, DEDUCED), as does a step with nothing pending (log 2,
DESIGN CHOICE: it is the engine's turn). -/
def Obligations.EngineStartsOnlyByACmdWrite : Prop :=
  (∀ (s t : State) (c : Command), step s = .next t → s.phase = .idle → t.phase = .busy c →
      s.pending.head? = some (hostWr s.cfg 0x010 c.word) ∧ s.resetHeld = false) ∧
    ∀ s : State, s.phase = .idle →
      actFirst .engine s = .next s ∧ (s.pending = [] → step s = .next s)

/-- R116: a word with opcode 0x10 to 0xFF, accepted by an idle block, ends as an error completion with ERRCODE 0x01, whatever its other
bits; no other state changes. -/
def Obligations.IllegalOpcodeEndsAsError : Prop :=
  ∀ (s : State) (w : Word), s.phase = .idle → s.resetHeld = false → 0x10 ≤ w.toNat % 0x100 →
    ∃ t u, actFirst (hostWr s.cfg 0x010 w) s = .next t ∧ actFirst .engine t = .next u ∧
      FailedWith .illegalOpcode { s with cmd := w, reply := .ack } u ∧ u.status.errcode.code = 0x01

/-- R117: a word with a legal opcode and a nonzero value in bits [31:24], accepted by an idle block, ends as an error completion with
ERRCODE 0x02, whatever MODV; no other state changes. With an illegal opcode such a word is reported as ILLEGAL_OPCODE. -/
def Obligations.ReservedBitsEndAsError : Prop :=
  ∀ (s : State) (w : Word), s.phase = .idle → s.resetHeld = false → w.toNat / 0x1000000 ≠ 0 →
    ∃ t u, actFirst (hostWr s.cfg 0x010 w) s = .next t ∧ actFirst .engine t = .next u ∧
      (w.toNat % 0x100 < 0x10 →
        FailedWith .reservedBits { s with cmd := w, reply := .ack } u ∧ u.status.errcode.code = 0x02) ∧
      (0x10 ≤ w.toNat % 0x100 → FailedWith .illegalOpcode { s with cmd := w, reply := .ack } u)

/-- R231, R266: every command that takes no draws completes in one engine step, from every state. -/
def Obligations.CommandsWithoutDrawsComplete : Prop :=
  ∀ (i : Instr) (s : State), ¬TakesDraws i →
    ∃ t, exec i s = .next t ∧ t.phase = .idle ∧ t.status.done = true ∧
      (t.status.err = true ↔ t.status.errcode ≠ .none)

/-- R233: an error completion changes STATUS and the phase and nothing else, whatever the command. -/
def Obligations.ErrorsArePrecise : Prop :=
  ∀ (i : Instr) (s t : State), s.status.err = false → exec i s = .next t → t.status.err = true →
    t.status.errcode ≠ .none ∧ FailedWith t.status.errcode s t

/-- R232, R235: each command ends in an error only with one of the codes its rule lists. -/
def Obligations.EachCommandRaisesOnlyItsErrors : Prop :=
  ∀ (i : Instr) (s t : State), s.status.err = false → exec i s = .next t → t.status.err = true →
    match i with
    | .nop => False
    | .gcd _ _ _ => False
    | .mul _ _ _ _ => False
    | .mrtest _ => False
    | .setmod _ => t.status.errcode = .badModulus
    | .modinv _ _ _ => t.status.errcode = .divByZero
    | .breduce _ _ _ => t.status.errcode = .noModulus
    | .modmul _ _ _ => t.status.errcode = .noModulus
    | .powmod _ _ _ => t.status.errcode = .noModulus
    | .verify _ _ _ => t.status.errcode = .noModulus
    | .blkdec _ _ _ => t.status.errcode = .noModulus
    | .montmul _ _ _ => t.status.errcode = .noModulus ∨ t.status.errcode = .evenModulus
    | .montin _ _ => t.status.errcode = .noModulus ∨ t.status.errcode = .evenModulus
    | .montout _ _ => t.status.errcode = .noModulus ∨ t.status.errcode = .evenModulus
    | .primegen _ => t.status.errcode = .badArg
    | .blkenc _ _ =>
      t.status.errcode = .noModulus ∨ t.status.errcode = .keyTooSmall ∨ t.status.errcode = .badArg

/-- R40, R44: at a successful completion FLAG is 0 but for MODINV, VERIFY, MRTEST and BLKDEC, and RES0 is 0 but for PRIMEGEN
and BLKDEC. -/
def Obligations.FlagAndResultOfOtherCommandsAreZero : Prop :=
  ∀ (i : Instr) (s t : State) (c : Command), s.phase = .busy c → exec i s = .next t → t.phase = .idle →
    t.status.err = false →
    t.status.done = true ∧ t.status.errcode = .none ∧
      (t.status.flag = true →
        (∃ rd ra rb, i = .modinv rd ra rb) ∨ (∃ ra rb rc, i = .verify ra rb rc) ∨ (∃ ra, i = .mrtest ra) ∨
          ∃ rd ra rb, i = .blkdec rd ra rb) ∧
      (t.res0 ≠ 0 → (∃ rd, i = .primegen rd) ∨ ∃ rd ra rb, i = .blkdec rd ra rb)

/-- R32, R33, R41: N, MODV, NBITLEN and BLKSZ change only in a reset or in the engine's step of a SETMOD. -/
def Obligations.OnlySetmodAndResetChangeTheModulus : Prop :=
  ∀ s t : State, step s = .next t → ¬SameModulus s t →
    s.pending.head? = some .assertReset ∨
      ∃ c ra, s.phase = .busy c ∧ decode c.word = .instr (.setmod ra) ∧ t.n = s.readW ra ∧ 2 ≤ t.n ∧
        t.status.modv = true

/-- R53: what a command does when it completes does not depend on the FLAG, ERR or ERRCODE it finds. -/
def Obligations.ResultsDoNotDependOnFlags : Prop :=
  ∀ (i : Instr) (s t : State) (c : Command) (f e : Bool) (code : ErrCode), s.phase = .busy c →
    exec i s = .next t → t.phase = .idle →
    exec i { s with status := { s.status with flag := f, err := e, errcode := code } } = .next t

/-! ### Control, modulus setup and modular primitives (40_primitives.md) -/

/-- R140: NOP completes, clears FLAG and RES0, and leaves everything else. -/
def Obligations.NopOnlyCompletes : Prop :=
  ∀ s : State, ∃ t, exec .nop s = .next t ∧ CompletedWith false 0 t ∧ WritesOnlyWide [] s t ∧ t.port = s.port

/-- R141, R45, R46: SETMOD of a value of 2 or more loads N with MODV, NBITLEN and BLKSZ, and leaves every W register; a
value of 0 or 1 ends as BAD_MODULUS. -/
def Obligations.SetmodLoadsTheModulus : Prop :=
  ∀ (s : State) (ra : WReg), s.cfg.Legal → s.readW ra < radix s.cfg →
    (2 ≤ s.readW ra →
      ∃ t, exec (.setmod ra) s = .next t ∧ CompletedWith false 0 t ∧ t.n = s.readW ra ∧
        t.status.modv = true ∧ t.nbitlen.toNat = Nat.size (s.readW ra) ∧
        t.blksz.toNat = (Nat.size (s.readW ra) - 1) / 8 ∧ SameWideExcept [] s t ∧ SameBuf s t ∧
        SameHostSide s t ∧ t.port = s.port) ∧
      (s.readW ra < 2 → ∃ t, exec (.setmod ra) s = .next t ∧ FailedWith .badModulus s t)

/-- R142: GCD writes the greatest common divisor, with MODV at any value. -/
def Obligations.GcdWritesTheGreatestCommonDivisor : Prop :=
  ∀ (s : State) (rd ra rb : WReg),
    ∃ t, exec (.gcd rd ra rb) s = .next t ∧ CompletedWith false 0 t ∧
      t.readW rd = Nat.gcd (s.readW ra) (s.readW rb) ∧ WritesOnlyWide [rd] s t ∧ t.port = s.port

/-- R143: MODINV writes the inverse in [0, n) with FLAG = 1 when a and n are coprime, the sentinel 0 with FLAG = 0 when
they are not, and ends as DIV_BY_ZERO for n = 0. -/
def Obligations.ModinvWritesTheInverse : Prop :=
  ∀ (s : State) (rd ra rb : WReg),
    (0 < s.readW rb → Nat.Coprime (s.readW ra) (s.readW rb) →
      ∃ t, exec (.modinv rd ra rb) s = .next t ∧ CompletedWith true 0 t ∧ t.readW rd < s.readW rb ∧
        s.readW ra * t.readW rd % s.readW rb = 1 % s.readW rb ∧ WritesOnlyWide [rd] s t ∧ t.port = s.port) ∧
      (0 < s.readW rb → ¬Nat.Coprime (s.readW ra) (s.readW rb) →
        ∃ t, exec (.modinv rd ra rb) s = .next t ∧ CompletedWith false 0 t ∧ t.readW rd = 0 ∧
          WritesOnlyWide [rd] s t ∧ t.port = s.port) ∧
      (s.readW rb = 0 → ∃ t, exec (.modinv rd ra rb) s = .next t ∧ FailedWith .divByZero s t)

/-! ### Barrett reducer (42_barrett.md) -/

/-- R170: MUL writes the low half of the exact product to rd and the high half to rc, rc last. -/
def Obligations.MulWritesBothHalves : Prop :=
  ∀ (s : State) (rd rc ra rb : WReg),
    ∃ t, exec (.mul rd rc ra rb) s = .next t ∧ CompletedWith false 0 t ∧
      (rd ≠ rc → t.readW rc * 2 ^ s.cfg.nbits + t.readW rd = s.readW ra * s.readW rb ∧
        t.readW rd < 2 ^ s.cfg.nbits) ∧
      (rd = rc → t.readW rc = s.readW ra * s.readW rb / 2 ^ s.cfg.nbits) ∧
      WritesOnlyWide [rd, rc] s t ∧ t.port = s.port

/-- R171: BREDUCE reduces the concatenation of two registers modulo N, exactly, for every input. -/
def Obligations.BreduceReducesThePair : Prop :=
  ∀ (s : State) (rd ra rb : WReg), s.status.modv = true → 2 ≤ s.n →
    ∃ t q, exec (.breduce rd ra rb) s = .next t ∧ CompletedWith false 0 t ∧ t.readW rd < s.n ∧
      s.readW ra * 2 ^ s.cfg.nbits + s.readW rb = q * s.n + t.readW rd ∧ WritesOnlyWide [rd] s t ∧
      t.port = s.port

/-- R172: MODMUL reduces the product modulo N, for every input, N even or odd. -/
def Obligations.ModmulReducesTheProduct : Prop :=
  ∀ (s : State) (rd ra rb : WReg), s.status.modv = true → 2 ≤ s.n →
    ∃ t q, exec (.modmul rd ra rb) s = .next t ∧ CompletedWith false 0 t ∧ t.readW rd < s.n ∧
      s.readW ra * s.readW rb = q * s.n + t.readW rd ∧ WritesOnlyWide [rd] s t ∧ t.port = s.port

/-- R173: MUL issued to an idle block and then BREDUCE of its two halves leaves what MODMUL leaves. The two halves stand in two
registers: with rd = rc the low half is lost (R170). -/
def Obligations.MulThenBreduceIsModmul : Prop :=
  ∀ (s : State) (lo hi d ra rb : WReg), s.phase = .idle → s.resetHeld = false → lo ≠ hi → s.status.modv = true →
    ∃ s1 s2 t, Issued (.mul lo hi ra rb) s s1 ∧ Issued (.breduce d hi lo) s1 s2 ∧
      Issued (.modmul d ra rb) s t ∧ s2.readW d = t.readW d ∧
      s2.readW d = s.readW ra * s.readW rb % s.n

/-! ### Montgomery multiplier (41_montgomery.md) -/

/-- R160, R161: for odd N, MONTMUL writes the number below N whose product with R = 2^NBITS is a * b modulo N. -/
def Obligations.MontmulWritesTheMontgomeryProduct : Prop :=
  ∀ (s : State) (rd ra rb : WReg), s.status.modv = true → s.n % 2 = 1 →
    ∃ t, exec (.montmul rd ra rb) s = .next t ∧ CompletedWith false 0 t ∧ t.readW rd < s.n ∧
      t.readW rd * 2 ^ s.cfg.nbits % s.n = s.readW ra * s.readW rb % s.n ∧ WritesOnlyWide [rd] s t ∧
      t.port = s.port

/-- R160, R162, R163: for odd N, MONTIN writes the number below N that is a * 2^NBITS modulo N, and MONTOUT the number
below N whose product with 2^NBITS is a modulo N, which is what MONTMUL of a and 1 writes. -/
def Obligations.MontinAndMontoutConvertTheForm : Prop :=
  ∀ (s : State) (rd ra rb : WReg), s.status.modv = true → s.n % 2 = 1 →
    (∃ t q, exec (.montin rd ra) s = .next t ∧ CompletedWith false 0 t ∧ t.readW rd < s.n ∧
        s.readW ra * 2 ^ s.cfg.nbits = q * s.n + t.readW rd ∧ WritesOnlyWide [rd] s t ∧ t.port = s.port) ∧
      ∃ t, exec (.montout rd ra) s = .next t ∧ CompletedWith false 0 t ∧ t.readW rd < s.n ∧
        t.readW rd * 2 ^ s.cfg.nbits % s.n = s.readW ra % s.n ∧ WritesOnlyWide [rd] s t ∧ t.port = s.port ∧
        (s.readW rb = 1 → exec (.montmul rd ra rb) s = .next t)

/-- R165: the laws of the three commands, issued one after the other to an idle block, for odd N and any a and b. A value
that a later command still needs stands in a register no earlier one writes. -/
def Obligations.MontgomeryLaws : Prop :=
  ∀ (s : State) (ra rb r1 r2 r3 r4 : WReg), s.phase = .idle → s.resetHeld = false → s.status.modv = true →
    s.n % 2 = 1 →
    (rb ≠ r1 → r1 ≠ r2 →
      ∃ s1 s2 s3 s4, Issued (.montin r1 ra) s s1 ∧ Issued (.montin r2 rb) s1 s2 ∧
        Issued (.montmul r3 r1 r2) s2 s3 ∧ Issued (.montout r4 r3) s3 s4 ∧
        s4.readW r4 = s.readW ra * s.readW rb % s.n) ∧
      (∃ s1 s2, Issued (.montout r1 ra) s s1 ∧ Issued (.montin r2 r1) s1 s2 ∧
        s2.readW r2 = s.readW ra % s.n) ∧
      (ra ≠ r1 → ∃ s1 s2, Issued (.montin r1 rb) s s1 ∧ Issued (.montmul r2 ra r1) s1 s2 ∧
        s2.readW r2 = s.readW ra * s.readW rb % s.n)

/-- R164: with a valid even N the three Montgomery commands end as EVEN_MODULUS and write nothing; the other N-using
commands raise no EVEN_MODULUS. -/
def Obligations.EvenModulusStopsMontgomeryOnly : Prop :=
  ∀ (s : State) (rd ra rb rc : WReg), s.status.modv = true → s.n % 2 = 0 →
    (∃ t, exec (.montmul rd ra rb) s = .next t ∧ FailedWith .evenModulus s t) ∧
      (∃ t, exec (.montin rd ra) s = .next t ∧ FailedWith .evenModulus s t) ∧
      (∃ t, exec (.montout rd ra) s = .next t ∧ FailedWith .evenModulus s t) ∧
      ∀ i, i = .breduce rd ra rb ∨ i = .modmul rd ra rb ∨ i = .powmod rd ra rb ∨ i = .verify ra rb rc ∨
          i = .blkenc rd rb ∨ i = .blkdec rd ra rb →
        ∃ t, exec i s = .next t ∧ t.status.errcode ≠ .evenModulus

/-- R232, R234, R235: with MODV = 0 the nine commands that use N end as NO_MODULUS, whatever N, BLKSZ and ARG0 hold. -/
def Obligations.NoModulusComesFirst : Prop :=
  ∀ (s : State) (rd ra rb rc : WReg) (i : Instr), s.status.modv = false →
    i = .breduce rd ra rb ∨ i = .modmul rd ra rb ∨ i = .montmul rd ra rb ∨ i = .montin rd ra ∨
        i = .montout rd ra ∨ i = .powmod rd ra rb ∨ i = .verify ra rb rc ∨ i = .blkenc rd rb ∨
        i = .blkdec rd ra rb →
      ∃ t, exec i s = .next t ∧ FailedWith .noModulus s t

/-! ### Modular exponent engine (43_modexp.md) -/

/-- R180: POWMOD writes base ^ exponent mod N, for every base and exponent, N even or odd. -/
def Obligations.PowmodWritesThePower : Prop :=
  ∀ (s : State) (rd ra rb : WReg), s.status.modv = true → 2 ≤ s.n →
    ∃ t, exec (.powmod rd ra rb) s = .next t ∧ CompletedWith false 0 t ∧
      t.readW rd = s.readW ra ^ s.readW rb % s.n ∧ WritesOnlyWide [rd] s t ∧ t.port = s.port

/-- R181: VERIFY accepts exactly when s ^ e mod N is the unreduced message, and writes no wide register. -/
def Obligations.VerifyComparesThePower : Prop :=
  ∀ (s : State) (ra rb rc : WReg), s.status.modv = true → 2 ≤ s.n →
    ∃ t f, exec (.verify ra rb rc) s = .next t ∧ CompletedWith f 0 t ∧
      (f = true ↔ s.readW ra ^ s.readW rb % s.n = s.readW rc) ∧
      (s.n ≤ s.readW rc → f = false) ∧ WritesOnlyWide [] s t ∧ t.port = s.port

/-- R183: for an RSA key and a message below N, VERIFY accepts the signature POWMOD makes, each command issued to the idle
block. The signature's register is neither the message's nor the exponent's: with rs = rm or rs = re POWMOD overwrites
an operand that VERIFY still needs, and R183 says nothing. -/
def Obligations.SignedMessagesVerify : Prop :=
  ∀ (s : State) (rs rm re rd : WReg), s.phase = .idle → s.resetHeld = false → s.status.modv = true →
    RsaKey s.n (s.readW re) (s.readW rd) → s.readW rm < s.n → rm ≠ rs → re ≠ rs →
    ∃ s1 s2, Issued (.powmod rs rm rd) s s1 ∧ Issued (.verify rs re rm) s1 s2 ∧ s2.status.flag = true

/-! ### Miller-Rabin test unit (44_miller_rabin.md) -/

/-- R190: the candidates decided without a draw: 2 and 3 are accepted, those below 2 and the other even ones rejected. -/
def Obligations.MrtestDecidesSmallAndEvenWithoutDraws : Prop :=
  ∀ (s : State) (ra : WReg),
    (s.readW ra = 2 ∨ s.readW ra = 3 →
      ∃ t, exec (.mrtest ra) s = .next t ∧ CompletedWith true 0 t ∧ WritesOnlyWide [] s t ∧ t.port = s.port) ∧
      (s.readW ra < 2 ∨ s.readW ra % 2 = 0 ∧ s.readW ra ≠ 2 →
        ∃ t, exec (.mrtest ra) s = .next t ∧ CompletedWith false 0 t ∧ WritesOnlyWide [] s t ∧ t.port = s.port)

/-- R190, R191, R193: for an odd candidate of 5 or more and a port that supplies a witness in [2, n-2] for each of the
max(ARG1 - 1, 0) rounds, MRTEST completes in one step, and FLAG says whether every witness passes. -/
def Obligations.MrtestRunsItsWitnesses : Prop :=
  ∀ (s : State) (ra : WReg) (witnesses rest : List Nat), 5 ≤ s.readW ra → s.readW ra % 2 = 1 →
    s.port.queue = witnesses ++ rest → witnesses.length = s.arg1.toNat - 1 →
    (∀ a ∈ witnesses, 2 ≤ a ∧ a ≤ s.readW ra - 2) →
    ∃ t f, exec (.mrtest ra) s = .next t ∧ CompletedWith f 0 t ∧
      (f = true ↔ ∀ a ∈ witnesses, PassesRound (s.readW ra) a) ∧ WritesOnlyWide [] s t

/-- R192: the number of witness rounds is max(ARG1 - 1, 0): that many answers of the port a passing test takes. With ARG1
0 or 1 no answer is taken and every odd candidate of 5 or more is accepted. -/
def Obligations.MrtestRoundCount : Prop :=
  ∀ (s : State) (ra : WReg), 5 ≤ s.readW ra → s.readW ra % 2 = 1 →
    (∀ (t : State) (c : Command), s.phase = .busy c → exec (.mrtest ra) s = .next t → t.phase = .idle →
      t.status.flag = true → s.arg1.toNat - 1 ≤ s.port.queue.length →
      t.port.queue = s.port.queue.drop (s.arg1.toNat - 1)) ∧
      (s.arg1.toNat ≤ 1 →
        ∃ t, exec (.mrtest ra) s = .next t ∧ CompletedWith true 0 t ∧ t.port = s.port)

/-- R194: for a prime candidate MRTEST completes with FLAG = 1 under every draw and every ARG1, if the port supplies its
draws; so a completed test of an odd candidate of 5 or more with FLAG = 0 had a composite one. A composite candidate
can end with FLAG = 1. -/
def Obligations.MrtestNeverRejectsAPrime : Prop :=
  (∀ (s : State) (ra : WReg), (s.readW ra).Prime → PortSupplies s.port (s.arg1.toNat - 1) →
      ∃ t, exec (.mrtest ra) s = .next t ∧ CompletedWith true 0 t) ∧
    (∀ (s t : State) (ra : WReg) (c : Command), s.phase = .busy c → exec (.mrtest ra) s = .next t →
      t.phase = .idle → 5 ≤ s.readW ra → s.readW ra % 2 = 1 → t.status.flag = false → ¬(s.readW ra).Prime) ∧
    ∃ (s t : State) (ra : WReg), 2 ≤ s.arg1.toNat ∧ ¬(s.readW ra).Prime ∧ exec (.mrtest ra) s = .next t ∧
      CompletedWith true 0 t

/-- R196: MRTEST completes from every state whose port supplies its draws, for every candidate and every ARG1. -/
def Obligations.MrtestCompletesOnceSupplied : Prop :=
  ∀ (s : State) (ra : WReg), PortSupplies s.port (s.arg1.toNat - 1) →
    ∃ t f, exec (.mrtest ra) s = .next t ∧ CompletedWith f 0 t ∧ WritesOnlyWide [] s t

/-! ### Prime candidate generator (45_primegen.md) -/

/-- R200, R201: the attempt in which PRIMEGEN draws a pattern whose candidate is prime completes with the candidate in rd
and the number of candidates drawn in RES0, saturating. -/
def Obligations.PrimegenCompletesOnAPrimeCandidate : Prop :=
  ∀ (s : State) (rd : WReg) (c : Command) (r : Nat) (rest : List Nat), s.phase = .busy c →
    2 ≤ s.arg0.toNat → s.arg0.toNat ≤ s.cfg.nbits → s.port.queue = r :: rest → r < 2 ^ s.arg0.toNat →
    (r ||| 2 ^ (s.arg0.toNat - 1)).Prime → PortSupplies { s.port with queue := rest } (s.arg1.toNat - 1) →
    ∃ t, exec (.primegen rd) s = .next t ∧ CompletedWith false (min (c.attempts + 1) 0xFFFFFFFF) t ∧
      t.readW rd = r ||| 2 ^ (s.arg0.toNat - 1) ∧ WritesOnlyWide [rd] s t

/-- R200, R203: the attempt in which PRIMEGEN draws a pattern whose candidate is even and not 2 takes no witness, leaves every
register and stays BUSY with the count one higher, saturating. That the engine then holds the rejected candidate is the
model's choice (log 11, DESIGN CHOICE). -/
def Obligations.PrimegenStaysBusyOnAnEvenCandidate : Prop :=
  ∀ (s : State) (rd : WReg) (c : Command) (r : Nat) (rest : List Nat), s.phase = .busy c →
    3 ≤ s.arg0.toNat → s.arg0.toNat ≤ s.cfg.nbits → s.port.queue = r :: rest → r < 2 ^ s.arg0.toNat →
    r % 2 = 0 →
    ∃ t, exec (.primegen rd) s = .next t ∧ WritesOnlyWide [] s t ∧ t.status = s.status ∧ t.res0 = s.res0 ∧
      t.port.queue = rest ∧
      ∃ c', t.phase = .busy c' ∧ c'.word = c.word ∧ c'.attempts = min (c.attempts + 1) 0xFFFFFFFF ∧
        c'.candidate = some (r ||| 2 ^ (s.arg0.toNat - 1))

/-- R200, R201, R203: whatever the draws, a PRIMEGEN that completes without error leaves in rd a number of exactly ARG0 bits,
and leaves every other register; one that stays BUSY leaves every register and STATUS. An attempt with an odd candidate of 5
or more and a witness in [2, c-2] for each of its max(ARG1 - 1, 0) rounds completes with it exactly when every witness
passes, prime or not (R190), and else stays BUSY with the count one higher. -/
def Obligations.PrimegenResultHasExactlyItsBits : Prop :=
  (∀ (s t : State) (rd : WReg) (c : Command), s.phase = .busy c → s.status.err = false →
      exec (.primegen rd) s = .next t →
      (t.phase = .idle → t.status.err = false →
        Nat.size (t.readW rd) = s.arg0.toNat ∧ WritesOnlyWide [rd] s t ∧ t.status.flag = false) ∧
        (t.phase ≠ .idle → WritesOnlyWide [] s t ∧ t.status = s.status ∧ t.res0 = s.res0)) ∧
    ∀ (s : State) (rd : WReg) (c : Command) (r x : Nat) (witnesses rest : List Nat), s.phase = .busy c →
      2 ≤ s.arg0.toNat → s.arg0.toNat ≤ s.cfg.nbits → s.port.queue = r :: (witnesses ++ rest) →
      r < 2 ^ s.arg0.toNat → x = r ||| 2 ^ (s.arg0.toNat - 1) → 5 ≤ x → x % 2 = 1 →
      witnesses.length = s.arg1.toNat - 1 → (∀ a ∈ witnesses, 2 ≤ a ∧ a ≤ x - 2) →
      ((∀ a ∈ witnesses, PassesRound x a) →
        ∃ t, exec (.primegen rd) s = .next t ∧ CompletedWith false (min (c.attempts + 1) 0xFFFFFFFF) t ∧
          t.readW rd = x ∧ WritesOnlyWide [rd] s t ∧ t.port.queue = rest) ∧
        ((∃ a ∈ witnesses, ¬PassesRound x a) →
          ∃ t c', exec (.primegen rd) s = .next t ∧ t.phase = .busy c' ∧ c'.word = c.word ∧
            c'.attempts = min (c.attempts + 1) 0xFFFFFFFF ∧ WritesOnlyWide [] s t ∧ t.status = s.status ∧
            t.res0 = s.res0)

/-- R202, R266: there is a good state and a port from which a running PRIMEGEN never completes: after every number of steps
it has made that many attempts and is still BUSY. That every step is an attempt is the engine's turn with nothing pending
(log 2, DESIGN CHOICE). -/
def Obligations.PrimegenMayNeverComplete : Prop :=
  ∃ (s : State) (rd : WReg), s.Inv ∧ s.phase = .busy { word := encode (.primegen rd), attempts := 0, candidate := none } ∧
    ∀ k, ∃ t c, core.run k s = .next t ∧ t.phase = .busy c ∧ c.attempts = min k 0xFFFFFFFF

/-- R52, R266: while the port supplies nothing, MRTEST of an odd candidate of 5 or more with a round to run, and PRIMEGEN with
a legal ARG0, hold in BUSY: the engine's step changes nothing (log 5, DEDUCED; with nothing pending the step is the engine's turn, log 2,
DESIGN CHOICE). -/
def Obligations.SilentPortHoldsTheEngine : Prop :=
  ∀ (s : State) (c : Command), s.phase = .busy c → s.pending = [] → s.port.queue = [] →
    s.port.tail = .silent →
    (∀ ra, decode c.word = .instr (.mrtest ra) → 5 ≤ s.readW ra → s.readW ra % 2 = 1 → 2 ≤ s.arg1.toNat →
      step s = .next s) ∧
      ∀ rd, decode c.word = .instr (.primegen rd) → 2 ≤ s.arg0.toNat → s.arg0.toNat ≤ s.cfg.nbits →
        step s = .next s

/-! ### RSA block cipher transform (46_block_cipher.md) -/

/-- R210, R211: BLKENC of a legal chunk writes the marked block, read big-endian, to the power x[rb] modulo N; BUF stays. -/
def Obligations.BlkencEncryptsTheMarkedChunk : Prop :=
  ∀ (s : State) (rd rb : WReg), s.status.modv = true → 2 ≤ s.n → 2 ≤ s.blksz.toNat → 1 ≤ s.arg0.toNat →
    s.arg0.toNat ≤ s.blksz.toNat - 1 →
    ∃ t, exec (.blkenc rd rb) s = .next t ∧ CompletedWith false 0 t ∧
      t.readW rd =
        (0xFF * 256 ^ s.arg0.toNat +
            ∑ i ∈ Finset.range s.arg0.toNat, (s.readBuf i).toNat * 256 ^ (s.arg0.toNat - 1 - i)) ^
          s.readW rb % s.n ∧
      WritesOnlyWide [rd] s t ∧ t.port = s.port

/-- R200, R211, R234: BLKENC's errors and their order: NO_MODULUS, then KEY_TOO_SMALL, then BAD_ARG; and PRIMEGEN's BAD_ARG, for
ARG0 below 2 or above NBITS. -/
def Obligations.BlkencAndPrimegenReportTheirErrors : Prop :=
  ∀ (s : State) (rd rb : WReg),
    (s.status.modv = false → ∃ t, exec (.blkenc rd rb) s = .next t ∧ FailedWith .noModulus s t) ∧
      (s.status.modv = true → s.blksz.toNat < 2 →
        ∃ t, exec (.blkenc rd rb) s = .next t ∧ FailedWith .keyTooSmall s t) ∧
      (s.status.modv = true → 2 ≤ s.blksz.toNat → s.arg0.toNat < 1 ∨ s.blksz.toNat - 1 < s.arg0.toNat →
        ∃ t, exec (.blkenc rd rb) s = .next t ∧ FailedWith .badArg s t) ∧
      (s.arg0.toNat < 2 ∨ s.cfg.nbits < s.arg0.toNat →
        ∃ t, exec (.primegen rd) s = .next t ∧ FailedWith .badArg s t)

/-- R213: for every legal BLKENC the block integer lies between 256^Lc and 256^(Lc+1), and so below N; its minimal
big-endian bytes are Lc + 1 in number and the first is 0xFF. -/
def Obligations.BlockIntegerIsBelowTheModulus : Prop :=
  ∀ s : State, s.Inv → s.status.modv = true → 2 ≤ s.blksz.toNat → 1 ≤ s.arg0.toNat →
    s.arg0.toNat ≤ s.blksz.toNat - 1 →
    256 ^ s.arg0.toNat ≤ s.blockInt s.arg0.toNat ∧ s.blockInt s.arg0.toNat < 256 ^ (s.arg0.toNat + 1) ∧
      256 ^ (s.arg0.toNat + 1) ≤ 256 ^ s.blksz.toNat ∧ 256 ^ s.blksz.toNat ≤ 2 ^ (Nat.size s.n - 1) ∧
      2 ^ (Nat.size s.n - 1) ≤ s.n ∧ (bytesBE (s.blockInt s.arg0.toNat)).length = s.arg0.toNat + 1 ∧
      (bytesBE (s.blockInt s.arg0.toNat)).head? = some 0xFF#8

/-- R212: BLKDEC writes c ^ d mod N to rd, the exported bytes but the first to BUF, zero-filled, their number to RES0, and FLAG
says whether the dropped byte was 0xFF. No byte past BUF's end changes. -/
def Obligations.BlkdecWritesThePayload : Prop :=
  ∀ (s : State) (rd ra rb : WReg), s.cfg.Legal → s.n < radix s.cfg → Memory.wf s.buf = true →
    s.status.modv = true → 2 ≤ s.n →
    ∃ t m ds f, exec (.blkdec rd ra rb) s = .next t ∧ m = s.readW ra ^ s.readW rb % s.n ∧
      ds = digitsBE m ∧ t.readW rd = m ∧ CompletedWith f (ds.length - 1) t ∧
      (f = true ↔ ds.head? = some 0xFF) ∧
      (∀ j, j < numBytes s.cfg → (t.readBuf j).toNat = ds.getD (j + 1) 0) ∧
      (∀ j, numBytes s.cfg ≤ j → t.readBuf j = s.readBuf j) ∧ SameWideExcept [rd] s t ∧ SameModulus s t ∧
      SameHostSide s t ∧ t.port = s.port

/-- R214: for an RSA key, BLKENC of a chunk and BLKDEC of its result, each issued to the idle block, give the chunk back in
BUF, its length in RES0 and FLAG = 1. BLKENC's destination is not the register of d: with rd = rc it overwrites the
exponent that BLKDEC still needs, and R214 says nothing. -/
def Obligations.BlockRoundTrip : Prop :=
  ∀ (s : State) (rc re rp rd : WReg), s.Inv → s.phase = .idle → s.resetHeld = false → s.status.modv = true →
    RsaKey s.n (s.readW re) (s.readW rd) → 1 ≤ s.arg0.toNat → s.arg0.toNat ≤ s.blksz.toNat - 1 → rd ≠ rc →
    ∃ s1 s2, Issued (.blkenc rc re) s s1 ∧ Issued (.blkdec rp rc rd) s1 s2 ∧
      (∀ j, j < s.arg0.toNat → s2.readBuf j = s.readBuf j) ∧ s2.res0 = s.arg0 ∧ s2.status.flag = true

/-- R220, R221, R222: for an RSA key with a signed identity that fits the block and BLKSZ of 2 or more, the driver's
decryption of its encryption of any byte string gives the byte string back, from every idle good state. The driver's
registers, padding and waits are the model's choice (log 13, DESIGN CHOICE); key numbers too wide to load (log 18), commands
that end as errors (log 19) and malformed lines (log 20) do not occur under these hypotheses. -/
def Obligations.StreamRoundTrip : Prop :=
  ∀ (s s' : State) (n e d sig ident : Nat) (bytes : List Byte), s.Inv → s'.Inv → s.phase = .idle →
    s'.phase = .idle → s.resetHeld = false → s'.resetHeld = false → s'.cfg = s.cfg → RsaKey n e d →
    n < radix s.cfg → e < radix s.cfg → d < radix s.cfg → sig < radix s.cfg → 17 ≤ Nat.size n →
    sig ^ e % n = ident →
    ∃ lines, encryptStream s { n := n, e := e, signature := sig, identity := ident } bytes = .ok lines ∧
      decryptStream s' { n := n, d := d } (lines.map some) = .ok bytes
end

