-- ==== Sys2Proof/Laws/Arith.lean ====
section
/-! SUPPORT. The specification of each number-theoretic function of Machine/Arith.lean: what its loop computes, and that
the bound on its turns is never reached early. -/

namespace Sys2Proof.Machine

/-! ### Bit length -/

theorem bitlen_le_iff (v b : Nat) : bitlen v ≤ b ↔ v < 2 ^ b := by
  unfold bitlen
  by_cases h : v = 0
  · simp [h]
  · rw [if_neg h, Nat.succ_le_iff, Nat.log2_lt h]

theorem bitlen_eq_size (v : Nat) : bitlen v = Nat.size v :=
  Nat.le_antisymm ((bitlen_le_iff _ _).2 (Nat.lt_size_self v)) (Nat.size_le.2 ((bitlen_le_iff _ _).1 le_rfl))

theorem lt_two_pow_bitlen (v : Nat) : v < 2 ^ bitlen v := (bitlen_le_iff v _).1 le_rfl

theorem bitlen_pos {v : Nat} (h : v ≠ 0) : 0 < bitlen v := by
  unfold bitlen; rw [if_neg h]; omega

theorem two_pow_bitlen_le {v : Nat} (h : v ≠ 0) : 2 ^ (bitlen v - 1) ≤ v := by
  by_contra hc
  have h1 := (bitlen_le_iff v (bitlen v - 1)).2 (by omega)
  have := bitlen_pos h
  omega

/-! ### Euclid -/

theorem euclidLoop_eq_gcd (k a b : Nat) (h : b ≤ k) : euclidLoop k a b = Nat.gcd a b := by
  induction k generalizing a b with
  | zero => simp [euclidLoop, Nat.le_zero.1 h]
  | succ k ih =>
    unfold euclidLoop
    split
    · next hb => simp [hb]
    · next hb =>
      have := Nat.mod_lt a (Nat.pos_of_ne_zero hb)
      rw [ih b (a % b) (by omega), Nat.gcd_comm a b, Nat.gcd_rec b a, Nat.gcd_comm]

/-- The Euclidean loop computes the greatest common divisor. -/
theorem euclid_eq_gcd (a b : Nat) : euclid a b = Nat.gcd a b := euclidLoop_eq_gcd b a b le_rfl

/-! ### Modular inverse -/

theorem bezoutLoop_spec (a n k : Nat) (r r' : Nat) (t t' : Int) (hk : r' ≤ k)
    (h : (a * t : Int) ≡ r [ZMOD n]) (h' : (a * t' : Int) ≡ r' [ZMOD n]) :
    (a * bezoutLoop k r r' t t' : Int) ≡ Nat.gcd r r' [ZMOD n] := by
  induction k generalizing r r' t t' with
  | zero => simpa [bezoutLoop, Nat.le_zero.1 hk] using h
  | succ k ih =>
    unfold bezoutLoop
    split
    · next h0 => simpa [h0] using h
    · next h0 =>
      have hlt := Nat.mod_lt r (Nat.pos_of_ne_zero h0)
      have key : (a * (t - (r / r' : Nat) * t') : Int) ≡ (r % r' : Nat) [ZMOD n] := by
        have e : (a * (t - (r / r' : Nat) * t') : Int) = a * t - (r / r' : Nat) * (a * t') := by ring
        have e2 : ((r % r' : Nat) : Int) = r - (r / r' : Nat) * r' := by
          push_cast; rw [Int.emod_def]; ring
        rw [e, e2]
        exact h.sub (Int.ModEq.mul_left _ h')
      have := ih r' (r % r') t' (t - (r / r' : Nat) * t') (by omega) h' key
      rwa [Nat.gcd_comm r' (r % r'), ← Nat.gcd_rec r' r, Nat.gcd_comm r' r] at this

theorem modInverse_lt (a n : Nat) (h : 0 < n) : modInverse a n < n := by
  unfold modInverse
  have h0 := Int.emod_nonneg (bezoutLoop (a % n) n (a % n) 0 1) (by omega : (n : Int) ≠ 0)
  have h1 := Int.emod_lt_of_pos (bezoutLoop (a % n) n (a % n) 0 1) (by omega : (0 : Int) < n)
  omega

/-- The inverse of a number coprime to the modulus is one. -/
theorem mul_modInverse (a n : Nat) (h : 0 < n) (hc : Nat.Coprime a n) : a * modInverse a n % n = 1 % n := by
  have h0 := Int.emod_nonneg (bezoutLoop (a % n) n (a % n) 0 1) (by omega : (n : Int) ≠ 0)
  have hs := bezoutLoop_spec a n (a % n) n (a % n) 0 1 le_rfl
    (by simp [Int.ModEq]) (by simp [Int.ModEq])
  have hg : Nat.gcd n (a % n) = 1 := by rw [Nat.gcd_comm, ← Nat.gcd_rec, Nat.gcd_comm]; exact hc
  rw [hg] at hs
  have e : ((a * modInverse a n : Nat) : Int) ≡ ((1 : Nat) : Int) [ZMOD n] := by
    have : ((modInverse a n : Nat) : Int) = bezoutLoop (a % n) n (a % n) 0 1 % n := by
      unfold modInverse; rw [Int.toNat_of_nonneg h0]
    push_cast [this]
    exact (Int.ModEq.mul_left _ (Int.mod_modEq _ _)).trans (by simpa using hs)
  exact (Int.natCast_modEq_iff.1 e)

theorem radix_coprime_odd (c : Config) (n : Nat) (h : n % 2 = 1) : Nat.Coprime (radix c) n :=
  Nat.Coprime.pow_left _ ((Nat.coprime_two_left).2 (Nat.odd_iff.2 h))

/-- Rinv undoes R modulo an odd N (R160). -/
theorem radix_mul_montRinv (c : Config) (n : Nat) (h : n % 2 = 1) : radix c * montRinv c n % n = 1 % n :=
  mul_modInverse _ _ (by omega) (radix_coprime_odd c n h)

/-! ### Modular exponentiation -/

theorem powLoop_eq (n k base e result : Nat) (h : e < 2 ^ k) (hr : result < n) :
    powLoop n k base e result = result * base ^ e % n := by
  induction k generalizing base e result with
  | zero => simp at h; simp [powLoop, h, Nat.mod_eq_of_lt hr]
  | succ k ih =>
    unfold powLoop
    split
    · next h0 => simp [h0, Nat.mod_eq_of_lt hr]
    · next h0 =>
      have hk : e / 2 < 2 ^ k := by rw [Nat.pow_succ] at h; omega
      have hn : 0 < n := by omega
      have hpow : ∀ x : Nat, x * (base * base % n) ^ (e / 2) % n = x * base ^ (2 * (e / 2)) % n := by
        intro x
        rw [pow_mul, pow_two]
        exact Nat.ModEq.mul_left x ((Nat.mod_modEq _ _).pow _)
      split
      · next h1 =>
        rw [ih _ _ _ hk (Nat.mod_lt _ hn), hpow]
        have he : e = 2 * (e / 2) + 1 := by omega
        have : result * base % n * base ^ (2 * (e / 2)) ≡ result * base * base ^ (2 * (e / 2)) [MOD n] :=
          (Nat.mod_modEq _ _).mul_right _
        rw [this]
        conv_rhs => rw [he, pow_succ]
        ring_nf
      · next h1 =>
        rw [ih _ _ _ hk hr, hpow]
        have he : e = 2 * (e / 2) := by omega
        conv_rhs => rw [he]

/-- Square-and-multiply computes the power, for a modulus of 2 or more (R180). -/
theorem powMod_eq (base e n : Nat) (h : 2 ≤ n) : powMod base e n = base ^ e % n := by
  unfold powMod
  rw [powLoop_eq n _ _ _ _ (lt_two_pow_bitlen e) (by omega), one_mul, ← Nat.pow_mod]

theorem powMod_lt (base e n : Nat) (h : 2 ≤ n) : powMod base e n < n := by
  rw [powMod_eq _ _ _ h]; exact Nat.mod_lt _ (by omega)

/-! ### Miller-Rabin -/

theorem halvings_spec (k r s : Nat) (hr : 0 < r) (h : r < 2 ^ k) :
    2 ^ (halvings k r s).2 * (halvings k r s).1 = 2 ^ s * r ∧ (halvings k r s).1 % 2 = 1 := by
  induction k generalizing r s with
  | zero => simp at h; omega
  | succ k ih =>
    unfold halvings
    split
    · next h0 =>
      have := ih (r / 2) (s + 1) (by omega) (by rw [Nat.pow_succ] at h; omega)
      refine ⟨?_, this.2⟩
      rw [this.1, pow_succ]
      have : r = 2 * (r / 2) := by omega
      conv_rhs => rw [this]
      ring
    · exact ⟨rfl, by simp only; omega⟩

/-- n - 1 = 2^s * r with r odd (R191). -/
theorem oddPart_spec (n : Nat) (h : 2 ≤ n) :
    2 ^ (oddPart n).2 * (oddPart n).1 = n - 1 ∧ (oddPart n).1 % 2 = 1 := by
  have := halvings_spec (bitlen (n - 1)) (n - 1) 0 (by omega) (lt_two_pow_bitlen _)
  simpa [oddPart] using this

/-- The decomposition of R191 is unique. -/
theorem oddPart_unique (r r' k k' : Nat) (h : r % 2 = 1) (h' : r' % 2 = 1) (e : 2 ^ k * r = 2 ^ k' * r') :
    r = r' ∧ k = k' := by
  have hk : k = k' := by
    rcases Nat.lt_trichotomy k k' with hlt | heq | hgt
    · obtain ⟨d, rfl⟩ := Nat.exists_eq_add_of_lt hlt
      rw [show k + d + 1 = k + (d + 1) from rfl, pow_add, mul_assoc] at e
      have := Nat.eq_of_mul_eq_mul_left (Nat.two_pow_pos k) e
      rw [show 2 ^ (d + 1) * r' = 2 * (2 ^ d * r') from by rw [pow_succ]; ring] at this
      omega
    · exact heq
    · obtain ⟨d, rfl⟩ := Nat.exists_eq_add_of_lt hgt
      rw [show k' + d + 1 = k' + (d + 1) from rfl, pow_add, mul_assoc] at e
      have := Nat.eq_of_mul_eq_mul_left (Nat.two_pow_pos k') e
      rw [show 2 ^ (d + 1) * r = 2 * (2 ^ d * r) from by rw [pow_succ]; ring] at this
      omega
  subst hk
  exact ⟨Nat.eq_of_mul_eq_mul_left (Nat.two_pow_pos k) e, rfl⟩

theorem pow_squared_mod (y n : Nat) (j : Nat) : (y * y % n) ^ 2 ^ j % n = y ^ 2 ^ (j + 1) % n := by
  rw [← Nat.pow_mod, show 2 ^ (j + 1) = 2 * 2 ^ j from by rw [pow_succ]; ring, pow_mul, pow_two]

/-- The squarings succeed exactly when n - 1 is met at y or within the next k squarings. -/
theorem squarings_iff (n k y : Nat) (hn : 3 ≤ n) (hy : y < n) :
    squarings n k y = true ↔ ∃ j, j ≤ k ∧ y ^ 2 ^ j % n = n - 1 := by
  induction k generalizing y with
  | zero =>
    simp only [squarings, decide_eq_true_eq, Nat.le_zero]
    constructor
    · intro h; exact ⟨0, rfl, by simp [h]⟩
    · rintro ⟨j, rfl, h⟩; simpa [Nat.mod_eq_of_lt hy] using h
  | succ k ih =>
    unfold squarings
    have hz : y * y % n < n := Nat.mod_lt _ (by omega)
    split
    · next h1 => simp only [true_iff]; exact ⟨0, by omega, by simp [h1]⟩
    · next h1 =>
      split
      · next h2 =>
        simp only [Bool.false_eq_true, false_iff]
        rintro ⟨j, hj, h⟩
        cases j with
        | zero => simp [Nat.mod_eq_of_lt hy] at h; exact h1 h
        | succ j =>
          rw [← pow_squared_mod, h2, one_pow, Nat.mod_eq_of_lt (by omega)] at h
          omega
      · next h2 =>
        rw [ih _ hz]
        constructor
        · rintro ⟨j, hj, h⟩; exact ⟨j + 1, by omega, by rw [← pow_squared_mod]; exact h⟩
        · rintro ⟨j, hj, h⟩
          cases j with
          | zero => simp [Nat.mod_eq_of_lt hy] at h; exact absurd h h1
          | succ j => exact ⟨j, by omega, by rw [pow_squared_mod]; exact h⟩

/-- A round of the engine is a round of the test as R190 and R191 describe it. -/
theorem witnessRound_iff (n a : Nat) (hn : 3 ≤ n) (hodd : n % 2 = 1) :
    witnessRound n a = true ↔ PassesRound n a := by
  obtain ⟨h1, h2⟩ := oddPart_spec n (by omega)
  have hs : 0 < (oddPart n).2 := by
    rcases Nat.eq_zero_or_pos (oddPart n).2 with h0 | h0
    · rw [h0, pow_zero, one_mul] at h1; omega
    · exact h0
  have hp := powMod_eq a (oddPart n).1 n (by omega)
  have hlt := powMod_lt a (oddPart n).1 n (by omega)
  unfold witnessRound PassesRound
  simp only [Bool.or_eq_true, decide_eq_true_eq, squarings_iff n _ _ hn hlt]
  have hpow : ∀ j, powMod a (oddPart n).1 n ^ 2 ^ j % n = a ^ (2 ^ j * (oddPart n).1) % n := by
    intro j; rw [hp, ← Nat.pow_mod, ← pow_mul, mul_comm]
  simp only [hpow]
  constructor
  · intro h
    refine ⟨(oddPart n).1, (oddPart n).2, h2, h1.symm, ?_⟩
    rcases h with (h | h) | ⟨j, hj, h⟩
    · left; rw [← hp]; exact h
    · right; exact ⟨0, hs, by simpa [← hp] using h⟩
    · right; exact ⟨j, by omega, h⟩
  · rintro ⟨r, k, hr, he, h⟩
    obtain ⟨rfl, rfl⟩ := oddPart_unique _ _ _ _ hr h2 (he.symm.trans h1.symm)
    rcases h with h | ⟨j, hj, h⟩
    · left; left; rw [hp]; exact h
    · right; exact ⟨j, by omega, h⟩

theorem sq_eq_one_mod_prime (p x : Nat) (hp : p.Prime) (hx : x < p) (h : x * x % p = 1) : x = 1 ∨ x = p - 1 := by
  have : Fact p.Prime := ⟨hp⟩
  have h1 : ((x : ZMod p)) * x = 1 := by
    have : ((x * x : Nat) : ZMod p) = ((1 : Nat) : ZMod p) := by
      rw [ZMod.natCast_eq_natCast_iff]
      unfold Nat.ModEq
      rw [h, Nat.mod_eq_of_lt hp.one_lt]
    simpa using this
  rcases mul_self_eq_one_iff.1 h1 with h2 | h2
  · left
    have : ((x : Nat) : ZMod p) = ((1 : Nat) : ZMod p) := by simpa using h2
    rw [ZMod.natCast_eq_natCast_iff] at this
    unfold Nat.ModEq at this
    rwa [Nat.mod_eq_of_lt hx, Nat.mod_eq_of_lt hp.one_lt] at this
  · right
    have : ((x + 1 : Nat) : ZMod p) = ((0 : Nat) : ZMod p) := by push_cast; rw [h2]; ring
    rw [ZMod.natCast_eq_natCast_iff] at this
    have hd := (Nat.modEq_zero_iff_dvd).1 this
    have := Nat.le_of_dvd (by omega) hd
    omega

/-- A prime passes every round (the fact R194 takes from general knowledge). -/
theorem prime_passesRound (p a : Nat) (hp : p.Prime) (h3 : 3 ≤ p) (ha : 0 < a) (hap : a < p) : PassesRound p a := by
  obtain ⟨h1, h2⟩ := oddPart_spec p (by omega)
  refine ⟨(oddPart p).1, (oddPart p).2, h2, h1.symm, ?_⟩
  have hf : a ^ (p - 1) % p = 1 := by
    have : Fact p.Prime := ⟨hp⟩
    have hne : ((a : Nat) : ZMod p) ≠ 0 := by
      rw [Ne, ZMod.natCast_eq_zero_iff]
      exact fun hd => absurd (Nat.le_of_dvd ha hd) (by omega)
    have := ZMod.pow_card_sub_one_eq_one hne
    have h : ((a ^ (p - 1) : Nat) : ZMod p) = ((1 : Nat) : ZMod p) := by simpa using this
    rw [ZMod.natCast_eq_natCast_iff] at h
    unfold Nat.ModEq at h
    rwa [Nat.mod_eq_of_lt hp.one_lt] at h
  have down : ∀ k, a ^ (2 ^ k * (oddPart p).1) % p = 1 →
      a ^ (oddPart p).1 % p = 1 ∨ ∃ j, j < k ∧ a ^ (2 ^ j * (oddPart p).1) % p = p - 1 := by
    intro k
    induction k with
    | zero => intro h; left; simpa using h
    | succ k ih =>
      intro h
      have hsq : a ^ (2 ^ k * (oddPart p).1) % p * (a ^ (2 ^ k * (oddPart p).1) % p) % p = 1 := by
        rw [← Nat.mul_mod, ← pow_add, show 2 ^ k * (oddPart p).1 + 2 ^ k * (oddPart p).1 =
          2 ^ (k + 1) * (oddPart p).1 from by rw [pow_succ]; ring]
        exact h
      rcases sq_eq_one_mod_prime p _ hp (Nat.mod_lt _ (by omega)) hsq with h1 | h1
      · rcases ih h1 with h2 | ⟨j, hj, h2⟩
        · left; exact h2
        · right; exact ⟨j, by omega, h2⟩
      · right; exact ⟨k, by omega, h1⟩
  exact down _ (by rw [h1]; exact hf)

/-! ### Draws -/

theorem inRange_mem (lo hi v : Nat) (h : lo ≤ hi) : lo ≤ inRange lo hi v ∧ inRange lo hi v ≤ hi := by
  unfold inRange
  split
  · assumption
  · have := Nat.mod_lt v (by omega : 0 < hi - lo + 1)
    omega

theorem inRange_of_mem (lo hi v : Nat) (h : lo ≤ v) (h' : v ≤ hi) : inRange lo hi v = v := by
  simp [inRange, h, h']

theorem take_cons (p : Port) (v : Nat) (q : List Nat) (h : p.queue = v :: q) :
    p.take = some (v, { p with queue := q }) := by
  unfold Port.take; rw [h]

/-- A port that can supply k + 1 answers supplies one, and can supply k more. -/
theorem take_supplies (p : Port) (k : Nat) (h : PortSupplies p (k + 1)) :
    ∃ v q, p.take = some (v, q) ∧ PortSupplies q k := by
  unfold Port.take
  rcases hq : p.queue with _ | ⟨v, q⟩
  · have ht : p.tail ≠ .silent := by
      rcases h with h | h
      · simp [hq] at h
      · exact h
    rcases ht' : p.tail with _ | v | _
    · exact absurd ht' ht
    · exact ⟨v, p, rfl, Or.inr ht⟩
    · exact ⟨_, _, rfl, Or.inr (by simp)⟩
  · refine ⟨v, { p with queue := q }, rfl, ?_⟩
    rcases h with h | h
    · left; simp [hq] at h; exact h
    · right; exact h

/-- A supplied sequence of rounds ends; it ends in an accept unless a witness rejects. -/
theorem witnessRounds_supplied (n k : Nat) (p : Port) (h : PortSupplies p k) :
    ∃ f q, witnessRounds n k p = some (f, q) := by
  induction k generalizing p with
  | zero => exact ⟨true, p, rfl⟩
  | succ k ih =>
    obtain ⟨v, q, hv, hq⟩ := take_supplies p k h
    unfold witnessRounds Port.drawRange
    rw [hv]
    simp only
    split
    · exact ih q hq
    · exact ⟨false, q, rfl⟩

/-- A prime is never rejected, whatever the port answers. -/
theorem witnessRounds_prime (n k : Nat) (p q : Port) (f : Bool) (hn : n.Prime) (h5 : 5 ≤ n) (hodd : n % 2 = 1)
    (h : witnessRounds n k p = some (f, q)) : f = true := by
  induction k generalizing p with
  | zero => simp [witnessRounds] at h; exact h.1
  | succ k ih =>
    unfold witnessRounds Port.drawRange at h
    rcases hv : p.take with _ | ⟨v, p'⟩
    · simp [hv] at h
    · have hm := inRange_mem 2 (n - 2) v (by omega)
      have hw : witnessRound n (inRange 2 (n - 2) v) = true :=
        (witnessRound_iff n _ (by omega) hodd).2 (prime_passesRound n _ hn (by omega) (by omega) (by omega))
      simp only [hv, hw, if_true] at h
      exact ih p' h

/-- Rounds whose witnesses stand queued. -/
theorem witnessRounds_queued (n : Nat) (ws rest : List Nat) (p : Port) (hn : 5 ≤ n) (hodd : n % 2 = 1)
    (hq : p.queue = ws ++ rest) (hr : ∀ a ∈ ws, 2 ≤ a ∧ a ≤ n - 2) :
    ∃ f q, witnessRounds n ws.length p = some (f, q) ∧ (f = true ↔ ∀ a ∈ ws, PassesRound n a) := by
  induction ws generalizing p with
  | nil => exact ⟨true, p, rfl, by simp⟩
  | cons a ws ih =>
    have hin := hr a (by simp)
    rw [List.length_cons]
    unfold witnessRounds Port.drawRange
    rw [take_cons p a (ws ++ rest) (by simpa using hq)]
    simp only [inRange_of_mem 2 (n - 2) a hin.1 hin.2]
    have hi := witnessRound_iff n a (by omega) hodd
    split
    · next hw =>
      obtain ⟨f, q, h1, h2⟩ := ih { p with queue := ws ++ rest } rfl fun b hb => hr b (by simp [hb])
      refine ⟨f, q, h1, h2.trans ?_⟩
      simp [hi.1 hw]
    · next hw =>
      refine ⟨false, _, rfl, ?_⟩
      simp only [Bool.false_eq_true, false_iff]
      exact fun hall => hw (hi.2 (hall a (by simp)))

/-- Passing rounds take exactly their number of queued answers. -/
theorem witnessRounds_takes (n k : Nat) (p q : Port) (hk : k ≤ p.queue.length)
    (h : witnessRounds n k p = some (true, q)) : q.queue = p.queue.drop k := by
  induction k generalizing p with
  | zero => simp [witnessRounds] at h; simp [h]
  | succ k ih =>
    rcases hq : p.queue with _ | ⟨v, l⟩
    · simp [hq] at hk
    · unfold witnessRounds Port.drawRange at h
      rw [take_cons p v l hq] at h
      simp only at h
      split at h
      · rw [ih _ (by simp [hq] at hk; exact hk) h]; simp
      · simp at h

/-! ### Prime candidates -/

/-- A candidate made from a pattern of `bits` bits has exactly `bits` bits (R201). -/
theorem candidateOf_bounds (bits r : Nat) (hb : 0 < bits) (hr : r < 2 ^ bits) :
    2 ^ (bits - 1) ≤ candidateOf bits r ∧ candidateOf bits r < 2 ^ bits := by
  unfold candidateOf
  exact ⟨Nat.right_le_or, Nat.or_lt_two_pow hr (Nat.pow_lt_pow_right (by omega) (by omega))⟩

theorem candidateOf_size (bits r : Nat) (hb : 0 < bits) (hr : r < 2 ^ bits) : Nat.size (candidateOf bits r) = bits := by
  obtain ⟨h1, h2⟩ := candidateOf_bounds bits r hb hr
  refine Nat.le_antisymm (Nat.size_le.2 h2) ?_
  have := Nat.lt_size.2 h1
  omega

/-- What an attempt finds: a candidate made from a pattern of `bits` bits, with the answer of its test. -/
theorem primeAttempt_cases (bits iterations : Nat) (p : Port) (a : Attempt)
    (h : primeAttempt bits iterations p = some a) :
    ∃ r q, r < 2 ^ bits ∧ p.drawBits bits = some (r, q) ∧ a.candidate = candidateOf bits r ∧
      millerRabin (candidateOf bits r) iterations q = some (a.accepted, a.port) := by
  unfold primeAttempt at h
  rcases hd : p.drawBits bits with _ | ⟨r, q⟩
  · simp [hd] at h
  · have hr : r < 2 ^ bits := by
      unfold Port.drawBits Port.drawRange at hd
      rcases ht : p.take with _ | ⟨v, p'⟩
      · simp [ht] at hd
      · simp only [ht, Option.some.injEq, Prod.mk.injEq] at hd
        have := inRange_mem 0 (2 ^ bits - 1) v (Nat.zero_le _)
        have := Nat.two_pow_pos bits
        omega
    simp only [hd] at h
    rcases hm : millerRabin (candidateOf bits r) iterations q with _ | ⟨ok, q'⟩
    · simp [hm] at h
    · simp only [hm, Option.some.injEq] at h
      subst h
      exact ⟨r, q, hr, rfl, rfl, hm⟩

/-! ### RSA keys -/

theorem rsaKey_swap {n e d : Nat} (h : RsaKey n e d) : RsaKey n d e := by
  obtain ⟨p, q, hp, hq, hne, hn, he⟩ := h
  exact ⟨p, q, hp, hq, hne, hn, by rw [mul_comm]; exact he⟩

theorem rsaKey_two_le {n e d : Nat} (h : RsaKey n e d) : 2 ≤ n := by
  obtain ⟨p, q, hp, hq, _, rfl, _⟩ := h
  have := Nat.mul_le_mul hp.two_le hq.one_le
  omega

/-- Modulo a prime p, an exponent that is 1 more than a multiple of p - 1 changes nothing. -/
theorem pow_modEq_self (p m k : Nat) (hp : p.Prime) (h1 : 1 ≤ k) (hd : p - 1 ∣ k - 1) : m ^ k ≡ m [MOD p] := by
  have : Fact p.Prime := ⟨hp⟩
  obtain ⟨j, hj⟩ := hd
  rw [← ZMod.natCast_eq_natCast_iff]
  push_cast
  rw [show k = (p - 1) * j + 1 by omega, pow_succ, pow_mul]
  by_cases h0 : (m : ZMod p) = 0
  · simp [h0]
  · rw [ZMod.pow_card_sub_one_eq_one h0]; simp

/-- The two exponents of an RSA key undo each other on numbers below n. -/
theorem rsaKey_pow_pow {n e d : Nat} (m : Nat) (hk : RsaKey n e d) (hm : m < n) : (m ^ d % n) ^ e % n = m := by
  obtain ⟨p, q, hp, hq, hne, rfl, he⟩ := hk
  rw [← Nat.pow_mod, ← pow_mul]
  have hp2 := hp.two_le
  have hq2 := hq.two_le
  have hphi : 2 ≤ (p - 1) * (q - 1) := by
    rcases Nat.lt_or_ge 2 p with h | h
    · exact le_trans (show 2 ≤ (p - 1) * 1 by omega) (Nat.mul_le_mul_left _ (by omega))
    · exact le_trans (show 2 ≤ 1 * (q - 1) by omega) (Nat.mul_le_mul_right _ (by omega))
  rw [Nat.mod_eq_of_lt (show 1 < (p - 1) * (q - 1) by omega)] at he
  have h1 : 1 ≤ d * e := by
    by_contra h
    rw [show d * e = 0 by omega] at he
    simp at he
  have hdvd : (p - 1) * (q - 1) ∣ d * e - 1 :=
    (Nat.modEq_iff_dvd' h1).1 (by unfold Nat.ModEq; rw [he, Nat.mod_eq_of_lt]; omega)
  have hmod := (Nat.modEq_and_modEq_iff_modEq_mul ((Nat.coprime_primes hp hq).2 hne)).1
    ⟨pow_modEq_self p m _ hp h1 (Dvd.dvd.trans (Dvd.intro _ rfl) hdvd),
      pow_modEq_self q m _ hq h1 (Dvd.dvd.trans (Dvd.intro_left _ rfl) hdvd)⟩
  exact (show m ^ (d * e) % (p * q) = m % (p * q) from hmod).trans (Nat.mod_eq_of_lt hm)

end Sys2Proof.Machine
end

