-- ==== Sys2Proof/Laws/Memory.lean ====
section
/-! SUPPORT. The byte memory: read after write, that every operation keeps the canonical form, and that canonical
memories which read alike are equal data. -/

namespace Sys2Proof.Machine.Memory

theorem read_cons (a : Nat) (v : Byte) (m : Memory) (j : Nat) (h : Memory.read m a = unlistedByte) :
    Memory.read (Memory.cons a v m) j = if j = a then v else Memory.read m j := by
  unfold Memory.cons
  split
  · next hv => by_cases hj : j = a <;> simp_all
  · by_cases hj : j = a
    · simp [Memory.read, hj]
    · simp [Memory.read, hj, Ne.symm hj]

theorem wfFrom_mono {lo lo' : Nat} (h : lo' ≤ lo) (m : Memory) (hm : Memory.wfFrom lo m = true) :
    Memory.wfFrom lo' m = true := by
  cases m with
  | nil => rfl
  | cons e m =>
    simp only [Memory.wfFrom, Bool.and_eq_true, decide_eq_true_eq] at *
    exact ⟨⟨by omega, hm.1.2⟩, hm.2⟩

/-- Below its lower bound a canonical memory lists nothing. -/
theorem read_below {lo : Nat} (m : Memory) (hm : Memory.wfFrom lo m = true) (j : Nat) (hj : j < lo) :
    Memory.read m j = unlistedByte := by
  induction m generalizing lo with
  | nil => rfl
  | cons e m ih =>
    simp only [Memory.wfFrom, Bool.and_eq_true, decide_eq_true_eq] at hm
    have hne : e.1 ≠ j := by omega
    simp only [Memory.read, hne, if_false]
    exact ih hm.2 (by omega)

theorem wfFrom_cons {lo a : Nat} (hlo : lo ≤ a) (v : Byte) (m : Memory) (hm : Memory.wfFrom (a + 1) m = true) :
    Memory.wfFrom lo (Memory.cons a v m) = true := by
  unfold Memory.cons
  split
  · exact wfFrom_mono (by omega) m hm
  · next hv => simp [Memory.wfFrom, hlo, hv, hm]

/-- A write keeps the canonical form, from every lower bound up to the index written. -/
theorem wfFrom_write {lo : Nat} (m : Memory) (hm : Memory.wfFrom lo m = true) (a : Nat) (v : Byte) (ha : lo ≤ a) :
    Memory.wfFrom lo (Memory.write m a v) = true := by
  induction m generalizing lo with
  | nil => exact wfFrom_cons ha v [] rfl
  | cons e m ih =>
    obtain ⟨b, u⟩ := e
    have h := hm
    simp only [Memory.wfFrom, Bool.and_eq_true, decide_eq_true_eq] at h
    unfold Memory.write
    split
    · next hab =>
      refine wfFrom_cons ha v _ ?_
      simp only [Memory.wfFrom, Bool.and_eq_true, decide_eq_true_eq]
      exact ⟨⟨by omega, h.1.2⟩, h.2⟩
    · split
      · next hab => subst hab; exact wfFrom_cons ha v m h.2
      · next h1 h2 =>
        simp only [Memory.wfFrom, Bool.and_eq_true, decide_eq_true_eq]
        exact ⟨h.1, ih h.2 (by omega)⟩

theorem wf_write (m : Memory) (hm : Memory.wf m = true) (a : Nat) (v : Byte) : Memory.wf (Memory.write m a v) = true :=
  wfFrom_write m hm a v (Nat.zero_le a)

/-- Read after write, in a canonical memory. -/
theorem read_write_from {lo : Nat} (m : Memory) (hm : Memory.wfFrom lo m = true) (a : Nat) (v : Byte) (j : Nat) :
    Memory.read (Memory.write m a v) j = if j = a then v else Memory.read m j := by
  induction m generalizing lo with
  | nil => exact read_cons a v [] j rfl
  | cons e m ih =>
    obtain ⟨b, u⟩ := e
    have h := hm
    simp only [Memory.wfFrom, Bool.and_eq_true, decide_eq_true_eq] at h
    unfold Memory.write
    split
    · next hab =>
      refine read_cons a v _ j (read_below (lo := b) _ ?_ a hab)
      simp only [Memory.wfFrom, Bool.and_eq_true, decide_eq_true_eq]
      exact ⟨⟨le_refl b, h.1.2⟩, h.2⟩
    · split
      · next hab =>
        subst hab
        rw [read_cons _ v m j (read_below m h.2 _ (by omega))]
        by_cases hj : j = a
        · simp [hj]
        · simp [Memory.read, hj, Ne.symm hj]
      · next h1 h2 =>
        simp only [Memory.read, ih h.2]
        by_cases hb : b = j
        · have : j ≠ a := by omega
          simp [hb, this]
        · simp [hb]

theorem read_write (m : Memory) (hm : Memory.wf m = true) (a : Nat) (v : Byte) (j : Nat) :
    Memory.read (Memory.write m a v) j = if j = a then v else Memory.read m j :=
  read_write_from m hm a v j

theorem wf_fill (m : Memory) (hm : Memory.wf m = true) (a k : Nat) (f : Nat → Byte) :
    Memory.wf (Memory.fill m a k f) = true := by
  induction k with
  | zero => exact hm
  | succ k ih => exact wf_write _ ih _ _

theorem read_fill (m : Memory) (hm : Memory.wf m = true) (a k : Nat) (f : Nat → Byte) (j : Nat) :
    Memory.read (Memory.fill m a k f) j = if a ≤ j ∧ j < a + k then f (j - a) else Memory.read m j := by
  induction k with
  | zero => simp only [Memory.fill]; rw [if_neg (by omega)]
  | succ k ih =>
    rw [Memory.fill, read_write _ (wf_fill m hm a k f), ih]
    by_cases h1 : j = a + k
    · subst h1; simp
    · by_cases h2 : a ≤ j ∧ j < a + k
      · rw [if_neg h1, if_pos h2, if_pos (by omega)]
      · rw [if_neg h1, if_neg h2, if_neg (by omega)]

/-- Canonical memories that read alike are equal. -/
theorem ext_from {lo : Nat} (m m' : Memory) (hm : Memory.wfFrom lo m = true) (hm' : Memory.wfFrom lo m' = true)
    (h : ∀ j, Memory.read m j = Memory.read m' j) : m = m' := by
  induction m generalizing lo m' with
  | nil =>
    cases m' with
    | nil => rfl
    | cons e m' =>
      simp only [Memory.wfFrom, Bool.and_eq_true, decide_eq_true_eq] at hm'
      have := h e.1
      simp [Memory.read] at this
      exact absurd this.symm hm'.1.2
  | cons e m ih =>
    have hw := hm
    simp only [Memory.wfFrom, Bool.and_eq_true, decide_eq_true_eq] at hw
    cases m' with
    | nil =>
      have := h e.1
      simp [Memory.read] at this
      exact absurd this hw.1.2
    | cons e' m' =>
      have hw' := hm'
      simp only [Memory.wfFrom, Bool.and_eq_true, decide_eq_true_eq] at hw'
      obtain ⟨b, u⟩ := e
      obtain ⟨b', u'⟩ := e'
      simp only at hw hw'
      have hb : b = b' := by
        rcases Nat.lt_trichotomy b b' with hlt | heq | hgt
        · have h1 := h b
          have hz : Memory.read m' b = unlistedByte := read_below m' hw'.2 b (by omega)
          simp [Memory.read, Nat.ne_of_gt hlt, hz] at h1
          exact absurd h1 hw.1.2
        · exact heq
        · have h1 := h b'
          have hz : Memory.read m b' = unlistedByte := read_below m hw.2 b' (by omega)
          simp [Memory.read, Nat.ne_of_gt hgt, hz] at h1
          exact absurd h1.symm hw'.1.2
      subst hb
      have hu : u = u' := by simpa [Memory.read] using h b
      subst hu
      congr 1
      refine ih m' hw.2 hw'.2 fun j => ?_
      by_cases hj : b = j
      · subst hj
        rw [read_below m hw.2 b (by omega), read_below m' hw'.2 b (by omega)]
      · simpa [Memory.read, hj] using h j

theorem ext_of_reads (m m' : Memory) (hm : Memory.wf m = true) (hm' : Memory.wf m' = true)
    (h : ∀ j, Memory.read m j = Memory.read m' j) : m = m' :=
  ext_from m m' hm hm' h

end Sys2Proof.Machine.Memory
end

