-- ==== Sys2Proof/Laws/State.lean ====
section
/-! SUPPORT. One lemma per field per update of the state, each true by rfl, and what the readers `readW`, `readBuf` and
`isBusy` give after an update. -/

namespace Sys2Proof.Machine.State

/-! ### setW -/

@[simp] theorem setW_cfg (s : State) (i : WReg) (v : Nat) : (s.setW i v).cfg = s.cfg := rfl
@[simp] theorem setW_w (s : State) (i : WReg) (v : Nat) : (s.setW i v).w = s.w.set i v := rfl
@[simp] theorem setW_n (s : State) (i : WReg) (v : Nat) : (s.setW i v).n = s.n := rfl
@[simp] theorem setW_buf (s : State) (i : WReg) (v : Nat) : (s.setW i v).buf = s.buf := rfl
@[simp] theorem setW_ie (s : State) (i : WReg) (v : Nat) : (s.setW i v).ie = s.ie := rfl
@[simp] theorem setW_status (s : State) (i : WReg) (v : Nat) : (s.setW i v).status = s.status := rfl
@[simp] theorem setW_cmd (s : State) (i : WReg) (v : Nat) : (s.setW i v).cmd = s.cmd := rfl
@[simp] theorem setW_arg0 (s : State) (i : WReg) (v : Nat) : (s.setW i v).arg0 = s.arg0 := rfl
@[simp] theorem setW_arg1 (s : State) (i : WReg) (v : Nat) : (s.setW i v).arg1 = s.arg1 := rfl
@[simp] theorem setW_res0 (s : State) (i : WReg) (v : Nat) : (s.setW i v).res0 = s.res0 := rfl
@[simp] theorem setW_blksz (s : State) (i : WReg) (v : Nat) : (s.setW i v).blksz = s.blksz := rfl
@[simp] theorem setW_nbitlen (s : State) (i : WReg) (v : Nat) : (s.setW i v).nbitlen = s.nbitlen := rfl
@[simp] theorem setW_phase (s : State) (i : WReg) (v : Nat) : (s.setW i v).phase = s.phase := rfl
@[simp] theorem setW_resetHeld (s : State) (i : WReg) (v : Nat) : (s.setW i v).resetHeld = s.resetHeld := rfl
@[simp] theorem setW_port (s : State) (i : WReg) (v : Nat) : (s.setW i v).port = s.port := rfl
@[simp] theorem setW_pending (s : State) (i : WReg) (v : Nat) : (s.setW i v).pending = s.pending := rfl
@[simp] theorem setW_reply (s : State) (i : WReg) (v : Nat) : (s.setW i v).reply = s.reply := rfl

/-! ### fillBuf -/

@[simp] theorem fillBuf_cfg (s : State) (f : Nat → Byte) : (s.fillBuf f).cfg = s.cfg := rfl
@[simp] theorem fillBuf_w (s : State) (f : Nat → Byte) : (s.fillBuf f).w = s.w := rfl
@[simp] theorem fillBuf_n (s : State) (f : Nat → Byte) : (s.fillBuf f).n = s.n := rfl
@[simp] theorem fillBuf_buf (s : State) (f : Nat → Byte) :
    (s.fillBuf f).buf = Memory.fill s.buf 0 (numBytes s.cfg) f := rfl
@[simp] theorem fillBuf_ie (s : State) (f : Nat → Byte) : (s.fillBuf f).ie = s.ie := rfl
@[simp] theorem fillBuf_status (s : State) (f : Nat → Byte) : (s.fillBuf f).status = s.status := rfl
@[simp] theorem fillBuf_cmd (s : State) (f : Nat → Byte) : (s.fillBuf f).cmd = s.cmd := rfl
@[simp] theorem fillBuf_arg0 (s : State) (f : Nat → Byte) : (s.fillBuf f).arg0 = s.arg0 := rfl
@[simp] theorem fillBuf_arg1 (s : State) (f : Nat → Byte) : (s.fillBuf f).arg1 = s.arg1 := rfl
@[simp] theorem fillBuf_res0 (s : State) (f : Nat → Byte) : (s.fillBuf f).res0 = s.res0 := rfl
@[simp] theorem fillBuf_blksz (s : State) (f : Nat → Byte) : (s.fillBuf f).blksz = s.blksz := rfl
@[simp] theorem fillBuf_nbitlen (s : State) (f : Nat → Byte) : (s.fillBuf f).nbitlen = s.nbitlen := rfl
@[simp] theorem fillBuf_phase (s : State) (f : Nat → Byte) : (s.fillBuf f).phase = s.phase := rfl
@[simp] theorem fillBuf_resetHeld (s : State) (f : Nat → Byte) : (s.fillBuf f).resetHeld = s.resetHeld := rfl
@[simp] theorem fillBuf_port (s : State) (f : Nat → Byte) : (s.fillBuf f).port = s.port := rfl
@[simp] theorem fillBuf_pending (s : State) (f : Nat → Byte) : (s.fillBuf f).pending = s.pending := rfl
@[simp] theorem fillBuf_reply (s : State) (f : Nat → Byte) : (s.fillBuf f).reply = s.reply := rfl

/-! ### setBufWord -/

@[simp] theorem setBufWord_cfg (s : State) (k : Nat) (v : Word) : (s.setBufWord k v).cfg = s.cfg := rfl
@[simp] theorem setBufWord_w (s : State) (k : Nat) (v : Word) : (s.setBufWord k v).w = s.w := rfl
@[simp] theorem setBufWord_n (s : State) (k : Nat) (v : Word) : (s.setBufWord k v).n = s.n := rfl
@[simp] theorem setBufWord_buf (s : State) (k : Nat) (v : Word) :
    (s.setBufWord k v).buf = Memory.fill s.buf (4 * k) 4 fun b => v.extractLsb' (8 * b) 8 := rfl
@[simp] theorem setBufWord_ie (s : State) (k : Nat) (v : Word) : (s.setBufWord k v).ie = s.ie := rfl
@[simp] theorem setBufWord_status (s : State) (k : Nat) (v : Word) : (s.setBufWord k v).status = s.status := rfl
@[simp] theorem setBufWord_cmd (s : State) (k : Nat) (v : Word) : (s.setBufWord k v).cmd = s.cmd := rfl
@[simp] theorem setBufWord_arg0 (s : State) (k : Nat) (v : Word) : (s.setBufWord k v).arg0 = s.arg0 := rfl
@[simp] theorem setBufWord_arg1 (s : State) (k : Nat) (v : Word) : (s.setBufWord k v).arg1 = s.arg1 := rfl
@[simp] theorem setBufWord_res0 (s : State) (k : Nat) (v : Word) : (s.setBufWord k v).res0 = s.res0 := rfl
@[simp] theorem setBufWord_blksz (s : State) (k : Nat) (v : Word) : (s.setBufWord k v).blksz = s.blksz := rfl
@[simp] theorem setBufWord_nbitlen (s : State) (k : Nat) (v : Word) : (s.setBufWord k v).nbitlen = s.nbitlen := rfl
@[simp] theorem setBufWord_phase (s : State) (k : Nat) (v : Word) : (s.setBufWord k v).phase = s.phase := rfl
@[simp] theorem setBufWord_resetHeld (s : State) (k : Nat) (v : Word) : (s.setBufWord k v).resetHeld = s.resetHeld := rfl
@[simp] theorem setBufWord_port (s : State) (k : Nat) (v : Word) : (s.setBufWord k v).port = s.port := rfl
@[simp] theorem setBufWord_pending (s : State) (k : Nat) (v : Word) : (s.setBufWord k v).pending = s.pending := rfl
@[simp] theorem setBufWord_reply (s : State) (k : Nat) (v : Word) : (s.setBufWord k v).reply = s.reply := rfl

/-! ### accept -/

@[simp] theorem accept_cfg (s : State) (v : Word) : (s.accept v).cfg = s.cfg := rfl
@[simp] theorem accept_w (s : State) (v : Word) : (s.accept v).w = s.w := rfl
@[simp] theorem accept_n (s : State) (v : Word) : (s.accept v).n = s.n := rfl
@[simp] theorem accept_buf (s : State) (v : Word) : (s.accept v).buf = s.buf := rfl
@[simp] theorem accept_ie (s : State) (v : Word) : (s.accept v).ie = s.ie := rfl
@[simp] theorem accept_status (s : State) (v : Word) :
    (s.accept v).status = { s.status with done := false, err := false, errcode := .none } := rfl
@[simp] theorem accept_cmd (s : State) (v : Word) : (s.accept v).cmd = v := rfl
@[simp] theorem accept_arg0 (s : State) (v : Word) : (s.accept v).arg0 = s.arg0 := rfl
@[simp] theorem accept_arg1 (s : State) (v : Word) : (s.accept v).arg1 = s.arg1 := rfl
@[simp] theorem accept_res0 (s : State) (v : Word) : (s.accept v).res0 = s.res0 := rfl
@[simp] theorem accept_blksz (s : State) (v : Word) : (s.accept v).blksz = s.blksz := rfl
@[simp] theorem accept_nbitlen (s : State) (v : Word) : (s.accept v).nbitlen = s.nbitlen := rfl
@[simp] theorem accept_phase (s : State) (v : Word) :
    (s.accept v).phase = .busy { word := v, attempts := 0, candidate := none } := rfl
@[simp] theorem accept_resetHeld (s : State) (v : Word) : (s.accept v).resetHeld = s.resetHeld := rfl
@[simp] theorem accept_port (s : State) (v : Word) : (s.accept v).port = s.port := rfl
@[simp] theorem accept_pending (s : State) (v : Word) : (s.accept v).pending = s.pending := rfl
@[simp] theorem accept_reply (s : State) (v : Word) : (s.accept v).reply = s.reply := rfl

/-! ### complete -/

@[simp] theorem complete_cfg (s : State) (f : Bool) (r : Nat) : (s.complete f r).cfg = s.cfg := rfl
@[simp] theorem complete_w (s : State) (f : Bool) (r : Nat) : (s.complete f r).w = s.w := rfl
@[simp] theorem complete_n (s : State) (f : Bool) (r : Nat) : (s.complete f r).n = s.n := rfl
@[simp] theorem complete_buf (s : State) (f : Bool) (r : Nat) : (s.complete f r).buf = s.buf := rfl
@[simp] theorem complete_ie (s : State) (f : Bool) (r : Nat) : (s.complete f r).ie = s.ie := rfl
@[simp] theorem complete_status (s : State) (f : Bool) (r : Nat) :
    (s.complete f r).status = { s.status with flag := f, errcode := .none, err := false, done := true } := rfl
@[simp] theorem complete_cmd (s : State) (f : Bool) (r : Nat) : (s.complete f r).cmd = s.cmd := rfl
@[simp] theorem complete_arg0 (s : State) (f : Bool) (r : Nat) : (s.complete f r).arg0 = s.arg0 := rfl
@[simp] theorem complete_arg1 (s : State) (f : Bool) (r : Nat) : (s.complete f r).arg1 = s.arg1 := rfl
@[simp] theorem complete_res0 (s : State) (f : Bool) (r : Nat) : (s.complete f r).res0 = BitVec.ofNat 32 r := rfl
@[simp] theorem complete_blksz (s : State) (f : Bool) (r : Nat) : (s.complete f r).blksz = s.blksz := rfl
@[simp] theorem complete_nbitlen (s : State) (f : Bool) (r : Nat) : (s.complete f r).nbitlen = s.nbitlen := rfl
@[simp] theorem complete_phase (s : State) (f : Bool) (r : Nat) : (s.complete f r).phase = .idle := rfl
@[simp] theorem complete_resetHeld (s : State) (f : Bool) (r : Nat) : (s.complete f r).resetHeld = s.resetHeld := rfl
@[simp] theorem complete_port (s : State) (f : Bool) (r : Nat) : (s.complete f r).port = s.port := rfl
@[simp] theorem complete_pending (s : State) (f : Bool) (r : Nat) : (s.complete f r).pending = s.pending := rfl
@[simp] theorem complete_reply (s : State) (f : Bool) (r : Nat) : (s.complete f r).reply = s.reply := rfl

/-! ### raise -/

@[simp] theorem raise_cfg (s : State) (c : ErrCode) : (s.raise c).cfg = s.cfg := rfl
@[simp] theorem raise_w (s : State) (c : ErrCode) : (s.raise c).w = s.w := rfl
@[simp] theorem raise_n (s : State) (c : ErrCode) : (s.raise c).n = s.n := rfl
@[simp] theorem raise_buf (s : State) (c : ErrCode) : (s.raise c).buf = s.buf := rfl
@[simp] theorem raise_ie (s : State) (c : ErrCode) : (s.raise c).ie = s.ie := rfl
@[simp] theorem raise_status (s : State) (c : ErrCode) :
    (s.raise c).status = { s.status with errcode := c, err := true, flag := false, done := true } := rfl
@[simp] theorem raise_cmd (s : State) (c : ErrCode) : (s.raise c).cmd = s.cmd := rfl
@[simp] theorem raise_arg0 (s : State) (c : ErrCode) : (s.raise c).arg0 = s.arg0 := rfl
@[simp] theorem raise_arg1 (s : State) (c : ErrCode) : (s.raise c).arg1 = s.arg1 := rfl
@[simp] theorem raise_res0 (s : State) (c : ErrCode) : (s.raise c).res0 = s.res0 := rfl
@[simp] theorem raise_blksz (s : State) (c : ErrCode) : (s.raise c).blksz = s.blksz := rfl
@[simp] theorem raise_nbitlen (s : State) (c : ErrCode) : (s.raise c).nbitlen = s.nbitlen := rfl
@[simp] theorem raise_phase (s : State) (c : ErrCode) : (s.raise c).phase = .idle := rfl
@[simp] theorem raise_resetHeld (s : State) (c : ErrCode) : (s.raise c).resetHeld = s.resetHeld := rfl
@[simp] theorem raise_port (s : State) (c : ErrCode) : (s.raise c).port = s.port := rfl
@[simp] theorem raise_pending (s : State) (c : ErrCode) : (s.raise c).pending = s.pending := rfl
@[simp] theorem raise_reply (s : State) (c : ErrCode) : (s.raise c).reply = s.reply := rfl

/-! ### setModulus -/

@[simp] theorem setModulus_cfg (s : State) (v : Nat) : (s.setModulus v).cfg = s.cfg := rfl
@[simp] theorem setModulus_w (s : State) (v : Nat) : (s.setModulus v).w = s.w := rfl
@[simp] theorem setModulus_n (s : State) (v : Nat) : (s.setModulus v).n = v := rfl
@[simp] theorem setModulus_buf (s : State) (v : Nat) : (s.setModulus v).buf = s.buf := rfl
@[simp] theorem setModulus_ie (s : State) (v : Nat) : (s.setModulus v).ie = s.ie := rfl
@[simp] theorem setModulus_status (s : State) (v : Nat) :
    (s.setModulus v).status = { s.status with modv := true } := rfl
@[simp] theorem setModulus_cmd (s : State) (v : Nat) : (s.setModulus v).cmd = s.cmd := rfl
@[simp] theorem setModulus_arg0 (s : State) (v : Nat) : (s.setModulus v).arg0 = s.arg0 := rfl
@[simp] theorem setModulus_arg1 (s : State) (v : Nat) : (s.setModulus v).arg1 = s.arg1 := rfl
@[simp] theorem setModulus_res0 (s : State) (v : Nat) : (s.setModulus v).res0 = s.res0 := rfl
@[simp] theorem setModulus_blksz (s : State) (v : Nat) :
    (s.setModulus v).blksz = BitVec.ofNat 32 ((bitlen v - 1) / 8) := rfl
@[simp] theorem setModulus_nbitlen (s : State) (v : Nat) :
    (s.setModulus v).nbitlen = BitVec.ofNat 32 (bitlen v) := rfl
@[simp] theorem setModulus_phase (s : State) (v : Nat) : (s.setModulus v).phase = s.phase := rfl
@[simp] theorem setModulus_resetHeld (s : State) (v : Nat) : (s.setModulus v).resetHeld = s.resetHeld := rfl
@[simp] theorem setModulus_port (s : State) (v : Nat) : (s.setModulus v).port = s.port := rfl
@[simp] theorem setModulus_pending (s : State) (v : Nat) : (s.setModulus v).pending = s.pending := rfl
@[simp] theorem setModulus_reply (s : State) (v : Nat) : (s.setModulus v).reply = s.reply := rfl

/-! ### writeCtrl -/

@[simp] theorem writeCtrl_cfg (s : State) (v : Word) : (s.writeCtrl v).cfg = s.cfg := rfl
@[simp] theorem writeCtrl_w (s : State) (v : Word) : (s.writeCtrl v).w = s.w := rfl
@[simp] theorem writeCtrl_n (s : State) (v : Word) : (s.writeCtrl v).n = s.n := rfl
@[simp] theorem writeCtrl_buf (s : State) (v : Word) : (s.writeCtrl v).buf = s.buf := rfl
@[simp] theorem writeCtrl_ie (s : State) (v : Word) : (s.writeCtrl v).ie = v.getLsbD 0 := rfl
@[simp] theorem writeCtrl_status (s : State) (v : Word) : (s.writeCtrl v).status = s.status := rfl
@[simp] theorem writeCtrl_cmd (s : State) (v : Word) : (s.writeCtrl v).cmd = s.cmd := rfl
@[simp] theorem writeCtrl_arg0 (s : State) (v : Word) : (s.writeCtrl v).arg0 = s.arg0 := rfl
@[simp] theorem writeCtrl_arg1 (s : State) (v : Word) : (s.writeCtrl v).arg1 = s.arg1 := rfl
@[simp] theorem writeCtrl_res0 (s : State) (v : Word) : (s.writeCtrl v).res0 = s.res0 := rfl
@[simp] theorem writeCtrl_blksz (s : State) (v : Word) : (s.writeCtrl v).blksz = s.blksz := rfl
@[simp] theorem writeCtrl_nbitlen (s : State) (v : Word) : (s.writeCtrl v).nbitlen = s.nbitlen := rfl
@[simp] theorem writeCtrl_phase (s : State) (v : Word) : (s.writeCtrl v).phase = s.phase := rfl
@[simp] theorem writeCtrl_resetHeld (s : State) (v : Word) : (s.writeCtrl v).resetHeld = s.resetHeld := rfl
@[simp] theorem writeCtrl_port (s : State) (v : Word) : (s.writeCtrl v).port = s.port := rfl
@[simp] theorem writeCtrl_pending (s : State) (v : Word) : (s.writeCtrl v).pending = s.pending := rfl
@[simp] theorem writeCtrl_reply (s : State) (v : Word) : (s.writeCtrl v).reply = s.reply := rfl

/-! ### writeStatus -/

@[simp] theorem writeStatus_cfg (s : State) (v : Word) : (s.writeStatus v).cfg = s.cfg := rfl
@[simp] theorem writeStatus_w (s : State) (v : Word) : (s.writeStatus v).w = s.w := rfl
@[simp] theorem writeStatus_n (s : State) (v : Word) : (s.writeStatus v).n = s.n := rfl
@[simp] theorem writeStatus_buf (s : State) (v : Word) : (s.writeStatus v).buf = s.buf := rfl
@[simp] theorem writeStatus_ie (s : State) (v : Word) : (s.writeStatus v).ie = s.ie := rfl
@[simp] theorem writeStatus_status_done (s : State) (v : Word) : (s.writeStatus v).status.done = (s.status.done && !v.getLsbD 1) := rfl
@[simp] theorem writeStatus_status_err (s : State) (v : Word) : (s.writeStatus v).status.err = (s.status.err && !v.getLsbD 2) := rfl
@[simp] theorem writeStatus_status_flag (s : State) (v : Word) : (s.writeStatus v).status.flag = s.status.flag := rfl
@[simp] theorem writeStatus_status_modv (s : State) (v : Word) : (s.writeStatus v).status.modv = s.status.modv := rfl
@[simp] theorem writeStatus_status_cmdovr (s : State) (v : Word) : (s.writeStatus v).status.cmdovr = (s.status.cmdovr && !v.getLsbD 5) := rfl
@[simp] theorem writeStatus_status_accerr (s : State) (v : Word) : (s.writeStatus v).status.accerr = (s.status.accerr && !v.getLsbD 6) := rfl
@[simp] theorem writeStatus_status_errcode (s : State) (v : Word) : (s.writeStatus v).status.errcode = s.status.errcode := rfl
@[simp] theorem writeStatus_cmd (s : State) (v : Word) : (s.writeStatus v).cmd = s.cmd := rfl
@[simp] theorem writeStatus_arg0 (s : State) (v : Word) : (s.writeStatus v).arg0 = s.arg0 := rfl
@[simp] theorem writeStatus_arg1 (s : State) (v : Word) : (s.writeStatus v).arg1 = s.arg1 := rfl
@[simp] theorem writeStatus_res0 (s : State) (v : Word) : (s.writeStatus v).res0 = s.res0 := rfl
@[simp] theorem writeStatus_blksz (s : State) (v : Word) : (s.writeStatus v).blksz = s.blksz := rfl
@[simp] theorem writeStatus_nbitlen (s : State) (v : Word) : (s.writeStatus v).nbitlen = s.nbitlen := rfl
@[simp] theorem writeStatus_phase (s : State) (v : Word) : (s.writeStatus v).phase = s.phase := rfl
@[simp] theorem writeStatus_resetHeld (s : State) (v : Word) : (s.writeStatus v).resetHeld = s.resetHeld := rfl
@[simp] theorem writeStatus_port (s : State) (v : Word) : (s.writeStatus v).port = s.port := rfl
@[simp] theorem writeStatus_pending (s : State) (v : Word) : (s.writeStatus v).pending = s.pending := rfl
@[simp] theorem writeStatus_reply (s : State) (v : Word) : (s.writeStatus v).reply = s.reply := rfl

/-! ### setCmdovr -/

@[simp] theorem setCmdovr_cfg (s : State) : s.setCmdovr.cfg = s.cfg := rfl
@[simp] theorem setCmdovr_w (s : State) : s.setCmdovr.w = s.w := rfl
@[simp] theorem setCmdovr_n (s : State) : s.setCmdovr.n = s.n := rfl
@[simp] theorem setCmdovr_buf (s : State) : s.setCmdovr.buf = s.buf := rfl
@[simp] theorem setCmdovr_ie (s : State) : s.setCmdovr.ie = s.ie := rfl
@[simp] theorem setCmdovr_status (s : State) : s.setCmdovr.status = { s.status with cmdovr := true } := rfl
@[simp] theorem setCmdovr_cmd (s : State) : s.setCmdovr.cmd = s.cmd := rfl
@[simp] theorem setCmdovr_arg0 (s : State) : s.setCmdovr.arg0 = s.arg0 := rfl
@[simp] theorem setCmdovr_arg1 (s : State) : s.setCmdovr.arg1 = s.arg1 := rfl
@[simp] theorem setCmdovr_res0 (s : State) : s.setCmdovr.res0 = s.res0 := rfl
@[simp] theorem setCmdovr_blksz (s : State) : s.setCmdovr.blksz = s.blksz := rfl
@[simp] theorem setCmdovr_nbitlen (s : State) : s.setCmdovr.nbitlen = s.nbitlen := rfl
@[simp] theorem setCmdovr_phase (s : State) : s.setCmdovr.phase = s.phase := rfl
@[simp] theorem setCmdovr_resetHeld (s : State) : s.setCmdovr.resetHeld = s.resetHeld := rfl
@[simp] theorem setCmdovr_port (s : State) : s.setCmdovr.port = s.port := rfl
@[simp] theorem setCmdovr_pending (s : State) : s.setCmdovr.pending = s.pending := rfl
@[simp] theorem setCmdovr_reply (s : State) : s.setCmdovr.reply = s.reply := rfl

/-! ### setAccerr -/

@[simp] theorem setAccerr_cfg (s : State) : s.setAccerr.cfg = s.cfg := rfl
@[simp] theorem setAccerr_w (s : State) : s.setAccerr.w = s.w := rfl
@[simp] theorem setAccerr_n (s : State) : s.setAccerr.n = s.n := rfl
@[simp] theorem setAccerr_buf (s : State) : s.setAccerr.buf = s.buf := rfl
@[simp] theorem setAccerr_ie (s : State) : s.setAccerr.ie = s.ie := rfl
@[simp] theorem setAccerr_status (s : State) : s.setAccerr.status = { s.status with accerr := true } := rfl
@[simp] theorem setAccerr_cmd (s : State) : s.setAccerr.cmd = s.cmd := rfl
@[simp] theorem setAccerr_arg0 (s : State) : s.setAccerr.arg0 = s.arg0 := rfl
@[simp] theorem setAccerr_arg1 (s : State) : s.setAccerr.arg1 = s.arg1 := rfl
@[simp] theorem setAccerr_res0 (s : State) : s.setAccerr.res0 = s.res0 := rfl
@[simp] theorem setAccerr_blksz (s : State) : s.setAccerr.blksz = s.blksz := rfl
@[simp] theorem setAccerr_nbitlen (s : State) : s.setAccerr.nbitlen = s.nbitlen := rfl
@[simp] theorem setAccerr_phase (s : State) : s.setAccerr.phase = s.phase := rfl
@[simp] theorem setAccerr_resetHeld (s : State) : s.setAccerr.resetHeld = s.resetHeld := rfl
@[simp] theorem setAccerr_port (s : State) : s.setAccerr.port = s.port := rfl
@[simp] theorem setAccerr_pending (s : State) : s.setAccerr.pending = s.pending := rfl
@[simp] theorem setAccerr_reply (s : State) : s.setAccerr.reply = s.reply := rfl

/-! ### stayBusy -/

@[simp] theorem stayBusy_cfg (s : State) (k x : Nat) : (s.stayBusy k x).cfg = s.cfg := by
  unfold stayBusy; split <;> rfl
@[simp] theorem stayBusy_w (s : State) (k x : Nat) : (s.stayBusy k x).w = s.w := by
  unfold stayBusy; split <;> rfl
@[simp] theorem stayBusy_n (s : State) (k x : Nat) : (s.stayBusy k x).n = s.n := by
  unfold stayBusy; split <;> rfl
@[simp] theorem stayBusy_buf (s : State) (k x : Nat) : (s.stayBusy k x).buf = s.buf := by
  unfold stayBusy; split <;> rfl
@[simp] theorem stayBusy_ie (s : State) (k x : Nat) : (s.stayBusy k x).ie = s.ie := by
  unfold stayBusy; split <;> rfl
@[simp] theorem stayBusy_status (s : State) (k x : Nat) : (s.stayBusy k x).status = s.status := by
  unfold stayBusy; split <;> rfl
@[simp] theorem stayBusy_cmd (s : State) (k x : Nat) : (s.stayBusy k x).cmd = s.cmd := by
  unfold stayBusy; split <;> rfl
@[simp] theorem stayBusy_arg0 (s : State) (k x : Nat) : (s.stayBusy k x).arg0 = s.arg0 := by
  unfold stayBusy; split <;> rfl
@[simp] theorem stayBusy_arg1 (s : State) (k x : Nat) : (s.stayBusy k x).arg1 = s.arg1 := by
  unfold stayBusy; split <;> rfl
@[simp] theorem stayBusy_res0 (s : State) (k x : Nat) : (s.stayBusy k x).res0 = s.res0 := by
  unfold stayBusy; split <;> rfl
@[simp] theorem stayBusy_blksz (s : State) (k x : Nat) : (s.stayBusy k x).blksz = s.blksz := by
  unfold stayBusy; split <;> rfl
@[simp] theorem stayBusy_nbitlen (s : State) (k x : Nat) : (s.stayBusy k x).nbitlen = s.nbitlen := by
  unfold stayBusy; split <;> rfl
@[simp] theorem stayBusy_resetHeld (s : State) (k x : Nat) : (s.stayBusy k x).resetHeld = s.resetHeld := by
  unfold stayBusy; split <;> rfl
@[simp] theorem stayBusy_port (s : State) (k x : Nat) : (s.stayBusy k x).port = s.port := by
  unfold stayBusy; split <;> rfl
@[simp] theorem stayBusy_pending (s : State) (k x : Nat) : (s.stayBusy k x).pending = s.pending := by
  unfold stayBusy; split <;> rfl
@[simp] theorem stayBusy_reply (s : State) (k x : Nat) : (s.stayBusy k x).reply = s.reply := by
  unfold stayBusy; split <;> rfl

theorem stayBusy_phase (s : State) (k x : Nat) (c : Command) (h : s.phase = .busy c) :
    (s.stayBusy k x).phase = .busy { c with attempts := k, candidate := some x } := by
  unfold stayBusy; rw [h]

/-! ### clearRegisters -/

@[simp] theorem clearRegisters_cfg (s : State) : s.clearRegisters.cfg = s.cfg := rfl
@[simp] theorem clearRegisters_w (s : State) : s.clearRegisters.w = (State.resetFor s.cfg).w := rfl
@[simp] theorem clearRegisters_n (s : State) : s.clearRegisters.n = (State.resetFor s.cfg).n := rfl
@[simp] theorem clearRegisters_buf (s : State) : s.clearRegisters.buf = (State.resetFor s.cfg).buf := rfl
@[simp] theorem clearRegisters_ie (s : State) : s.clearRegisters.ie = (State.resetFor s.cfg).ie := rfl
@[simp] theorem clearRegisters_status (s : State) : s.clearRegisters.status = (State.resetFor s.cfg).status := rfl
@[simp] theorem clearRegisters_cmd (s : State) : s.clearRegisters.cmd = (State.resetFor s.cfg).cmd := rfl
@[simp] theorem clearRegisters_arg0 (s : State) : s.clearRegisters.arg0 = (State.resetFor s.cfg).arg0 := rfl
@[simp] theorem clearRegisters_arg1 (s : State) : s.clearRegisters.arg1 = (State.resetFor s.cfg).arg1 := rfl
@[simp] theorem clearRegisters_res0 (s : State) : s.clearRegisters.res0 = (State.resetFor s.cfg).res0 := rfl
@[simp] theorem clearRegisters_blksz (s : State) : s.clearRegisters.blksz = (State.resetFor s.cfg).blksz := rfl
@[simp] theorem clearRegisters_nbitlen (s : State) : s.clearRegisters.nbitlen = (State.resetFor s.cfg).nbitlen := rfl
@[simp] theorem clearRegisters_phase (s : State) : s.clearRegisters.phase = (State.resetFor s.cfg).phase := rfl
@[simp] theorem clearRegisters_resetHeld (s : State) : s.clearRegisters.resetHeld = s.resetHeld := rfl
@[simp] theorem clearRegisters_port (s : State) : s.clearRegisters.port = s.port := rfl
@[simp] theorem clearRegisters_pending (s : State) : s.clearRegisters.pending = s.pending := rfl
@[simp] theorem clearRegisters_reply (s : State) : s.clearRegisters.reply = s.reply := rfl

/-! ### assertReset -/

@[simp] theorem assertReset_cfg (s : State) : s.assertReset.cfg = s.cfg := rfl
@[simp] theorem assertReset_w (s : State) : s.assertReset.w = (State.resetFor s.cfg).w := rfl
@[simp] theorem assertReset_n (s : State) : s.assertReset.n = (State.resetFor s.cfg).n := rfl
@[simp] theorem assertReset_buf (s : State) : s.assertReset.buf = (State.resetFor s.cfg).buf := rfl
@[simp] theorem assertReset_ie (s : State) : s.assertReset.ie = (State.resetFor s.cfg).ie := rfl
@[simp] theorem assertReset_status (s : State) : s.assertReset.status = (State.resetFor s.cfg).status := rfl
@[simp] theorem assertReset_cmd (s : State) : s.assertReset.cmd = (State.resetFor s.cfg).cmd := rfl
@[simp] theorem assertReset_arg0 (s : State) : s.assertReset.arg0 = (State.resetFor s.cfg).arg0 := rfl
@[simp] theorem assertReset_arg1 (s : State) : s.assertReset.arg1 = (State.resetFor s.cfg).arg1 := rfl
@[simp] theorem assertReset_res0 (s : State) : s.assertReset.res0 = (State.resetFor s.cfg).res0 := rfl
@[simp] theorem assertReset_blksz (s : State) : s.assertReset.blksz = (State.resetFor s.cfg).blksz := rfl
@[simp] theorem assertReset_nbitlen (s : State) : s.assertReset.nbitlen = (State.resetFor s.cfg).nbitlen := rfl
@[simp] theorem assertReset_phase (s : State) : s.assertReset.phase = (State.resetFor s.cfg).phase := rfl
@[simp] theorem assertReset_resetHeld (s : State) : s.assertReset.resetHeld = true := rfl
@[simp] theorem assertReset_port (s : State) : s.assertReset.port = s.port := rfl
@[simp] theorem assertReset_pending (s : State) : s.assertReset.pending = s.pending := rfl
@[simp] theorem assertReset_reply (s : State) : s.assertReset.reply = s.reply := rfl

/-! ### releaseReset -/

@[simp] theorem releaseReset_cfg (s : State) : s.releaseReset.cfg = s.cfg := rfl
@[simp] theorem releaseReset_w (s : State) : s.releaseReset.w = s.w := rfl
@[simp] theorem releaseReset_n (s : State) : s.releaseReset.n = s.n := rfl
@[simp] theorem releaseReset_buf (s : State) : s.releaseReset.buf = s.buf := rfl
@[simp] theorem releaseReset_ie (s : State) : s.releaseReset.ie = s.ie := rfl
@[simp] theorem releaseReset_status (s : State) : s.releaseReset.status = s.status := rfl
@[simp] theorem releaseReset_cmd (s : State) : s.releaseReset.cmd = s.cmd := rfl
@[simp] theorem releaseReset_arg0 (s : State) : s.releaseReset.arg0 = s.arg0 := rfl
@[simp] theorem releaseReset_arg1 (s : State) : s.releaseReset.arg1 = s.arg1 := rfl
@[simp] theorem releaseReset_res0 (s : State) : s.releaseReset.res0 = s.res0 := rfl
@[simp] theorem releaseReset_blksz (s : State) : s.releaseReset.blksz = s.blksz := rfl
@[simp] theorem releaseReset_nbitlen (s : State) : s.releaseReset.nbitlen = s.nbitlen := rfl
@[simp] theorem releaseReset_phase (s : State) : s.releaseReset.phase = s.phase := rfl
@[simp] theorem releaseReset_resetHeld (s : State) : s.releaseReset.resetHeld = false := rfl
@[simp] theorem releaseReset_port (s : State) : s.releaseReset.port = s.port := rfl
@[simp] theorem releaseReset_pending (s : State) : s.releaseReset.pending = s.pending := rfl
@[simp] theorem releaseReset_reply (s : State) : s.releaseReset.reply = s.reply := rfl

/-! ### Readers -/

theorem readW_setW (s : State) (i j : WReg) (v : Nat) :
    (s.setW i v).readW j = if i = j then v else s.readW j := by
  unfold readW setW
  by_cases h : i = j
  · subst h; simp
  · have : i.val ≠ j.val := fun e => h (Fin.ext e)
    simp [h, Vector.getElem_set_ne, this]

@[simp] theorem readW_setW_same (s : State) (i : WReg) (v : Nat) : (s.setW i v).readW i = v := by
  simp [readW_setW]

theorem readW_setW_other (s : State) {i j : WReg} (v : Nat) (h : i ≠ j) : (s.setW i v).readW j = s.readW j := by
  simp [readW_setW, h]

@[simp] theorem readW_fillBuf (s : State) (f : Nat → Byte) (i : WReg) : (s.fillBuf f).readW i = s.readW i := rfl
@[simp] theorem readW_setBufWord (s : State) (k : Nat) (v : Word) (i : WReg) : (s.setBufWord k v).readW i = s.readW i := rfl
@[simp] theorem readW_accept (s : State) (v : Word) (i : WReg) : (s.accept v).readW i = s.readW i := rfl
@[simp] theorem readW_complete (s : State) (f : Bool) (r : Nat) (i : WReg) : (s.complete f r).readW i = s.readW i := rfl
@[simp] theorem readW_raise (s : State) (c : ErrCode) (i : WReg) : (s.raise c).readW i = s.readW i := rfl
@[simp] theorem readW_setModulus (s : State) (v : Nat) (i : WReg) : (s.setModulus v).readW i = s.readW i := rfl
@[simp] theorem readW_writeCtrl (s : State) (v : Word) (i : WReg) : (s.writeCtrl v).readW i = s.readW i := rfl
@[simp] theorem readW_writeStatus (s : State) (v : Word) (i : WReg) : (s.writeStatus v).readW i = s.readW i := rfl
@[simp] theorem readW_setCmdovr (s : State) (i : WReg) : s.setCmdovr.readW i = s.readW i := rfl
@[simp] theorem readW_setAccerr (s : State) (i : WReg) : s.setAccerr.readW i = s.readW i := rfl
@[simp] theorem readW_stayBusy (s : State) (k x : Nat) (i : WReg) : (s.stayBusy k x).readW i = s.readW i := by
  unfold readW; rw [stayBusy_w]

@[simp] theorem readBuf_setW (s : State) (i : WReg) (v j : Nat) : (s.setW i v).readBuf j = s.readBuf j := rfl
@[simp] theorem readBuf_accept (s : State) (v : Word) (j : Nat) : (s.accept v).readBuf j = s.readBuf j := rfl
@[simp] theorem readBuf_complete (s : State) (f : Bool) (r : Nat) (j : Nat) : (s.complete f r).readBuf j = s.readBuf j := rfl
@[simp] theorem readBuf_raise (s : State) (c : ErrCode) (j : Nat) : (s.raise c).readBuf j = s.readBuf j := rfl
@[simp] theorem readBuf_setModulus (s : State) (v j : Nat) : (s.setModulus v).readBuf j = s.readBuf j := rfl
@[simp] theorem readBuf_writeCtrl (s : State) (v : Word) (j : Nat) : (s.writeCtrl v).readBuf j = s.readBuf j := rfl
@[simp] theorem readBuf_writeStatus (s : State) (v : Word) (j : Nat) : (s.writeStatus v).readBuf j = s.readBuf j := rfl
@[simp] theorem readBuf_setCmdovr (s : State) (j : Nat) : s.setCmdovr.readBuf j = s.readBuf j := rfl
@[simp] theorem readBuf_setAccerr (s : State) (j : Nat) : s.setAccerr.readBuf j = s.readBuf j := rfl
@[simp] theorem readBuf_stayBusy (s : State) (k x j : Nat) : (s.stayBusy k x).readBuf j = s.readBuf j := by
  unfold readBuf; rw [stayBusy_buf]

@[simp] theorem isBusy_setW (s : State) (i : WReg) (v : Nat) : (s.setW i v).isBusy = s.isBusy := rfl
@[simp] theorem isBusy_fillBuf (s : State) (f : Nat → Byte) : (s.fillBuf f).isBusy = s.isBusy := rfl
@[simp] theorem isBusy_setBufWord (s : State) (k : Nat) (v : Word) : (s.setBufWord k v).isBusy = s.isBusy := rfl
@[simp] theorem isBusy_accept (s : State) (v : Word) : (s.accept v).isBusy = true := rfl
@[simp] theorem isBusy_complete (s : State) (f : Bool) (r : Nat) : (s.complete f r).isBusy = false := rfl
@[simp] theorem isBusy_raise (s : State) (c : ErrCode) : (s.raise c).isBusy = false := rfl
@[simp] theorem isBusy_setModulus (s : State) (v : Nat) : (s.setModulus v).isBusy = s.isBusy := rfl
@[simp] theorem isBusy_writeCtrl (s : State) (v : Word) : (s.writeCtrl v).isBusy = s.isBusy := rfl
@[simp] theorem isBusy_writeStatus (s : State) (v : Word) : (s.writeStatus v).isBusy = s.isBusy := rfl
@[simp] theorem isBusy_setCmdovr (s : State) : s.setCmdovr.isBusy = s.isBusy := rfl
@[simp] theorem isBusy_setAccerr (s : State) : s.setAccerr.isBusy = s.isBusy := rfl

theorem isBusy_eq_true (s : State) : s.isBusy = true ↔ ∃ c, s.phase = .busy c := by
  unfold isBusy; cases s.phase <;> simp

theorem isBusy_eq_false (s : State) : s.isBusy = false ↔ s.phase = .idle := by
  unfold isBusy; cases s.phase <;> simp

theorem attempts_of_busy (s : State) (c : Command) (h : s.phase = .busy c) : s.attempts = c.attempts := by
  unfold attempts; rw [h]

end Sys2Proof.Machine.State
end

