-- ==== Sys2Proof/Laws/Bus.lean ====
section
/-! SUPPORT. The host's accesses: what a step whose first action is an access answers, the slots of the window by offset (R80), and
what a read or a write of a slot leaves as it was. -/

namespace Sys2Proof.Machine

theorem actFirst_eq (e : Event) (s : State) : actFirst e s = eventStep e s := rfl

theorem fits_iff {s : State} {off : Nat} (h : off < 0x8000) :
    ¬(s.cfg.base + off < s.cfg.base ∨ s.cfg.base + windowBytes ≤ s.cfg.base + off) := by
  unfold windowBytes; omega

/-- A host read inside the window at a multiple of 4 (R82). -/
theorem actFirst_hostRd (s : State) (off : Nat) (h : off < 0x8000) (h4 : off % 4 = 0) :
    actFirst (hostRd s.cfg off) s = .next (s.memRead off) := by
  rw [actFirst_eq]
  simp only [hostRd, eventStep, State.hostStep, State.throughBus, if_neg (fits_iff h), Nat.add_sub_cancel_left]
  rw [if_pos ⟨rfl, h4⟩]

/-- A host write inside the window at a multiple of 4 (R82). -/
theorem actFirst_hostWr (s : State) (off : Nat) (v : Word) (h : off < 0x8000) (h4 : off % 4 = 0) :
    actFirst (hostWr s.cfg off v) s = .next (s.memWrite off v) := by
  rw [actFirst_eq]
  simp only [hostWr, eventStep, State.hostStep, State.throughBus, if_neg (fits_iff h), Nat.add_sub_cancel_left]
  rw [if_pos ⟨rfl, h4⟩]

/-- What any access that gets through is: a read or a write of one slot. -/
theorem hostStep_cases {s t : State} {a : HostAccess} (h : s.hostStep a = .next t) :
    ∃ off, off < 0x8000 ∧ off % 4 = 0 ∧
      (a = .read (s.cfg.base + off) 4 ∧ t = s.memRead off ∨
        ∃ v, a = .write (s.cfg.base + off) 4 v ∧ t = s.memWrite off v) := by
  have key : ∀ (addr size : Nat) (k : Nat → State), s.throughBus addr size k = .next t →
      ∃ off, off < 0x8000 ∧ off % 4 = 0 ∧ size = 4 ∧ addr = s.cfg.base + off ∧ t = k off := by
    intro addr size k hk
    unfold State.throughBus windowBytes at hk
    split at hk
    · cases hk
    · next hw =>
      split at hk
      · next hf => cases hk; exact ⟨addr - s.cfg.base, by omega, hf.2, hf.1, by omega, rfl⟩
      · cases hk
  cases a with
  | read addr size =>
    obtain ⟨off, h1, h2, rfl, rfl, ht⟩ := key addr size (fun off => s.memRead off) h
    exact ⟨off, h1, h2, .inl ⟨rfl, ht⟩⟩
  | write addr size v =>
    obtain ⟨off, h1, h2, rfl, rfl, ht⟩ := key addr size (fun off => s.memWrite off v) h
    exact ⟨off, h1, h2, .inr ⟨v, rfl, ht⟩⟩

/-! ### The window by offset (R80) -/

theorem legal_words {c : Config} (h : c.Legal) : 2 ≤ numWords c ∧ numWords c ≤ 256 ∧ numBytes c = 4 * numWords c := by
  obtain ⟨h1, h2, h3, _⟩ := h
  unfold numWords numBytes
  omega

theorem slotAt_buf (c : Config) (w : Nat) (h : w < numWords c) (h' : w < 256) : slotAt c (0x800 + 4 * w) = .buf w := by
  have e : (0x800 + 4 * w - 0x800) / 4 = w := by omega
  unfold slotAt
  rw [e]
  repeat rw [if_neg (by omega)]
  rw [if_pos (by omega), if_pos h]

theorem slotAt_modulus (c : Config) (j : Nat) (h : j < numWords c) (h' : j < 256) :
    slotAt c (0x1000 + 4 * j) = .modulus j := by
  have e : (0x1000 + 4 * j - 0x1000) / 4 = j := by omega
  unfold slotAt
  rw [e]
  repeat rw [if_neg (by omega)]
  rw [if_pos (by omega), if_pos h]

theorem slotAt_wide (c : Config) (i : WReg) (j : Nat) (h : j < numWords c) (h' : j < 256) :
    slotAt c (wideOffset i j) = .wide i j := by
  have hi := i.isLt
  have e : wideOffset i j % 0x400 / 4 = j := by unfold wideOffset; omega
  have e2 : (wideOffset i j - 0x4000) / 0x400 = i.val := by unfold wideOffset; omega
  have e3 : 0x4000 ≤ wideOffset i j ∧ wideOffset i j < 0x8000 := by unfold wideOffset; omega
  unfold slotAt windowBytes
  rw [e, e2]
  repeat rw [if_neg (by omega)]
  rw [if_pos (by omega), if_pos h]
  congr 1
  exact Fin.ext (Nat.mod_eq_of_lt hi)

theorem slotAt_reserved (c : Config) (off : Nat) (h4 : off % 4 = 0) (h : ReservedOffset c off) :
    slotAt c off = .reserved := by
  unfold ReservedOffset at h
  unfold slotAt windowBytes
  repeat rw [if_neg (by omega)]
  split
  · rfl
  · split
    · rw [if_neg (by omega)]
    · split
      · rfl
      · split
        · rw [if_neg (by omega)]
        · split
          · rfl
          · split
            · rw [if_neg (by omega)]
            · rfl

theorem wideOffset_fits (i : WReg) (j : Nat) (h : j < 256) : wideOffset i j < 0x8000 ∧ wideOffset i j % 4 = 0 := by
  have hi := i.isLt
  unfold wideOffset
  omega

/-! ### What an access leaves -/

namespace State

theorem readBuf_setBufWord (s : State) (hm : Memory.wf s.buf = true) (w : Nat) (v : Word) (j : Nat) :
    (s.setBufWord w v).readBuf j =
      if 4 * w ≤ j ∧ j < 4 * w + 4 then v.extractLsb' (8 * (j - 4 * w)) 8 else s.readBuf j := by
  unfold readBuf setBufWord
  rw [Memory.read_fill _ hm]

theorem readBuf_fillBuf (s : State) (hm : Memory.wf s.buf = true) (f : Nat → Byte) (j : Nat) :
    (s.fillBuf f).readBuf j = if j < numBytes s.cfg then f j else s.readBuf j := by
  unfold readBuf fillBuf
  rw [Memory.read_fill _ hm]
  simp

/-- A read answers on the bus and otherwise at most sets ACCERR, and that only when it is blocked (R86, R88). -/
theorem memRead_eq (s : State) (off : Nat) :
    s.memRead off =
      { s with
        status := { s.status with accerr := s.status.accerr || (s.isBusy && (slotAt s.cfg off).readBlocked) }
        reply := .data (s.readData (slotAt s.cfg off)) } := by
  unfold memRead afterRead
  cases h : (s.isBusy && (slotAt s.cfg off).readBlocked) <;> simp [setAccerr]

theorem memRead_idle (s : State) (off : Nat) (h : s.phase = .idle) :
    s.memRead off = { s with reply := .data (s.slotWord (slotAt s.cfg off)) } := by
  have hb := (isBusy_eq_false s).2 h
  simp [memRead, afterRead, readData, hb]

theorem memRead_unblocked (s : State) (off : Nat) (h : (slotAt s.cfg off).readBlocked = false) :
    s.memRead off = { s with reply := .data (s.slotWord (slotAt s.cfg off)) } := by
  simp [memRead, afterRead, readData, h]

theorem memRead_blocked (s : State) (off : Nat) (hb : s.isBusy = true) (h : (slotAt s.cfg off).readBlocked = true) :
    s.memRead off = { s.setAccerr with reply := .data 0 } := by
  simp [memRead, afterRead, readData, h, hb]

theorem memWrite_idle (s : State) (off : Nat) (v : Word) (h : s.phase = .idle) (hr : s.resetHeld = false) :
    s.memWrite off v = { s.writeSlot v (slotAt s.cfg off) with reply := .ack } := by
  have hb := (isBusy_eq_false s).2 h
  simp [memWrite, afterWrite, hb, hr]

/-- A write while the reset input stands asserted is taken and has no effect (R260). -/
theorem memWrite_held (s : State) (off : Nat) (v : Word) (hr : s.resetHeld = true) :
    s.memWrite off v = { s with reply := .ack } := by
  simp [memWrite, afterWrite, hr]

theorem memWrite_busy (s : State) (off : Nat) (v : Word) (hb : s.isBusy = true) (hr : s.resetHeld = false) :
    s.memWrite off v =
      { (if slotAt s.cfg off = .cmd then s.setCmdovr
        else if (slotAt s.cfg off).writeBlocked then s.setAccerr
        else s.writeSlot v (slotAt s.cfg off)) with reply := .ack } := by
  simp [memWrite, afterWrite, hb, hr]

/-- The slots a write reaches at any time but under reset: CTRL and STATUS; the others only while the engine is IDLE. -/
theorem memWrite_unblocked (s : State) (off : Nat) (v : Word) (hr : s.resetHeld = false) (hc : slotAt s.cfg off ≠ .cmd)
    (h : (slotAt s.cfg off).writeBlocked = false) :
    s.memWrite off v = { s.writeSlot v (slotAt s.cfg off) with reply := .ack } := by
  unfold memWrite afterWrite
  rw [hr, if_neg (by simp)]
  split
  · simp only [h, Bool.false_eq_true, if_false]
  · rfl

end State

theorem ite_eq_cases {p : Prop} [Decidable p] {a b x : Slot} (h : (if p then a else b) = x) :
    p ∧ a = x ∨ ¬p ∧ b = x := by
  by_cases hp : p
  · exact .inl ⟨hp, by rwa [if_pos hp] at h⟩
  · exact .inr ⟨hp, by rwa [if_neg hp] at h⟩

/-- The slots from offset 0x028 on. -/
theorem slotAt_large (c : Config) (off : Nat) (h : 0x028 ≤ off) :
    slotAt c off = .reserved ∨ (∃ w, slotAt c off = .buf w ∧ w < numWords c) ∨
      (∃ j, slotAt c off = .modulus j ∧ j < numWords c) ∨ ∃ i j, slotAt c off = .wide i j ∧ j < numWords c := by
  rcases hs : slotAt c off with _ | _ | _ | _ | _ | _ | _ | _ | _ | _ | w | j | ⟨i, j⟩ | _
  case reserved => exact .inl rfl
  all_goals
    unfold slotAt at hs
    iterate 10 (rcases ite_eq_cases hs with ⟨h', _⟩ | ⟨_, h'⟩
                · omega
                clear hs; rename _ = _ => hs)
    rcases ite_eq_cases hs with ⟨_, hs⟩ | ⟨_, hs⟩
    · cases hs
    rcases ite_eq_cases hs with ⟨_, hs⟩ | ⟨_, hs⟩
    · rcases ite_eq_cases hs with ⟨hn, hs⟩ | ⟨_, hs⟩ <;> cases hs <;> exact .inr (.inl ⟨_, rfl, hn⟩)
    rcases ite_eq_cases hs with ⟨_, hs⟩ | ⟨_, hs⟩
    · cases hs
    rcases ite_eq_cases hs with ⟨_, hs⟩ | ⟨_, hs⟩
    · rcases ite_eq_cases hs with ⟨hn, hs⟩ | ⟨_, hs⟩ <;> cases hs <;> exact .inr (.inr (.inl ⟨_, rfl, hn⟩))
    rcases ite_eq_cases hs with ⟨_, hs⟩ | ⟨_, hs⟩
    · cases hs
    rcases ite_eq_cases hs with ⟨_, hs⟩ | ⟨_, hs⟩
    · rcases ite_eq_cases hs with ⟨hn, hs⟩ | ⟨_, hs⟩ <;> cases hs <;> exact .inr (.inr (.inr ⟨_, _, rfl, hn⟩))
    · cases hs

/-- The offset of CMD. -/
theorem slotAt_eq_cmd (c : Config) (off : Nat) (h4 : off % 4 = 0) (h : slotAt c off = .cmd) : off = 0x010 := by
  by_cases hl : 0x028 ≤ off
  · rcases slotAt_large c off hl with e | ⟨_, e, _⟩ | ⟨_, e, _⟩ | ⟨_, _, e, _⟩ <;> rw [e] at h <;> cases h
  · have : off < 0x028 := by omega
    interval_cases off <;> first | rfl | omega | (simp [slotAt] at h)

/-- The offset of STATUS. -/
theorem slotAt_eq_status (c : Config) (off : Nat) (h4 : off % 4 = 0) (h : slotAt c off = .status) : off = 0x00C := by
  by_cases hl : 0x028 ≤ off
  · rcases slotAt_large c off hl with e | ⟨_, e, _⟩ | ⟨_, e, _⟩ | ⟨_, _, e, _⟩ <;> rw [e] at h <;> cases h
  · have : off < 0x028 := by omega
    interval_cases off <;> first | rfl | omega | (simp [slotAt] at h)

/-- The words of a buffer slot lie within BUF (R48). -/
theorem slotAt_buf_lt (c : Config) (off w : Nat) (h4 : off % 4 = 0) (h : slotAt c off = .buf w) : w < numWords c := by
  by_cases hl : 0x028 ≤ off
  · rcases slotAt_large c off hl with e | ⟨_, e, hn⟩ | ⟨_, e, _⟩ | ⟨_, _, e, _⟩ <;> rw [e] at h <;> cases h
    exact hn
  · have : off < 0x028 := by omega
    interval_cases off <;> first | omega | (simp [slotAt] at h)

/-- The words of a wide slot lie within the register (R31). -/
theorem slotAt_wide_lt (c : Config) (off j : Nat) (i : WReg) (h4 : off % 4 = 0) (h : slotAt c off = .wide i j) :
    j < numWords c := by
  by_cases hl : 0x028 ≤ off
  · rcases slotAt_large c off hl with e | ⟨_, e, _⟩ | ⟨_, e, _⟩ | ⟨_, _, e, hn⟩ <;> rw [e] at h <;> cases h
    exact hn
  · have : off < 0x028 := by omega
    interval_cases off <;> first | omega | (simp [slotAt] at h)

end Sys2Proof.Machine
end

