-- ==== Sys2Proof/Laws/Bytes.lean ====
section
/-! SUPPORT. Byte strings and their numbers (R15, R210): int_BE and BE in terms of base-256 digits, their round trip, the
block integer as a sum (R211), and its bounds (R213). -/

namespace Sys2Proof.Machine

theorem intBE_concat (bs : List Byte) (b : Byte) : intBE (bs ++ [b]) = intBE bs * 256 + b.toNat := by
  simp [intBE, List.foldl_append]

/-- int_BE reads a byte string as base-256 digits, the last byte the least significant. -/
theorem intBE_eq_ofDigits (bs : List Byte) : intBE bs = Nat.ofDigits 256 (bs.map BitVec.toNat).reverse := by
  induction bs using List.reverseRecOn with
  | nil => rfl
  | append_singleton bs b ih =>
    rw [intBE_concat, ih]
    simp [Nat.ofDigits_cons]
    ring

theorem intBE_cons (b : Byte) (bs : List Byte) : intBE (b :: bs) = b.toNat * 256 ^ bs.length + intBE bs := by
  rw [intBE_eq_ofDigits, intBE_eq_ofDigits]
  simp [Nat.ofDigits_append]
  ring

theorem intBE_lt (bs : List Byte) : intBE bs < 256 ^ bs.length := by
  rw [intBE_eq_ofDigits]
  have := Nat.ofDigits_lt_base_pow_length (b := 256) (l := (bs.map BitVec.toNat).reverse) (by omega)
    (by simp; intro b _; exact b.isLt)
  simpa using this

theorem lenBE_le_iff (m k : Nat) : lenBE m ≤ k ↔ m < 256 ^ k := by
  unfold lenBE
  have : (256 : Nat) ^ k = 2 ^ (8 * k) := by rw [pow_mul]; norm_num
  rw [this, ← bitlen_le_iff]
  omega

theorem lenBE_eq_digits (m : Nat) : lenBE m = (Nat.digits 256 m).length := by
  apply Nat.le_antisymm
  · rw [lenBE_le_iff]; exact Nat.lt_base_pow_length_digits (by omega)
  · have := (lenBE_le_iff m _).1 (le_refl (lenBE m))
    exact (Nat.digits_length_le_iff (by omega) m).2 this

theorem bytesBE_length (m : Nat) : (bytesBE m).length = lenBE m := by simp [bytesBE]

/-- BE(m) is the base-256 digits of m, the most significant first. -/
theorem bytesBE_map_toNat (m : Nat) : (bytesBE m).map BitVec.toNat = digitsBE m := by
  unfold digitsBE
  apply List.ext_getElem
  · simp [bytesBE_length, lenBE_eq_digits]
  · intro i h1 h2
    have hlen := lenBE_eq_digits m
    simp only [List.length_map, bytesBE_length] at h1
    have hd : (Nat.digits 256 m)[(Nat.digits 256 m).length - 1 - i]'(by omega) =
        m / 256 ^ ((Nat.digits 256 m).length - 1 - i) % 256 := by
      rw [← Nat.getD_digits m _ (by omega : 2 ≤ 256), List.getD_eq_getElem]
    rw [List.getElem_reverse, hd]
    simp only [bytesBE, List.getElem_map, List.getElem_range, BitVec.toNat_ofNat]
    rw [hlen]

theorem bytesBE_getD (m j : Nat) : ((bytesBE m).getD j 0).toNat = (digitsBE m).getD j 0 := by
  rw [← bytesBE_map_toNat]
  by_cases h : j < (bytesBE m).length
  · rw [List.getD_eq_getElem _ _ h, List.getD_eq_getElem _ _ (by simpa using h)]; simp
  · rw [List.getD_eq_default _ _ (by omega), List.getD_eq_default _ _ (by simpa using h)]; rfl

theorem bytesBE_head (m : Nat) (b : Byte) : (bytesBE m).head? = some b ↔ (digitsBE m).head? = some b.toNat := by
  rw [← bytesBE_map_toNat, List.head?_map]
  rcases (bytesBE m).head? with _ | x
  · simp
  · simp [BitVec.toNat_inj]

/-- A byte string with a first byte that is not zero is the minimal one of its number. -/
theorem bytesBE_intBE (b : Byte) (bs : List Byte) (hb : b ≠ 0) : bytesBE (intBE (b :: bs)) = b :: bs := by
  have hinj : Function.Injective (List.map (BitVec.toNat (w := 8))) :=
    List.map_injective_iff.2 fun x y h => BitVec.eq_of_toNat_eq h
  apply hinj
  rw [bytesBE_map_toNat, digitsBE, intBE_eq_ofDigits, Nat.digits_ofDigits 256 (by omega), List.reverse_reverse]
  · intro l hl
    simp at hl
    rcases hl with ⟨x, _, rfl⟩ | rfl
    · exact x.isLt
    · exact b.isLt
  · intro hne
    simp
    intro h
    exact hb (BitVec.eq_of_toNat_eq (by simpa using h))

/-! ### The block integer (R211, R213) -/

namespace State

theorem chunk_length (s : State) (len : Nat) : (s.chunk len).length = len := by simp [chunk]

theorem chunk_succ (s : State) (len : Nat) : s.chunk (len + 1) = s.chunk len ++ [s.readBuf len] := by
  simp [chunk, List.range_succ]

theorem intBE_chunk (s : State) (len : Nat) :
    intBE (s.chunk len) = ∑ i ∈ Finset.range len, (s.readBuf i).toNat * 256 ^ (len - 1 - i) := by
  induction len with
  | zero => rfl
  | succ len ih =>
    rw [chunk_succ, intBE_concat, ih, Finset.sum_range_succ, Finset.sum_mul]
    congr 1
    · apply Finset.sum_congr rfl
      intro i hi
      have hi := Finset.mem_range.1 hi
      rw [mul_assoc, ← pow_succ]
      congr 2
      omega
    · simp

/-- The block integer as the sum of R211. -/
theorem blockInt_eq (s : State) (len : Nat) :
    s.blockInt len =
      0xFF * 256 ^ len + ∑ i ∈ Finset.range len, (s.readBuf i).toNat * 256 ^ (len - 1 - i) := by
  rw [blockInt, intBE_cons, chunk_length, intBE_chunk]
  rfl

theorem blockInt_bounds (s : State) (len : Nat) :
    256 ^ len ≤ s.blockInt len ∧ s.blockInt len < 256 ^ (len + 1) := by
  have h := intBE_lt (s.chunk len)
  rw [chunk_length] at h
  have e : s.blockInt len = 255 * 256 ^ len + intBE (s.chunk len) := by
    rw [blockInt, intBE_cons, chunk_length]; rfl
  rw [e, pow_succ]
  omega

theorem bytesBE_blockInt (s : State) (len : Nat) : bytesBE (s.blockInt len) = 0xFF#8 :: s.chunk len :=
  bytesBE_intBE _ _ (by decide)

end State

/-! ### The payload of a decrypted block (R212) -/

theorem payloadByte_eq (m j : Nat) : payloadByte m j = (bytesBE m).getD (1 + j) 0 := by
  unfold payloadByte payloadLen
  split
  · rfl
  · rw [List.getD_eq_default]
    rw [bytesBE_length]; omega

theorem payloadLen_lt (m k : Nat) (h : m < 256 ^ k) (hk : 0 < k) : payloadLen m < k := by
  have := (lenBE_le_iff m k).2 h
  unfold payloadLen; omega

end Sys2Proof.Machine
end

