-- ==== Sys2Proof/Laws/Decode.lean ====
section
/-! SUPPORT. The fields of a packed command word as numbers, the fields of a decoded word as numbers, and the outcome of decoding. -/

namespace Sys2Proof

theorem or_shift (a b k : Nat) (h : a < 2 ^ k) : a ||| b <<< k = a + b * 2 ^ k := by
  rw [Nat.or_comm, ← Nat.shiftLeft_add_eq_or_of_lt h, Nat.shiftLeft_eq, Nat.add_comm]

theorem shifted_toNat (r : WReg) (k : Nat) (hk : k ≤ 28) :
    (BitVec.ofNat 32 r.val <<< k).toNat = r.val <<< k := by
  have h1 : r.val < 2 ^ 4 := r.isLt
  have h2 : r.val < 2 ^ 32 := by omega
  rw [BitVec.toNat_shiftLeft, BitVec.toNat_ofNat, Nat.mod_eq_of_lt h2, Nat.mod_eq_of_lt]
  rw [Nat.shiftLeft_eq]
  calc r.val * 2 ^ k < 2 ^ 4 * 2 ^ k := (Nat.mul_lt_mul_right (Nat.two_pow_pos k)).2 h1
    _ ≤ 2 ^ 4 * 2 ^ 28 := Nat.mul_le_mul_left _ (Nat.pow_le_pow_right (by omega) hk)
    _ = 2 ^ 32 := by norm_num

/-- A packed word as a number: its fields in their places (R110, R121). -/
theorem packWord_toNat (o : Byte) (rd ra rb rc : WReg) :
    (packWord o rd ra rb rc).toNat =
      o.toNat + rd.val * 2 ^ 8 + ra.val * 2 ^ 12 + rb.val * 2 ^ 16 + rc.val * 2 ^ 20 := by
  have ho := o.isLt
  have h1 := rd.isLt
  have h2 := ra.isLt
  have h3 := rb.isLt
  unfold packWord
  simp only [BitVec.toNat_or, shifted_toNat _ _ (by omega : 8 ≤ 28), shifted_toNat _ _ (by omega : 12 ≤ 28),
    shifted_toNat _ _ (by omega : 16 ≤ 28), shifted_toNat _ _ (by omega : 20 ≤ 28), BitVec.toNat_setWidth,
    Nat.mod_eq_of_lt (by omega : o.toNat < 2 ^ 32)]
  rw [or_shift _ _ 8 (by omega), or_shift _ _ 12 (by omega), or_shift _ _ 16 (by omega), or_shift _ _ 20 (by omega)]

theorem opcField_toNat (w : Word) : (opcField w).toNat = w.toNat % 0x100 := by
  unfold opcField; simp [BitVec.extractLsb'_toNat]

theorem rsvField_toNat (w : Word) : (rsvField w).toNat = w.toNat / 0x1000000 := by
  unfold rsvField
  have := w.isLt
  rw [BitVec.extractLsb'_toNat, Nat.shiftRight_eq_div_pow, Nat.mod_eq_of_lt (by omega)]

theorem rsvField_eq_zero (w : Word) : rsvField w = 0 ↔ w.toNat / 0x1000000 = 0 := by
  rw [← rsvField_toNat]
  exact ⟨fun h => by rw [h]; rfl, fun h => BitVec.eq_of_toNat_eq (by simpa using h)⟩

theorem regField_val (lo : Nat) (w : Word) : (regField lo w).val = w.toNat / 2 ^ lo % 16 := by
  unfold regField
  change (w.extractLsb' lo 4).toNat = _
  rw [BitVec.extractLsb'_toNat, Nat.shiftRight_eq_div_pow]

theorem opcField_packWord (o : Byte) (rd ra rb rc : WReg) : opcField (packWord o rd ra rb rc) = o := by
  apply BitVec.eq_of_toNat_eq
  rw [opcField_toNat, packWord_toNat]
  have := o.isLt
  omega

theorem rsvField_packWord (o : Byte) (rd ra rb rc : WReg) : rsvField (packWord o rd ra rb rc) = 0 := by
  rw [rsvField_eq_zero, packWord_toNat]
  have := o.isLt; have := rd.isLt; have := ra.isLt; have := rb.isLt; have := rc.isLt
  omega

theorem rdField_packWord (o : Byte) (rd ra rb rc : WReg) : rdField (packWord o rd ra rb rc) = rd := by
  apply Fin.ext
  rw [rdField, regField_val, packWord_toNat]
  have := o.isLt; have := rd.isLt; have := ra.isLt; have := rb.isLt; have := rc.isLt
  omega

theorem raField_packWord (o : Byte) (rd ra rb rc : WReg) : raField (packWord o rd ra rb rc) = ra := by
  apply Fin.ext
  rw [raField, regField_val, packWord_toNat]
  have := o.isLt; have := rd.isLt; have := ra.isLt; have := rb.isLt; have := rc.isLt
  omega

theorem rbField_packWord (o : Byte) (rd ra rb rc : WReg) : rbField (packWord o rd ra rb rc) = rb := by
  apply Fin.ext
  rw [rbField, regField_val, packWord_toNat]
  have := o.isLt; have := rd.isLt; have := ra.isLt; have := rb.isLt; have := rc.isLt
  omega

theorem rcField_packWord (o : Byte) (rd ra rb rc : WReg) : rcField (packWord o rd ra rb rc) = rc := by
  apply Fin.ext
  rw [rcField, regField_val, packWord_toNat]
  have := o.isLt; have := rd.isLt; have := ra.isLt; have := rb.isLt; have := rc.isLt
  omega

/-- A word is the packing of its own fields when its reserved bits are zero. -/
theorem packWord_fields (w : Word) (h : rsvField w = 0) :
    packWord (opcField w) (rdField w) (raField w) (rbField w) (rcField w) = w := by
  apply BitVec.eq_of_toNat_eq
  rw [rsvField_eq_zero] at h
  rw [packWord_toNat, opcField_toNat, rdField, raField, rbField, rcField]
  simp only [regField_val]
  omega

/-- The opcode map names a command exactly for the opcodes below 0x10 (R113, R116). -/
theorem decodeOpcode_eq_none (o : Nat) (rd ra rb rc : WReg) : decodeOpcode o rd ra rb rc = none ↔ 0x10 ≤ o := by
  constructor
  · intro h
    by_contra hc
    have ho : o < 0x10 := by omega
    interval_cases o <;> simp [decodeOpcode] at h
  · intro h
    unfold decodeOpcode
    split <;> first | rfl | omega


/-- What decoding to a command means: its opcode map entry, and zero reserved bits. -/
theorem decode_eq_instr (w : Word) (i : Instr) :
    decode w = .instr i ↔
      decodeOpcode (opcField w).toNat (rdField w) (raField w) (rbField w) (rcField w) = some i ∧ rsvField w = 0 := by
  unfold decode
  split
  · next h => simp [h]
  · next j h =>
    rw [h]
    by_cases hr : rsvField w = 0
    · simp only [hr, if_true, Decoded.instr.injEq, Option.some.injEq, and_true]
    · simp only [hr, if_false, and_false, reduceCtorEq]

theorem decode_eq_illegal (w : Word) : decode w = .illegalOpcode ↔ 0x10 ≤ w.toNat % 0x100 := by
  rw [← opcField_toNat, ← decodeOpcode_eq_none _ (rdField w) (raField w) (rbField w) (rcField w)]
  unfold decode
  split
  · next h => simp [h]
  · next j h =>
    rw [h]
    by_cases hr : rsvField w = 0
    · simp only [if_pos hr, reduceCtorEq]
    · simp only [if_neg hr, reduceCtorEq]

theorem decode_eq_reserved (w : Word) :
    decode w = .reservedBits ↔ w.toNat % 0x100 < 0x10 ∧ w.toNat / 0x1000000 ≠ 0 := by
  have hn := decodeOpcode_eq_none (opcField w).toNat (rdField w) (raField w) (rbField w) (rcField w)
  rw [opcField_toNat] at hn
  rw [Ne, ← rsvField_eq_zero]
  unfold decode
  split
  · next h =>
    rw [opcField_toNat] at h
    have := hn.1 h
    simp; omega
  · next j h =>
    have hlt : w.toNat % 0x100 < 0x10 := by
      by_contra hc
      rw [opcField_toNat, hn.2 (by omega)] at h
      cases h
    by_cases hr : rsvField w = 0
    · simp only [hr, if_true, reduceCtorEq, not_true_eq_false, and_false]
    · simp only [hr, if_false, hlt, not_false_eq_true, and_true]

end Sys2Proof
end

