-- ==== Sys2Proof/Laws/Driver.lean ====
section
/-! SUPPORT. What the host driver's accesses do to an idle block: the words of a wide value bit by bit (R31), a register or a chunk
loaded word by word and read back (R48, R125), and a command issued and waited for (R230, R231). -/

namespace Sys2Proof.Machine

/-! ### Words of a wide value -/

theorem wordOf_getLsbD (x j k : Nat) (h : k < 32) : (wordOf x j).getLsbD k = x.testBit (32 * j + k) := by
  unfold wordOf
  rw [BitVec.getLsbD_ofNat, ← Nat.shiftRight_eq_div_pow, Nat.testBit_shiftRight]
  simp [h]

theorem wordOf_toNat (x j : Nat) : (wordOf x j).toNat = x / 2 ^ (32 * j) % 2 ^ 32 := by
  unfold wordOf; rw [BitVec.toNat_ofNat]

theorem withWord_testBit (x j : Nat) (v : Word) (k : Nat) :
    (withWord x j v).testBit k =
      if 32 * j ≤ k ∧ k < 32 * j + 32 then v.getLsbD (k - 32 * j) else x.testBit k := by
  unfold withWord
  have hv := v.isLt
  have e : x / 2 ^ (32 * (j + 1)) * 2 ^ (32 * (j + 1)) + v.toNat * 2 ^ (32 * j) + x % 2 ^ (32 * j) =
      2 ^ (32 * j) * (2 ^ 32 * (x / 2 ^ (32 * (j + 1))) + v.toNat) + x % 2 ^ (32 * j) := by
    rw [show 32 * (j + 1) = 32 * j + 32 by ring, pow_add]; ring
  rw [e, Nat.testBit_two_pow_mul_add _ (Nat.mod_lt _ (Nat.two_pow_pos _)), Nat.testBit_two_pow_mul_add _ hv,
    Nat.testBit_mod_two_pow, ← Nat.shiftRight_eq_div_pow, Nat.testBit_shiftRight]
  by_cases h1 : k < 32 * j
  · rw [if_pos h1, if_neg (by omega)]; simp [h1]
  · by_cases h2 : k < 32 * j + 32
    · rw [if_neg h1, if_pos (by omega), if_pos (by omega)]; rfl
    · rw [if_neg h1, if_neg (by omega), if_neg (by omega), show 32 * (j + 1) + (k - 32 * j - 32) = k by omega]

theorem radix_eq_words {c : Config} (h : c.Legal) : radix c = 2 ^ (32 * numWords c) := by
  unfold radix numWords
  congr 1
  have := h.2.2.1
  omega

/-- Writing a word of a wide value keeps it in range (R10, R31). -/
theorem withWord_lt {c : Config} (hl : c.Legal) (x j : Nat) (v : Word) (hx : x < radix c) (hj : j < numWords c) :
    withWord x j v < radix c := by
  rw [radix_eq_words hl] at *
  apply Nat.lt_pow_two_of_testBit
  intro k hk
  rw [withWord_testBit, if_neg (by omega)]
  exact Nat.testBit_lt_two_pow (lt_of_lt_of_le hx (Nat.pow_le_pow_right (by omega) hk))

/-! ### Bytes of a buffer word -/

theorem byteOf_word (v : Word) (b : Nat) : (v.extractLsb' (8 * b) 8).toNat = v.toNat / 256 ^ b % 256 := by
  rw [BitVec.extractLsb'_toNat, Nat.shiftRight_eq_div_pow, pow_mul]
  rfl

theorem wordOfBytes_toNat (a b c d : Byte) :
    (a ++ b ++ c ++ d : Word).toNat = a.toNat * 256 ^ 3 + b.toNat * 256 ^ 2 + c.toNat * 256 + d.toNat := by
  have := b.isLt
  have := c.isLt
  have := d.isLt
  simp only [BitVec.toNat_append]
  rw [← Nat.shiftLeft_add_eq_or_of_lt (by omega), ← Nat.shiftLeft_add_eq_or_of_lt (by omega),
    ← Nat.shiftLeft_add_eq_or_of_lt (by omega)]
  simp only [Nat.shiftLeft_eq]
  ring

/-- Lane b of a word made of four bytes. -/
theorem lane_wordOfBytes (f : Nat → Byte) (b : Nat) (hb : b < 4) :
    (f 3 ++ f 2 ++ f 1 ++ f 0 : Word).extractLsb' (8 * b) 8 = f b := by
  apply BitVec.eq_of_toNat_eq
  rw [byteOf_word, wordOfBytes_toNat]
  have := (f 0).isLt
  have := (f 1).isLt
  have := (f 2).isLt
  have := (f 3).isLt
  interval_cases b <;> simp <;> omega

theorem bufWord_lane (s : State) (w b : Nat) (hb : b < 4) :
    (s.bufWord w).extractLsb' (8 * b) 8 = s.readBuf (4 * w + b) :=
  lane_wordOfBytes (fun b => s.readBuf (4 * w + b)) b hb

namespace State

/-! ### Loading a register -/

theorem hostWrites_concat (s : State) (ws : List (Nat × Word)) (a : Nat × Word) :
    s.hostWrites (ws ++ [a]) = (s.hostWrites ws).memWrite a.1 a.2 := by
  simp [hostWrites]

theorem memWrite_wide (s : State) (hl : s.cfg.Legal) (hi : s.phase = .idle)
    (hr : s.resetHeld = false) (i : WReg) (j : Nat) (hj : j < numWords s.cfg)
    (v : Word) :
    s.memWrite (0x4000 + 0x400 * i.val + 4 * j) v = { s.setW i (withWord (s.readW i) j v) with reply := .ack } := by
  have hn := legal_words hl
  have hs := slotAt_wide s.cfg i j hj (by omega)
  rw [wideOffset] at hs
  rw [memWrite_idle _ _ _ hi hr, hs]
  rfl

theorem setW_readW (s : State) (i : WReg) : s.setW i (s.readW i) = s := by
  unfold setW readW; simp

/-- LDW (R125): an idle block takes a wide value word by word. -/
theorem loadWide_eq (s : State) (hl : s.cfg.Legal) (hi : s.phase = .idle) (hh : s.resetHeld = false) (i : WReg) (v : Nat) (hv : v < radix s.cfg)
    (hx : s.readW i < radix s.cfg) : ∃ r, s.loadWide i v = { s.setW i v with reply := r } := by
  have key : ∀ k, k ≤ numWords s.cfg → ∃ x r,
      s.hostWrites ((List.range k).map fun j => (0x4000 + 0x400 * i.val + 4 * j, wordOf v j)) =
        { s.setW i x with reply := r } ∧
      ∀ b, x.testBit b = if b < 32 * k then v.testBit b else (s.readW i).testBit b := by
    intro k
    induction k with
    | zero => exact fun _ => ⟨s.readW i, s.reply, by rw [setW_readW]; rfl, by simp⟩
    | succ k ih =>
      intro hk
      obtain ⟨x, r, he, hb⟩ := ih (by omega)
      refine ⟨withWord x k (wordOf v k), .ack, ?_, fun b => ?_⟩
      · rw [List.range_succ, List.map_append, List.map_singleton, hostWrites_concat, he, memWrite_wide _ (by exact hl) (by exact hi) (by exact hh) _ _ (by exact hk)]
        simp [setW, readW]
      · rw [withWord_testBit, hb]
        split
        · next h => rw [if_pos (by omega), wordOf_getLsbD _ _ _ (by omega)]; congr 1; omega
        · next h =>
          by_cases hlt : b < 32 * k
          · rw [if_pos hlt, if_pos (by omega)]
          · rw [if_neg hlt, if_neg (by omega)]
  obtain ⟨x, r, he, hb⟩ := key _ le_rfl
  have hxv : x = v := by
    rw [radix_eq_words hl] at hv hx
    apply Nat.eq_of_testBit_eq
    intro b
    rw [hb]
    split
    · rfl
    · next h =>
      rw [Nat.testBit_lt_two_pow (lt_of_lt_of_le hx (Nat.pow_le_pow_right (by omega) (by omega))),
        Nat.testBit_lt_two_pow (lt_of_lt_of_le hv (Nat.pow_le_pow_right (by omega) (by omega)))]
  rw [hxv] at he
  exact ⟨r, he⟩

/-- A wide register reads back word by word (R31). -/
theorem hostReadWide_eq (s : State) (hl : s.cfg.Legal) (hi : s.phase = .idle) (i : WReg) (hx : s.readW i < radix s.cfg) :
    s.hostReadWide i = s.readW i := by
  have hn := legal_words hl
  have key : ∀ k, k ≤ numWords s.cfg →
      (List.range k).foldl
        (fun acc j => acc + (s.hostRead (0x4000 + 0x400 * i.val + 4 * j)).toNat * 2 ^ (32 * j)) 0 =
        s.readW i % 2 ^ (32 * k) := by
    intro k
    induction k with
    | zero => intro _; simp [Nat.mod_one]
    | succ k ih =>
      intro hk
      have hs := slotAt_wide s.cfg i k hk (by omega)
      rw [wideOffset] at hs
      have hb := (isBusy_eq_false s).2 hi
      have hr : s.hostRead (0x4000 + 0x400 * i.val + 4 * k) = wordOf (s.readW i) k := by
        simp only [hostRead, hs, readData, hb, Bool.false_and, Bool.false_eq_true, if_false, slotWord]
      rw [List.range_succ, List.foldl_append, ih (by omega)]
      simp only [List.foldl_cons, List.foldl_nil]
      rw [hr, wordOf_toNat, show 32 * (k + 1) = 32 * k + 32 by ring, pow_add, Nat.mod_mul]
      ring
  unfold hostReadWide
  rw [key _ le_rfl, ← radix_eq_words hl, Nat.mod_eq_of_lt hx]

/-! ### Loading a chunk -/

theorem memWrite_buf (s : State) (hl : s.cfg.Legal) (hi : s.phase = .idle) (hr : s.resetHeld = false) (w : Nat) (hw : w < numWords s.cfg) (v : Word) :
    s.memWrite (0x800 + 4 * w) v = { s.setBufWord w v with reply := .ack } := by
  have hn := legal_words hl
  rw [memWrite_idle _ _ _ hi hr, slotAt_buf s.cfg w hw (by omega)]
  rfl

/-- A chunk loaded into BUF (R220): its bytes stand from BUF[0] on, and nothing but BUF and the bus answer changes. -/
theorem loadChunk_eq (s : State) (hl : s.cfg.Legal) (hi : s.phase = .idle) (hh : s.resetHeld = false) (hm : Memory.wf s.buf = true) (chunk : List Byte)
    (hc : chunk.length ≤ numBytes s.cfg) :
    ∃ m r, s.loadChunk chunk = { s with buf := m, reply := r } ∧ Memory.wf m = true ∧
      ∀ j, j < chunk.length → Memory.read m j = chunk.getD j 0 := by
  have hn := legal_words hl
  have key : ∀ k, k ≤ numWords s.cfg → ∃ m r,
      s.hostWrites
        ((List.range k).map fun w =>
          (0x800 + 4 * w,
            chunk.getD (4 * w + 3) 0 ++ chunk.getD (4 * w + 2) 0 ++ chunk.getD (4 * w + 1) 0 ++
              chunk.getD (4 * w) 0)) = { s with buf := m, reply := r } ∧ Memory.wf m = true ∧
      ∀ j, j < 4 * k → Memory.read m j = chunk.getD j 0 := by
    intro k
    induction k with
    | zero => exact fun _ => ⟨s.buf, s.reply, rfl, hm, by simp⟩
    | succ k ih =>
      intro hk
      obtain ⟨m, r, he, hw, hr⟩ := ih (by omega)
      refine ⟨_, .ack, ?_, Memory.wf_fill m hw (4 * k) 4 fun b =>
        (chunk.getD (4 * k + 3) 0 ++ chunk.getD (4 * k + 2) 0 ++ chunk.getD (4 * k + 1) 0 ++
          chunk.getD (4 * k) 0 : Word).extractLsb' (8 * b) 8, fun j hj => ?_⟩
      · rw [List.range_succ, List.map_append, List.map_singleton, hostWrites_concat, he, memWrite_buf _ (by exact hl) (by exact hi) (by exact hh) _ (by exact hk)]
        rfl
      · rw [Memory.read_fill m hw]
        split
        · next h =>
          refine (lane_wordOfBytes (fun b => chunk.getD (4 * k + b) 0) (j - 4 * k) (by omega)).trans ?_
          change chunk.getD (4 * k + (j - 4 * k)) 0 = _
          rw [show 4 * k + (j - 4 * k) = j by omega]
        · exact hr j (by omega)
  obtain ⟨m, r, he, hw, hr⟩ := key ((chunk.length + 3) / 4) (by omega)
  exact ⟨m, r, he, hw, fun j hj => hr j (by omega)⟩

/-- The bytes of BUF read back by words (R48). -/
theorem hostReadBuf_eq (s : State) (hl : s.cfg.Legal) (hi : s.phase = .idle) (len : Nat) (h : len ≤ numBytes s.cfg) :
    s.hostReadBuf len = (List.range len).map s.readBuf := by
  have hn := legal_words hl
  have hb := (isBusy_eq_false s).2 hi
  unfold hostReadBuf
  apply List.map_congr_left
  intro j hj
  rw [List.mem_range] at hj
  have hs := slotAt_buf s.cfg (j / 4) (by omega) (by omega)
  have hr : s.hostRead (0x800 + 4 * (j / 4)) = s.bufWord (j / 4) := by
    simp only [hostRead, hs, readData, hb, Bool.false_and, Bool.false_eq_true, if_false, slotWord]
  rw [hr, bufWord_lane _ _ _ (by omega)]
  congr 1
  omega

/-! ### A command issued and waited for -/

/-- ISSUE and WAIT of a command that completes in its one step: the command runs on the state its accept leaves. -/
theorem issueAndWait_eq (s t : State) (hi : s.phase = .idle) (hr : s.resetHeld = false) (i : Instr) (hd : decode (encode i) = .instr i)
    (h : exec i { s.accept (encode i) with reply := .ack } = .next t) : s.issueAndWait i = t := by
  have hs : slotAt s.cfg 0x010 = .cmd := rfl
  unfold issueAndWait
  rw [memWrite_idle _ _ _ hi hr, hs]
  change (match runWord (encode i) { s.accept (encode i) with reply := .ack } with
    | .next t => t
    | .fault _ => s
    | .refused _ => s) = t
  unfold runWord
  rw [hd]
  simp only [h]

theorem memWrite_arg0 (s : State) (hi : s.phase = .idle) (hr : s.resetHeld = false) (v : Word) :
    s.memWrite 0x014 v = { s with arg0 := v, reply := .ack } := memWrite_idle _ _ _ hi hr

/-- A command issued to an idle block (R230, R231): it runs on the state its accept leaves. -/
theorem issued_of_exec (s t : State) (hi : s.phase = .idle) (hr : s.resetHeld = false) (i : Instr)
    (hd : decode (encode i) = .instr i) (h : exec i { s.accept (encode i) with reply := .ack } = .next t) :
    Issued i s t := by
  refine ⟨{ s.accept (encode i) with reply := .ack }, ?_, ?_⟩
  · unfold hostIssue
    rw [actFirst_hostWr s 0x010 _ (by decide) (by decide), memWrite_idle _ _ _ hi hr]
    rfl
  · change runWord (encode i) _ = _
    unfold runWord
    rw [hd]
    exact h

end State

end Sys2Proof.Machine
end

