-- ==== Sys2Proof/Laws/Exec.lean ====
section
/-! SUPPORT. What each command can do in one step, said once: if `exec` answers a next state, then one of these cases holds.
Later proofs cite these lemmas instead of unfolding the meanings. -/

namespace Sys2Proof.Machine

/-! ### Pre-checks -/

theorem check_of {bad : Prop} [Decidable bad] (code : ErrCode) (s : State) (k : Result) (h : bad) :
    check bad code s k = .next (s.raise code) := if_pos h

theorem check_of_not {bad : Prop} [Decidable bad] (code : ErrCode) (s : State) (k : Result) (h : ¬bad) :
    check bad code s k = k := if_neg h

/-- A pre-check ends the command with its error, or goes on. -/
theorem check_cases {bad : Prop} [Decidable bad] {code : ErrCode} {s t : State} {k : Result}
    (h : check bad code s k = .next t) : bad ∧ t = s.raise code ∨ ¬bad ∧ k = .next t := by
  unfold check at h
  split at h
  · next hb => cases h; exact .inl ⟨hb, rfl⟩
  · next hb => exact .inr ⟨hb, h⟩

theorem checkModulus_of_valid (s : State) (k : Result) (h : s.status.modv = true) : checkModulus s k = k :=
  check_of_not _ _ _ (by simp [h])

theorem checkModulus_of_invalid (s : State) (k : Result) (h : s.status.modv = false) :
    checkModulus s k = .next (s.raise .noModulus) := check_of _ _ _ h

theorem checkModulus_cases {s t : State} {k : Result} (h : checkModulus s k = .next t) :
    s.status.modv = false ∧ t = s.raise .noModulus ∨ s.status.modv = true ∧ k = .next t := by
  rcases check_cases h with h | ⟨h, hk⟩
  · exact .inl h
  · exact .inr ⟨by simpa using h, hk⟩

theorem checkOddModulus_of_odd (s : State) (k : Result) (h : s.status.modv = true) (ho : s.n % 2 = 1) :
    checkOddModulus s k = k := by
  unfold checkOddModulus
  rw [checkModulus_of_valid _ _ h, check_of_not _ _ _ (by omega)]

theorem checkOddModulus_of_even (s : State) (k : Result) (h : s.status.modv = true) (he : s.n % 2 = 0) :
    checkOddModulus s k = .next (s.raise .evenModulus) := by
  unfold checkOddModulus
  rw [checkModulus_of_valid _ _ h, check_of _ _ _ he]

theorem checkOddModulus_cases {s t : State} {k : Result} (h : checkOddModulus s k = .next t) :
    s.status.modv = false ∧ t = s.raise .noModulus ∨
      s.status.modv = true ∧ s.n % 2 = 0 ∧ t = s.raise .evenModulus ∨
        s.status.modv = true ∧ s.n % 2 = 1 ∧ k = .next t := by
  rcases checkModulus_cases h with h | ⟨hm, h⟩
  · exact .inl h
  · rcases check_cases h with ⟨he, ht⟩ | ⟨he, hk⟩
    · exact .inr (.inl ⟨hm, he, ht⟩)
    · exact .inr (.inr ⟨hm, by omega, hk⟩)

/-! ### The commands -/

section
variable {s t : State}

theorem exec_nop_cases (h : exec .nop s = .next t) : t = s.complete false 0 := by cases h; rfl

theorem exec_setmod_cases {ra : WReg} (h : exec (.setmod ra) s = .next t) :
    s.readW ra < 2 ∧ t = s.raise .badModulus ∨
      2 ≤ s.readW ra ∧ t = (s.setModulus (s.readW ra)).complete false 0 := by
  rcases check_cases h with h | ⟨h, hk⟩
  · exact .inl h
  · cases hk; exact .inr ⟨by omega, rfl⟩

theorem exec_gcd_cases {rd ra rb : WReg} (h : exec (.gcd rd ra rb) s = .next t) :
    t = (s.setW rd (Nat.gcd (s.readW ra) (s.readW rb))).complete false 0 := by
  cases h; rw [euclid_eq_gcd]

theorem exec_modinv_cases {rd ra rb : WReg} (h : exec (.modinv rd ra rb) s = .next t) :
    s.readW rb = 0 ∧ t = s.raise .divByZero ∨
      0 < s.readW rb ∧ ¬Nat.Coprime (s.readW ra) (s.readW rb) ∧ t = (s.setW rd 0).complete false 0 ∨
        0 < s.readW rb ∧ Nat.Coprime (s.readW ra) (s.readW rb) ∧
          t = (s.setW rd (modInverse (s.readW ra) (s.readW rb))).complete true 0 := by
  rcases check_cases h with h | ⟨h, hk⟩
  · exact .inl h
  · rw [euclid_eq_gcd] at hk
    have hpos : 0 < Nat.gcd (s.readW ra) (s.readW rb) := Nat.gcd_pos_of_pos_right _ (by omega)
    split at hk
    · next hg => cases hk; exact .inr (.inl ⟨by omega, fun hc => by unfold Nat.Coprime at hc; omega, rfl⟩)
    · next hg => cases hk; exact .inr (.inr ⟨by omega, by unfold Nat.Coprime; omega, rfl⟩)

theorem exec_mul_cases {rd rc ra rb : WReg} (h : exec (.mul rd rc ra rb) s = .next t) :
    t = ((s.setW rd (s.readW ra * s.readW rb % radix s.cfg)).setW rc
      (s.readW ra * s.readW rb / radix s.cfg)).complete false 0 := by cases h; rfl

theorem exec_breduce_cases {rd ra rb : WReg} (h : exec (.breduce rd ra rb) s = .next t) :
    s.status.modv = false ∧ t = s.raise .noModulus ∨
      s.status.modv = true ∧
        t = (s.setW rd ((s.readW ra * radix s.cfg + s.readW rb) % s.n)).complete false 0 := by
  rcases checkModulus_cases h with h | ⟨hm, hk⟩
  · exact .inl h
  · cases hk; exact .inr ⟨hm, rfl⟩

theorem exec_modmul_cases {rd ra rb : WReg} (h : exec (.modmul rd ra rb) s = .next t) :
    s.status.modv = false ∧ t = s.raise .noModulus ∨
      s.status.modv = true ∧ t = (s.setW rd (s.readW ra * s.readW rb % s.n)).complete false 0 := by
  rcases checkModulus_cases h with h | ⟨hm, hk⟩
  · exact .inl h
  · cases hk; exact .inr ⟨hm, rfl⟩

theorem exec_montmul_cases {rd ra rb : WReg} (h : exec (.montmul rd ra rb) s = .next t) :
    s.status.modv = false ∧ t = s.raise .noModulus ∨
      s.status.modv = true ∧ s.n % 2 = 0 ∧ t = s.raise .evenModulus ∨
        s.status.modv = true ∧ s.n % 2 = 1 ∧
          t = (s.setW rd (s.readW ra * s.readW rb * montRinv s.cfg s.n % s.n)).complete false 0 := by
  rcases checkOddModulus_cases h with h | h | ⟨hm, ho, hk⟩
  · exact .inl h
  · exact .inr (.inl h)
  · cases hk; exact .inr (.inr ⟨hm, ho, rfl⟩)

theorem exec_montin_cases {rd ra : WReg} (h : exec (.montin rd ra) s = .next t) :
    s.status.modv = false ∧ t = s.raise .noModulus ∨
      s.status.modv = true ∧ s.n % 2 = 0 ∧ t = s.raise .evenModulus ∨
        s.status.modv = true ∧ s.n % 2 = 1 ∧
          t = (s.setW rd (s.readW ra * radix s.cfg % s.n)).complete false 0 := by
  rcases checkOddModulus_cases h with h | h | ⟨hm, ho, hk⟩
  · exact .inl h
  · exact .inr (.inl h)
  · cases hk; exact .inr (.inr ⟨hm, ho, rfl⟩)

theorem exec_montout_cases {rd ra : WReg} (h : exec (.montout rd ra) s = .next t) :
    s.status.modv = false ∧ t = s.raise .noModulus ∨
      s.status.modv = true ∧ s.n % 2 = 0 ∧ t = s.raise .evenModulus ∨
        s.status.modv = true ∧ s.n % 2 = 1 ∧
          t = (s.setW rd (s.readW ra * montRinv s.cfg s.n % s.n)).complete false 0 := by
  rcases checkOddModulus_cases h with h | h | ⟨hm, ho, hk⟩
  · exact .inl h
  · exact .inr (.inl h)
  · cases hk; exact .inr (.inr ⟨hm, ho, rfl⟩)

theorem exec_powmod_cases {rd ra rb : WReg} (h : exec (.powmod rd ra rb) s = .next t) :
    s.status.modv = false ∧ t = s.raise .noModulus ∨
      s.status.modv = true ∧ t = (s.setW rd (powMod (s.readW ra) (s.readW rb) s.n)).complete false 0 := by
  rcases checkModulus_cases h with h | ⟨hm, hk⟩
  · exact .inl h
  · cases hk; exact .inr ⟨hm, rfl⟩

theorem exec_verify_cases {ra rb rc : WReg} (h : exec (.verify ra rb rc) s = .next t) :
    s.status.modv = false ∧ t = s.raise .noModulus ∨
      s.status.modv = true ∧
        t = s.complete (decide (powMod (s.readW ra) (s.readW rb) s.n = s.readW rc)) 0 := by
  rcases checkModulus_cases h with h | ⟨hm, hk⟩
  · exact .inl h
  · cases hk; exact .inr ⟨hm, rfl⟩

theorem exec_mrtest_cases {ra : WReg} (h : exec (.mrtest ra) s = .next t) :
    millerRabin (s.readW ra) s.arg1.toNat s.port = none ∧ t = s ∨
      ∃ f p, millerRabin (s.readW ra) s.arg1.toNat s.port = some (f, p) ∧
        t = { s with port := p }.complete f 0 := by
  change execMrtest ra s = _ at h
  unfold execMrtest at h
  rcases hm : millerRabin (s.readW ra) s.arg1.toNat s.port with _ | ⟨f, p⟩
  · simp only [hm] at h; cases h; exact .inl ⟨rfl, rfl⟩
  · simp only [hm] at h; cases h; exact .inr ⟨f, p, rfl, rfl⟩

theorem exec_primegen_cases {rd : WReg} (h : exec (.primegen rd) s = .next t) :
    (s.arg0.toNat < 2 ∨ s.cfg.nbits < s.arg0.toNat) ∧ t = s.raise .badArg ∨
      (2 ≤ s.arg0.toNat ∧ s.arg0.toNat ≤ s.cfg.nbits) ∧
        (primeAttempt s.arg0.toNat s.arg1.toNat s.port = none ∧ t = s ∨
          ∃ a, primeAttempt s.arg0.toNat s.arg1.toNat s.port = some a ∧
            (a.accepted = true ∧
                t = ({ s with port := a.port }.setW rd a.candidate).complete false (countUp s.attempts) ∨
              a.accepted = false ∧
                t = { s with port := a.port }.stayBusy (countUp s.attempts) a.candidate)) := by
  rcases check_cases h with h | ⟨hb, h⟩
  · exact .inl h
  · refine .inr ⟨by omega, ?_⟩
    rcases hm : primeAttempt s.arg0.toNat s.arg1.toNat s.port with _ | a
    · simp only [hm] at h; cases h; exact .inl ⟨rfl, rfl⟩
    · simp only [hm] at h
      refine .inr ⟨a, rfl, ?_⟩
      split at h
      · next ha => cases h; exact .inl ⟨ha, rfl⟩
      · next ha => cases h; exact .inr ⟨by simpa using ha, rfl⟩

theorem exec_blkenc_cases {rd rb : WReg} (h : exec (.blkenc rd rb) s = .next t) :
    s.status.modv = false ∧ t = s.raise .noModulus ∨
      s.status.modv = true ∧
        (s.blksz.toNat < 2 ∧ t = s.raise .keyTooSmall ∨
          2 ≤ s.blksz.toNat ∧
            ((s.arg0.toNat < 1 ∨ s.blksz.toNat - 1 < s.arg0.toNat) ∧ t = s.raise .badArg ∨
              (1 ≤ s.arg0.toNat ∧ s.arg0.toNat ≤ s.blksz.toNat - 1) ∧
                t = (s.setW rd (powMod (s.blockInt s.arg0.toNat) (s.readW rb) s.n)).complete false 0)) := by
  rcases checkModulus_cases h with h | ⟨hm, h⟩
  · exact .inl h
  · refine .inr ⟨hm, ?_⟩
    rcases check_cases h with h | ⟨hk, h⟩
    · exact .inl h
    · refine .inr ⟨by omega, ?_⟩
      rcases check_cases h with h | ⟨hb, h⟩
      · exact .inl h
      · cases h; exact .inr ⟨by omega, rfl⟩

theorem exec_blkdec_cases {rd ra rb : WReg} (h : exec (.blkdec rd ra rb) s = .next t) :
    s.status.modv = false ∧ t = s.raise .noModulus ∨
      s.status.modv = true ∧
        t = ((s.fillBuf (payloadByte (powMod (s.readW ra) (s.readW rb) s.n))).setW rd
          (powMod (s.readW ra) (s.readW rb) s.n)).complete
            (markerFound (powMod (s.readW ra) (s.readW rb) s.n))
            (payloadLen (powMod (s.readW ra) (s.readW rb) s.n)) := by
  rcases checkModulus_cases h with h | ⟨hm, hk⟩
  · exact .inl h
  · cases hk; exact .inr ⟨hm, rfl⟩

end

/-! ### Every command -/

theorem check_answers {bad : Prop} [Decidable bad] (code : ErrCode) (s : State) (k : Result)
    (h : ∃ t, k = .next t) : ∃ t, check bad code s k = .next t := by
  by_cases hb : bad
  · exact ⟨_, check_of _ _ _ hb⟩
  · rw [check_of_not _ _ _ hb]; exact h

/-- The engine's execution of a command never faults and is never refused. -/
theorem exec_answers (i : Instr) (s : State) : ∃ t, exec i s = .next t := by
  cases i
  case nop => exact ⟨_, rfl⟩
  case setmod ra => exact check_answers _ _ _ ⟨_, rfl⟩
  case gcd rd ra rb => exact ⟨_, rfl⟩
  case modinv rd ra rb => refine check_answers _ _ _ ?_; split <;> exact ⟨_, rfl⟩
  case mul rd rc ra rb => exact ⟨_, rfl⟩
  case breduce rd ra rb => exact check_answers _ _ _ ⟨_, rfl⟩
  case modmul rd ra rb => exact check_answers _ _ _ ⟨_, rfl⟩
  case montmul rd ra rb => exact check_answers _ _ _ (check_answers _ _ _ ⟨_, rfl⟩)
  case montin rd ra => exact check_answers _ _ _ (check_answers _ _ _ ⟨_, rfl⟩)
  case montout rd ra => exact check_answers _ _ _ (check_answers _ _ _ ⟨_, rfl⟩)
  case powmod rd ra rb => exact check_answers _ _ _ ⟨_, rfl⟩
  case verify ra rb rc => exact check_answers _ _ _ ⟨_, rfl⟩
  case mrtest ra =>
    change ∃ t, execMrtest ra s = .next t
    unfold execMrtest
    split <;> exact ⟨_, rfl⟩
  case primegen rd =>
    refine check_answers _ _ _ ?_
    split
    · exact ⟨_, rfl⟩
    · split <;> exact ⟨_, rfl⟩
  case blkenc rd rb => exact check_answers _ _ _ (check_answers _ _ _ (check_answers _ _ _ ⟨_, rfl⟩))
  case blkdec rd ra rb => exact check_answers _ _ _ ⟨_, rfl⟩

/-- What any command can do: an error completion, a successful completion of an updated state, a hold while the port
supplies nothing, or one more attempt of PRIMEGEN. -/
inductive ExecShape (i : Instr) (s t : State) : Prop where
  | failed (code : ErrCode) (hc : code ≠ .none) (ht : t = s.raise code)
  | completed (u : State) (f : Bool) (r : Nat) (ht : t = u.complete f r) (hp : u.phase = s.phase)
      (hm : SameHostSide s u)
  | held (hd : TakesDraws i) (ht : t = s)
  | attempted (p : Port) (k x : Nat) (hd : TakesDraws i) (ht : t = { s with port := p }.stayBusy k x)

theorem SameHostSide.refl (s : State) : SameHostSide s s := ⟨rfl, rfl, rfl, rfl, rfl, rfl, rfl, rfl, rfl, rfl⟩

theorem exec_shape (i : Instr) (s t : State) (h : exec i s = .next t) : ExecShape i s t := by
  have same : ∀ u : State, u.cfg = s.cfg → u.ie = s.ie → u.cmd = s.cmd → u.arg0 = s.arg0 → u.arg1 = s.arg1 →
      u.status.cmdovr = s.status.cmdovr → u.status.accerr = s.status.accerr → u.pending = s.pending →
      u.reply = s.reply → u.resetHeld = s.resetHeld → SameHostSide s u :=
    fun _ a b c d e f g h i j => ⟨a, b, c, d, e, f, g, h, i, j⟩
  cases i
  case nop => exact .completed s _ _ (exec_nop_cases h) rfl (.refl s)
  case setmod ra =>
    rcases exec_setmod_cases h with ⟨_, ht⟩ | ⟨_, ht⟩
    · exact .failed _ (by decide) ht
    · exact .completed _ _ _ ht rfl (by apply same <;> rfl)
  case gcd rd ra rb => exact .completed _ _ _ (exec_gcd_cases h) rfl (by apply same <;> rfl)
  case modinv rd ra rb =>
    rcases exec_modinv_cases h with ⟨_, ht⟩ | ⟨_, _, ht⟩ | ⟨_, _, ht⟩
    · exact .failed _ (by decide) ht
    · exact .completed _ _ _ ht rfl (by apply same <;> rfl)
    · exact .completed _ _ _ ht rfl (by apply same <;> rfl)
  case mul rd rc ra rb => exact .completed _ _ _ (exec_mul_cases h) rfl (by apply same <;> rfl)
  case breduce rd ra rb =>
    rcases exec_breduce_cases h with ⟨_, ht⟩ | ⟨_, ht⟩
    · exact .failed _ (by decide) ht
    · exact .completed _ _ _ ht rfl (by apply same <;> rfl)
  case modmul rd ra rb =>
    rcases exec_modmul_cases h with ⟨_, ht⟩ | ⟨_, ht⟩
    · exact .failed _ (by decide) ht
    · exact .completed _ _ _ ht rfl (by apply same <;> rfl)
  case montmul rd ra rb =>
    rcases exec_montmul_cases h with ⟨_, ht⟩ | ⟨_, _, ht⟩ | ⟨_, _, ht⟩
    · exact .failed _ (by decide) ht
    · exact .failed _ (by decide) ht
    · exact .completed _ _ _ ht rfl (by apply same <;> rfl)
  case montin rd ra =>
    rcases exec_montin_cases h with ⟨_, ht⟩ | ⟨_, _, ht⟩ | ⟨_, _, ht⟩
    · exact .failed _ (by decide) ht
    · exact .failed _ (by decide) ht
    · exact .completed _ _ _ ht rfl (by apply same <;> rfl)
  case montout rd ra =>
    rcases exec_montout_cases h with ⟨_, ht⟩ | ⟨_, _, ht⟩ | ⟨_, _, ht⟩
    · exact .failed _ (by decide) ht
    · exact .failed _ (by decide) ht
    · exact .completed _ _ _ ht rfl (by apply same <;> rfl)
  case powmod rd ra rb =>
    rcases exec_powmod_cases h with ⟨_, ht⟩ | ⟨_, ht⟩
    · exact .failed _ (by decide) ht
    · exact .completed _ _ _ ht rfl (by apply same <;> rfl)
  case verify ra rb rc =>
    rcases exec_verify_cases h with ⟨_, ht⟩ | ⟨_, ht⟩
    · exact .failed _ (by decide) ht
    · exact .completed s _ _ ht rfl (.refl s)
  case mrtest ra =>
    rcases exec_mrtest_cases h with ⟨_, ht⟩ | ⟨f, p, _, ht⟩
    · exact .held trivial ht
    · exact .completed _ _ _ ht rfl (by apply same <;> rfl)
  case primegen rd =>
    rcases exec_primegen_cases h with ⟨_, ht⟩ | ⟨_, ⟨_, ht⟩ | ⟨a, _, ⟨_, ht⟩ | ⟨_, ht⟩⟩⟩
    · exact .failed _ (by decide) ht
    · exact .held trivial ht
    · exact .completed _ _ _ ht rfl (by apply same <;> rfl)
    · exact .attempted _ _ _ trivial ht
  case blkenc rd rb =>
    rcases exec_blkenc_cases h with ⟨_, ht⟩ | ⟨_, ⟨_, ht⟩ | ⟨_, ⟨_, ht⟩ | ⟨_, ht⟩⟩⟩
    · exact .failed _ (by decide) ht
    · exact .failed _ (by decide) ht
    · exact .failed _ (by decide) ht
    · exact .completed _ _ _ ht rfl (by apply same <;> rfl)
  case blkdec rd ra rb =>
    rcases exec_blkdec_cases h with ⟨_, ht⟩ | ⟨_, ht⟩
    · exact .failed _ (by decide) ht
    · exact .completed _ _ _ ht rfl (by apply same <;> rfl)

end Sys2Proof.Machine
end

