-- ==== Sys2Proof/Laws/Flags.lean ====
section
/-! SUPPORT. What the STATUS and CTRL words show: every field in its place (R38, R39). -/

namespace Sys2Proof.Machine

theorem ErrCode.code_le (c : ErrCode) : c.code ≤ 8 := by cases c <;> decide

/-- Two codes that the host cannot tell apart are the same (R232). -/
theorem ErrCode.code_injective (c d : ErrCode) (h : c.code = d.code) : c = d := by
  cases c <;> cases d <;> first | rfl | (simp [ErrCode.code] at h)

namespace State

/-- The STATUS word as its bits from bit 0 up, with ERRCODE on top. -/
theorem statusWord_toNat (s : State) :
    s.statusWord.toNat =
      Nat.bit s.isBusy (Nat.bit s.status.done (Nat.bit s.status.err (Nat.bit s.status.flag (Nat.bit s.status.modv
        (Nat.bit s.status.cmdovr (Nat.bit s.status.accerr (Nat.bit false s.status.errcode.code))))))) := by
  have h := s.status.errcode.code_le
  have h0 := s.isBusy.toNat_lt
  have h1 := s.status.done.toNat_lt
  have h2 := s.status.err.toNat_lt
  have h3 := s.status.flag.toNat_lt
  have h4 := s.status.modv.toNat_lt
  have h5 := s.status.cmdovr.toNat_lt
  have h6 := s.status.accerr.toNat_lt
  unfold statusWord
  simp only [Nat.bit_val, Bool.toNat_false, bitAt]
  rw [BitVec.toNat_ofNat, Nat.mod_eq_of_lt] <;> omega

/-- Every field of STATUS where R39 puts it. -/
theorem statusWord_fields (s : State) :
    s.statusWord.getLsbD 0 = s.isBusy ∧ s.statusWord.getLsbD 1 = s.status.done ∧
      s.statusWord.getLsbD 2 = s.status.err ∧ s.statusWord.getLsbD 3 = s.status.flag ∧
      s.statusWord.getLsbD 4 = s.status.modv ∧ s.statusWord.getLsbD 5 = s.status.cmdovr ∧
      s.statusWord.getLsbD 6 = s.status.accerr ∧ s.statusWord.getLsbD 7 = false ∧
      s.statusWord.toNat / 0x100 = s.status.errcode.code := by
  have high : ∀ b n, Nat.bit b n / 2 = n := fun b n => Nat.bit_div_two b n
  unfold BitVec.getLsbD
  rw [statusWord_toNat]
  refine ⟨?_, ?_, ?_, ?_, ?_, ?_, ?_, ?_, ?_⟩
  case refine_9 =>
    rw [show (0x100 : Nat) = 2 * (2 * (2 * (2 * (2 * (2 * (2 * 2)))))) from rfl]
    simp only [← Nat.div_div_eq_div_mul, high]
  all_goals simp [Nat.testBit_bit_succ]

theorem ctrlWord_getLsbD (s : State) (k : Nat) : s.ctrlWord.getLsbD k = (decide (k = 0) && s.ie) := by
  unfold ctrlWord bitAt
  rcases k with _ | k
  · cases s.ie <;> rfl
  · cases s.ie <;> simp

end State

end Sys2Proof.Machine
end

