-- ==== Sys2Proof/Laws/PerInstr.lean ====
section
/-! SUPPORT. Per-instruction laws of the encoding: the word of a command is its row of the opcode table with each operand in its
field (R110, R113), every other bit 0 (R121). -/

namespace Sys2Proof.Laws

/-- A command's word as a number, from its row: the match value and each operand at its field's lowest bit. -/
def rowValue : Instr → Nat
  | .nop => 0x00
  | .setmod ra => 0x01 + ra.val * 2 ^ 12
  | .gcd rd ra rb => 0x02 + rd.val * 2 ^ 8 + ra.val * 2 ^ 12 + rb.val * 2 ^ 16
  | .modinv rd ra rb => 0x03 + rd.val * 2 ^ 8 + ra.val * 2 ^ 12 + rb.val * 2 ^ 16
  | .mul rd rc ra rb => 0x04 + rd.val * 2 ^ 8 + ra.val * 2 ^ 12 + rb.val * 2 ^ 16 + rc.val * 2 ^ 20
  | .breduce rd ra rb => 0x05 + rd.val * 2 ^ 8 + ra.val * 2 ^ 12 + rb.val * 2 ^ 16
  | .modmul rd ra rb => 0x06 + rd.val * 2 ^ 8 + ra.val * 2 ^ 12 + rb.val * 2 ^ 16
  | .montmul rd ra rb => 0x07 + rd.val * 2 ^ 8 + ra.val * 2 ^ 12 + rb.val * 2 ^ 16
  | .montin rd ra => 0x08 + rd.val * 2 ^ 8 + ra.val * 2 ^ 12
  | .montout rd ra => 0x09 + rd.val * 2 ^ 8 + ra.val * 2 ^ 12
  | .powmod rd ra rb => 0x0A + rd.val * 2 ^ 8 + ra.val * 2 ^ 12 + rb.val * 2 ^ 16
  | .verify ra rb rc => 0x0B + ra.val * 2 ^ 12 + rb.val * 2 ^ 16 + rc.val * 2 ^ 20
  | .mrtest ra => 0x0C + ra.val * 2 ^ 12
  | .primegen rd => 0x0D + rd.val * 2 ^ 8
  | .blkenc rd rb => 0x0E + rd.val * 2 ^ 8 + rb.val * 2 ^ 16
  | .blkdec rd ra rb => 0x0F + rd.val * 2 ^ 8 + ra.val * 2 ^ 12 + rb.val * 2 ^ 16

/-- The word of a command is the row's value; it has the row's match value under the row's mask 0xFF0000FF. -/
def TableMatch.Statement (i : Instr) : Prop :=
  (encode i).toNat = rowValue i ∧ rowValue i / 0x1000000 = 0 ∧ rowValue i % 0x100 < 0x10

theorem TableMatch.nop : TableMatch.Statement (.nop) := by
  unfold TableMatch.Statement; decide

theorem TableMatch.setmod (ra : WReg) : TableMatch.Statement (.setmod ra) := by
  have := ra.isLt
  unfold TableMatch.Statement rowValue encode
  rw [packWord_toNat]
  simp only [Fin.val_zero, BitVec.ofNat_eq_ofNat, BitVec.toNat_ofNat]
  omega

theorem TableMatch.gcd (rd ra rb : WReg) : TableMatch.Statement (.gcd rd ra rb) := by
  have := rd.isLt
  have := ra.isLt
  have := rb.isLt
  unfold TableMatch.Statement rowValue encode
  rw [packWord_toNat]
  simp only [Fin.val_zero, BitVec.ofNat_eq_ofNat, BitVec.toNat_ofNat]
  omega

theorem TableMatch.modinv (rd ra rb : WReg) : TableMatch.Statement (.modinv rd ra rb) := by
  have := rd.isLt
  have := ra.isLt
  have := rb.isLt
  unfold TableMatch.Statement rowValue encode
  rw [packWord_toNat]
  simp only [Fin.val_zero, BitVec.ofNat_eq_ofNat, BitVec.toNat_ofNat]
  omega

theorem TableMatch.mul (rd rc ra rb : WReg) : TableMatch.Statement (.mul rd rc ra rb) := by
  have := rd.isLt
  have := rc.isLt
  have := ra.isLt
  have := rb.isLt
  unfold TableMatch.Statement rowValue encode
  rw [packWord_toNat]
  simp only [BitVec.ofNat_eq_ofNat, BitVec.toNat_ofNat]
  exact ⟨trivial, by omega, by omega⟩

theorem TableMatch.breduce (rd ra rb : WReg) : TableMatch.Statement (.breduce rd ra rb) := by
  have := rd.isLt
  have := ra.isLt
  have := rb.isLt
  unfold TableMatch.Statement rowValue encode
  rw [packWord_toNat]
  simp only [Fin.val_zero, BitVec.ofNat_eq_ofNat, BitVec.toNat_ofNat]
  omega

theorem TableMatch.modmul (rd ra rb : WReg) : TableMatch.Statement (.modmul rd ra rb) := by
  have := rd.isLt
  have := ra.isLt
  have := rb.isLt
  unfold TableMatch.Statement rowValue encode
  rw [packWord_toNat]
  simp only [Fin.val_zero, BitVec.ofNat_eq_ofNat, BitVec.toNat_ofNat]
  omega

theorem TableMatch.montmul (rd ra rb : WReg) : TableMatch.Statement (.montmul rd ra rb) := by
  have := rd.isLt
  have := ra.isLt
  have := rb.isLt
  unfold TableMatch.Statement rowValue encode
  rw [packWord_toNat]
  simp only [Fin.val_zero, BitVec.ofNat_eq_ofNat, BitVec.toNat_ofNat]
  omega

theorem TableMatch.montin (rd ra : WReg) : TableMatch.Statement (.montin rd ra) := by
  have := rd.isLt
  have := ra.isLt
  unfold TableMatch.Statement rowValue encode
  rw [packWord_toNat]
  simp only [Fin.val_zero, BitVec.ofNat_eq_ofNat, BitVec.toNat_ofNat]
  omega

theorem TableMatch.montout (rd ra : WReg) : TableMatch.Statement (.montout rd ra) := by
  have := rd.isLt
  have := ra.isLt
  unfold TableMatch.Statement rowValue encode
  rw [packWord_toNat]
  simp only [Fin.val_zero, BitVec.ofNat_eq_ofNat, BitVec.toNat_ofNat]
  omega

theorem TableMatch.powmod (rd ra rb : WReg) : TableMatch.Statement (.powmod rd ra rb) := by
  have := rd.isLt
  have := ra.isLt
  have := rb.isLt
  unfold TableMatch.Statement rowValue encode
  rw [packWord_toNat]
  simp only [Fin.val_zero, BitVec.ofNat_eq_ofNat, BitVec.toNat_ofNat]
  omega

theorem TableMatch.verify (ra rb rc : WReg) : TableMatch.Statement (.verify ra rb rc) := by
  have := ra.isLt
  have := rb.isLt
  have := rc.isLt
  unfold TableMatch.Statement rowValue encode
  rw [packWord_toNat]
  simp only [Fin.val_zero, BitVec.ofNat_eq_ofNat, BitVec.toNat_ofNat]
  omega

theorem TableMatch.mrtest (ra : WReg) : TableMatch.Statement (.mrtest ra) := by
  have := ra.isLt
  unfold TableMatch.Statement rowValue encode
  rw [packWord_toNat]
  simp only [Fin.val_zero, BitVec.ofNat_eq_ofNat, BitVec.toNat_ofNat]
  omega

theorem TableMatch.primegen (rd : WReg) : TableMatch.Statement (.primegen rd) := by
  have := rd.isLt
  unfold TableMatch.Statement rowValue encode
  rw [packWord_toNat]
  simp only [Fin.val_zero, BitVec.ofNat_eq_ofNat, BitVec.toNat_ofNat]
  omega

theorem TableMatch.blkenc (rd rb : WReg) : TableMatch.Statement (.blkenc rd rb) := by
  have := rd.isLt
  have := rb.isLt
  unfold TableMatch.Statement rowValue encode
  rw [packWord_toNat]
  simp only [Fin.val_zero, BitVec.ofNat_eq_ofNat, BitVec.toNat_ofNat]
  omega

theorem TableMatch.blkdec (rd ra rb : WReg) : TableMatch.Statement (.blkdec rd ra rb) := by
  have := rd.isLt
  have := ra.isLt
  have := rb.isLt
  unfold TableMatch.Statement rowValue encode
  rw [packWord_toNat]
  simp only [Fin.val_zero, BitVec.ofNat_eq_ofNat, BitVec.toNat_ofNat]
  omega

end Sys2Proof.Laws
end

