-- ==== Sys2Proof/Tests/Slice0.lean ====
section
/-! SUPPORT. The model's own tests: the checks of WellFormed refuse what is ill formed, words written out from the encoding of
30_encoding.md decode to their commands, the vectors of 95_test_vectors.md give their results in one step, and for every
statement of Obligations.lean with hypotheses one concrete case meets them. -/

open Sys2Proof Sys2Proof.Machine

namespace Sys2Proof.Tests

/-! ### Well-formedness: every check refuses an ill-formed term -/

theorem test_legal_reference : Config.reference.Legal := by decide

theorem test_illegal_nbits_small : ¬({ nbits := 32, base := 0 } : Config).Legal := by decide

theorem test_illegal_nbits_large : ¬({ nbits := 8224, base := 0 } : Config).Legal := by decide

theorem test_illegal_nbits_multiple : ¬({ nbits := 80, base := 0 } : Config).Legal := by decide

theorem test_illegal_base : ¬({ nbits := 64, base := 0x4000 } : Config).Legal := by decide

theorem test_word_of_illegal_opcode : ¬Word.NamesCommand 0x00000010 := by decide

theorem test_word_with_reserved_bits : ¬Word.NamesCommand 0x01000007 := by decide

theorem test_access_size : ¬AccessFits 0x000 1 := by decide

theorem test_access_alignment : ¬AccessFits 0x002 4 := by decide

/-! ### Decoding: the fields of R110 from bit 31 down are rsv, rc, rb, ra, rd, opc -/

theorem test_decode_nop :
    decode (0b00000000#8 ++ 0b0000#4 ++ 0b0000#4 ++ 0b0000#4 ++ 0b0000#4 ++ 0b00000000#8 : Word) = .instr (.nop) := by decide

theorem test_decode_setmod :
    decode (0b00000000#8 ++ 0b0000#4 ++ 0b0000#4 ++ 0b1001#4 ++ 0b0000#4 ++ 0b00000001#8 : Word) = .instr (.setmod 9) := by decide

theorem test_decode_gcd :
    decode (0b00000000#8 ++ 0b0000#4 ++ 0b0110#4 ++ 0b1010#4 ++ 0b1111#4 ++ 0b00000010#8 : Word) = .instr (.gcd 15 10 6) := by decide

theorem test_decode_modinv :
    decode (0b00000000#8 ++ 0b0000#4 ++ 0b0111#4 ++ 0b0001#4 ++ 0b1100#4 ++ 0b00000011#8 : Word) = .instr (.modinv 12 1 7) := by decide

theorem test_decode_mul :
    decode (0b00000000#8 ++ 0b1011#4 ++ 0b0010#4 ++ 0b0101#4 ++ 0b1000#4 ++ 0b00000100#8 : Word) = .instr (.mul 8 11 5 2) := by decide

theorem test_decode_breduce :
    decode (0b00000000#8 ++ 0b0000#4 ++ 0b1000#4 ++ 0b1001#4 ++ 0b1010#4 ++ 0b00000101#8 : Word) = .instr (.breduce 10 9 8) := by decide

theorem test_decode_modmul :
    decode (0b00000000#8 ++ 0b0000#4 ++ 0b0011#4 ++ 0b0010#4 ++ 0b0101#4 ++ 0b00000110#8 : Word) = .instr (.modmul 5 2 3) := by decide

theorem test_decode_montmul :
    decode (0b00000000#8 ++ 0b0000#4 ++ 0b0101#4 ++ 0b0100#4 ++ 0b0110#4 ++ 0b00000111#8 : Word) = .instr (.montmul 6 4 5) := by decide

theorem test_decode_montin :
    decode (0b00000000#8 ++ 0b0000#4 ++ 0b0000#4 ++ 0b0010#4 ++ 0b0100#4 ++ 0b00001000#8 : Word) = .instr (.montin 4 2) := by decide

theorem test_decode_montout :
    decode (0b00000000#8 ++ 0b0000#4 ++ 0b0000#4 ++ 0b0110#4 ++ 0b0111#4 ++ 0b00001001#8 : Word) = .instr (.montout 7 6) := by decide

theorem test_decode_powmod :
    decode (0b00000000#8 ++ 0b0000#4 ++ 0b0010#4 ++ 0b0001#4 ++ 0b0011#4 ++ 0b00001010#8 : Word) = .instr (.powmod 3 1 2) := by decide

theorem test_decode_verify :
    decode (0b00000000#8 ++ 0b0010#4 ++ 0b0011#4 ++ 0b0111#4 ++ 0b0000#4 ++ 0b00001011#8 : Word) = .instr (.verify 7 3 2) := by decide

theorem test_decode_mrtest :
    decode (0b00000000#8 ++ 0b0000#4 ++ 0b0000#4 ++ 0b1101#4 ++ 0b0000#4 ++ 0b00001100#8 : Word) = .instr (.mrtest 13) := by decide

theorem test_decode_primegen :
    decode (0b00000000#8 ++ 0b0000#4 ++ 0b0000#4 ++ 0b0000#4 ++ 0b0001#4 ++ 0b00001101#8 : Word) = .instr (.primegen 1) := by decide

theorem test_decode_blkenc :
    decode (0b00000000#8 ++ 0b0000#4 ++ 0b0010#4 ++ 0b0000#4 ++ 0b0100#4 ++ 0b00001110#8 : Word) = .instr (.blkenc 4 2) := by decide

theorem test_decode_blkdec :
    decode (0b00000000#8 ++ 0b0000#4 ++ 0b0011#4 ++ 0b0100#4 ++ 0b0101#4 ++ 0b00001111#8 : Word) = .instr (.blkdec 5 4 3) := by decide

/-- V1.6: the opcode check comes first. -/
theorem test_decode_illegal_first : decode 0xFF0000FF = .illegalOpcode := by decide

/-- V1.8. -/
theorem test_decode_reserved : decode 0x80000000 = .reservedBits := by decide

/-! ### Small states -/

/-- A block with NBITS = 64 at a window that does not start at 0. -/
def small : Config := { nbits := 64, base := 0x8000 }

/-- That block after reset. -/
def st0 : State := State.resetFor small

/-- The registers of a list loaded. -/
def regs (s : State) (l : List (WReg × Nat)) : State := l.foldl (fun t p => t.setW p.1 p.2) s

/-- A port with the given answers and nothing after them. -/
def draws (s : State) (l : List Nat) : State := { s with port := { queue := l, tail := .silent, taken := 0 } }

/-- The command accepted. -/
def running (s : State) (i : Instr) : State := s.accept (encode i)

/-- The step answers a next state with the property. -/
def ends (r : Result) (p : State → Bool) : Bool :=
  match r with
  | .next t => p t
  | .fault _ => false
  | .refused _ => false

/-- The result of the command run on the state. -/
def run (i : Instr) (s : State) (p : State → Bool) : Bool := ends (exec i (running s i)) p

/-- The textbook key n = 3233, e = 17, d = 2753 with the numbers of V7 in its registers. -/
def rsa : State :=
  (regs st0 [(1, 3233), (2, 65), (3, 17), (4, 2753), (5, 2790), (7, 588), (8, 3298), (9, 2753)]).setModulus 3233

/-- K40 of V10 in W1 to W3. -/
def k40 : State :=
  (regs st0 [(1, 0xE8D6CA6163), (2, 65537), (3, 0xE4EF1E3081), (4, 0x20DDAFFAFC)]).setModulus 0xE8D6CA6163

/-- K40 with "Hi!" in BUF and its length in ARG0. -/
def k40hi : State := { k40 with buf := [(0, 0x48), (1, 0x69), (2, 0x21)], arg0 := 3 }

/-- The smallest legal key (V10.15) with "Z" in BUF. -/
def key2 : State :=
  { (regs st0 [(1, 67591), (2, 5), (3, 26829)]).setModulus 67591 with buf := [(0, 0x5A)], arg0 := 1 }

/-! ### The vectors of 95_test_vectors.md, at most two for a command -/

/-- V2.8. -/
theorem test_nop :
    run .nop { st0 with status := { st0.status with flag := true }, res0 := 3 } fun t =>
      t.status.flag == false && t.res0 == 0 && t.statusWord == 0x0002#32 := by decide

/-- V2.5. -/
theorem test_setmod :
    run (.setmod 1) (regs st0 [(1, 2 ^ 64 - 1)]) (fun t =>
      t.n == 2 ^ 64 - 1 && t.nbitlen == 64 && t.blksz == 7 && t.statusWord == 0x0012#32) := by decide

/-- V2.3. -/
theorem test_setmod_bad :
    run (.setmod 2) (regs rsa [(2, 1)]) (fun t => t.n == 3233 && t.statusWord == 0x0716#32) := by decide

/-- V3, the destination also a source. -/
theorem test_gcd_aliased : run (.gcd 1 1 2) (regs st0 [(1, 48), (2, 18)]) (fun t => t.readW 1 == 6) := by decide

/-- V3. -/
theorem test_gcd_zero : run (.gcd 3 1 2) (regs st0 [(1, 0), (2, 7)]) (fun t => t.readW 3 == 7) := by decide

/-- V4. -/
theorem test_modinv :
    run (.modinv 3 1 2) (regs st0 [(1, 3137), (2, 3120)]) (fun t => t.readW 3 == 2753 && t.status.flag) := by
  decide

/-- V4. -/
theorem test_modinv_by_zero :
    run (.modinv 3 1 2) (regs st0 [(1, 17), (3, 5)]) (fun t => t.readW 3 == 5 && t.statusWord == 0x0806#32) := by
  decide

/-- V5.1. -/
theorem test_mul :
    run (.mul 4 5 1 2) (regs st0 [(1, 2 ^ 64 - 1), (2, 2 ^ 64 - 1)]) (fun t =>
      t.readW 4 == 1 && t.readW 5 == 0xFFFFFFFFFFFFFFFE) := by decide

/-- V5.2: the high half wins. -/
theorem test_mul_one_destination :
    run (.mul 3 3 1 2) (regs st0 [(1, 2 ^ 64 - 1), (2, 2 ^ 64 - 1)]) (fun t =>
      t.readW 3 == 0xFFFFFFFFFFFFFFFE) := by decide

/-- V5.5: ra is the high half. -/
theorem test_breduce_halves :
    run (.breduce 6 5 4) (regs rsa [(5, 1), (4, 0)]) (fun t => t.readW 6 == 2029) := by decide

/-- V5.6. -/
theorem test_breduce :
    run (.breduce 6 5 4) (regs rsa [(5, 2 ^ 64 - 1), (4, 2 ^ 64 - 1)]) (fun t => t.readW 6 == 1231) := by decide

/-- V5.10: an even modulus is no error. -/
theorem test_modmul_even :
    run (.modmul 6 2 5) (rsa.setModulus 3234) (fun t => t.readW 6 == 246 && t.status.err == false) := by decide

/-- V5.11. -/
theorem test_modmul_no_modulus :
    run (.modmul 6 2 5) (regs st0 [(2, 65), (5, 2790)]) (fun t => t.readW 6 == 0 && t.statusWord == 0x0306#32) := by
  decide

/-- V6. -/
theorem test_montmul : run (.montmul 6 2 5) rsa (fun t => t.readW 6 == 2497) := by decide

/-- V6, an even modulus. -/
theorem test_montmul_even :
    run (.montmul 6 2 5) (rsa.setModulus 3234) (fun t => t.readW 6 == 0 && t.statusWord == 0x0416#32) := by decide

/-- V6. -/
theorem test_montin : run (.montin 6 2) rsa (fun t => t.readW 6 == 2565) := by decide

/-- V6. -/
theorem test_montout : run (.montout 6 2) rsa (fun t => t.readW 6 == 3096) := by decide

/-- V7. -/
theorem test_powmod : run (.powmod 6 2 3) rsa (fun t => t.readW 6 == 2790) := by decide

/-- V7: a base above the modulus. -/
theorem test_powmod_large_base : run (.powmod 6 8 3) rsa (fun t => t.readW 6 == 2790) := by decide

/-- V7. -/
theorem test_verify : run (.verify 7 3 2) rsa (fun t => t.statusWord == 0x001A#32) := by decide

/-- V7: the message is compared unreduced. -/
theorem test_verify_unreduced : run (.verify 7 3 8) rsa (fun t => t.statusWord == 0x0012#32) := by decide

/-- V8: 561 with witnesses 50 and 2. -/
theorem test_mrtest_composite :
    run (.mrtest 3) { draws (regs st0 [(3, 561)]) [50, 2] with arg1 := 3 } (fun t =>
      t.status.flag == false && t.port.queue == []) := by decide +kernel

/-- V8: 25 with the strong liar 7. -/
theorem test_mrtest_liar :
    run (.mrtest 3) { draws (regs st0 [(3, 25)]) [7] with arg1 := 2 } (fun t => t.status.flag) := by decide +kernel

/-- V9.1, the third attempt. -/
theorem test_primegen :
    ends
      (exec (.primegen 1)
        { draws st0 [0x65, 2] with
          arg0 := 8, arg1 := 2, phase := .busy { word := 0x10D, attempts := 2, candidate := some 147 } })
      (fun t => t.readW 1 == 229 && t.res0 == 3 && t.status.flag == false && t.isBusy == false) := by decide +kernel

/-- V9.1, the first attempt: an even candidate takes no witness. -/
theorem test_primegen_even :
    run (.primegen 1) { draws st0 [0x5A, 0x13] with arg0 := 8, arg1 := 2 } (fun t =>
      t.isBusy && t.attempts == 1 && t.readW 1 == 0 && t.port.queue == [0x13]) := by decide +kernel

/-- V10.1. -/
theorem test_blkenc : run (.blkenc 4 2) k40hi (fun t => t.readW 4 == 0x20DDAFFAFC) := by decide +kernel

/-- V10.11: ARG0 = k. -/
theorem test_blkenc_bad_arg : run (.blkenc 8 2) { k40hi with arg0 := 4 } (fun t => t.statusWord == 0x0616#32) := by decide

/-- V10.1, back, over a BUF full of other bytes. -/
theorem test_blkdec :
    run (.blkdec 5 4 3) { k40 with buf := Memory.fill [] 0 8 fun _ => 0xFF } (fun t =>
      t.bufWord 0 == 0x00216948#32 && t.bufWord 1 == 0#32 && t.res0 == 3 && t.readW 5 == 0xFF486921 &&
        t.statusWord == 0x001A#32) := by decide +kernel

/-- V10.10: a first byte that is no marker. -/
theorem test_blkdec_no_marker :
    run (.blkdec 5 4 3) (regs k40 [(4, 0x135D56F20B)]) (fun t =>
      t.bufWord 0 == 0x000000FF#32 && t.res0 == 2 && t.status.flag == false) := by decide +kernel

/-- V11.2. -/
theorem test_read_cfg : ends (actFirst (hostRd small 0x004) st0) (fun t => t.reply == .data 0x00100040) := by decide

/-- V11.6: a word beyond NW. -/
theorem test_read_tail_word : ends (actFirst (hostRd small 0x4408) rsa) (fun t => t.reply == .data 0) := by decide

/-- V11.8. -/
theorem test_read_while_busy :
    ends (actFirst (hostRd small 0x4400) (running rsa .nop)) (fun t => t.reply == .data 0 && t.status.accerr) := by
  decide

/-- V11.10. -/
theorem test_command_while_busy :
    ends (actFirst (hostWr small 0x010 0) (running rsa (.setmod 1))) (fun t => t.status.cmdovr && t.cmd == 0x1001#32) := by
  decide

/-- V11.12. -/
theorem test_clear_done_alone :
    ends (actFirst (hostWr small 0x00C 2) (st0.raise .badArg)) (fun t => t.status.done == false && t.status.err) := by
  decide

/-- V11.13. -/
theorem test_interrupt_enable : ends (actFirst (hostWr small 0x008 1) (st0.complete false 0)) (fun t => t.irq) := by decide

/-- V1.3 after reset in the reference configuration: POWMOD without a modulus. -/
theorem test_first_word_after_reset :
    ends (step (State.reset.withFetchWord 32 0x0002130A)) (fun t => t.statusWord == 0x0306#32) := by decide

/-! ### Witnesses: for every statement with hypotheses, a case that meets them -/

theorem read_unlisted (m : Memory) (j : Nat) (h : ∀ p ∈ m, p.1 < j) : Memory.read m j = 0 := by
  induction m with
  | nil => rfl
  | cons e m ih =>
    have he := h e (by simp)
    unfold Memory.read
    rw [if_neg (by omega)]
    exact ih fun p hp => h p (by simp [hp])

theorem inv_of (s : State) (h1 : s.cfg.Legal) (h2 : ∀ i, s.readW i < radix s.cfg) (h3 : s.n < radix s.cfg)
    (h4 : Memory.wf s.buf = true) (h5 : ∀ p ∈ s.buf, p.1 < numBytes s.cfg) (h6 : s.ModulusInv) (h7 : s.EngineInv)
    (h8 : s.status.err = true → s.status.errcode ≠ .none) (h9 : s.resetHeld = false) : s.Inv :=
  ⟨h1, h2, h3, h4, fun _ hj => read_unlisted _ _ fun p hp => lt_of_lt_of_le (h5 p hp) hj, h6, h7, h8, fun h => by simp [h9] at h⟩

theorem k40hi_inv : k40hi.Inv :=
  inv_of _ (by decide) (by decide) (by decide) (by decide) (by decide) (by unfold State.ModulusInv; decide) trivial
    (by decide) rfl

theorem key2_inv : key2.Inv :=
  inv_of _ (by decide) (by decide) (by decide) (by decide) (by decide) (by unfold State.ModulusInv; decide) trivial
    (by decide) rfl

theorem running_inv : (running k40hi (.blkenc 4 2)).Inv :=
  inv_of _ (by decide) (by decide) (by decide) (by decide) (by decide) (by unfold State.ModulusInv; decide)
    ⟨rfl, by decide, by simp, rfl, rfl, rfl⟩ (by decide) rfl

theorem rsa_key : RsaKey 3233 17 2753 := ⟨61, 53, by norm_num, by norm_num, by decide, by decide, by decide⟩

theorem key2_key : RsaKey 67591 5 26829 := ⟨257, 263, by norm_num, by norm_num, by decide, by decide, by decide⟩

theorem witness_IgnoredFieldsDoNotChangeTheCommand :
    decode 0x00001001 = .instr (.setmod 1) ∧
      (0x00FF1F01 : Word) &&& fieldMask (.setmod 1) = 0x00001001 &&& fieldMask (.setmod 1) := by decide

theorem witness_EveryStepKeepsStatesGood :
    (running k40hi (.blkenc 4 2)).Inv ∧ ∃ t, step (running k40hi (.blkenc 4 2)) = .next t ∧ t.phase = .idle :=
  ⟨running_inv, _, rfl, rfl⟩

theorem st0_at_reset_values : AtResetValues st0.assertReset :=
  ⟨by decide, rfl, fun _ => rfl, rfl, rfl, rfl, rfl, rfl, rfl, rfl, rfl, rfl, rfl⟩

/-- Reset asserted while a command runs, a CMD write while it stands, and its release. -/
theorem witness_ResetGivesTheResetValues :
    st0.assertReset.resetHeld = true ∧ AtResetValues st0.assertReset ∧
      (∃ t, actFirst (hostWr small 0x010 0x1001) st0.assertReset = .next t ∧ t.reply = .ack) ∧
      (∃ t, actFirst .releaseReset st0.assertReset = .next t) ∧ (running k40hi (.blkenc 4 2)).isBusy = true :=
  ⟨rfl, st0_at_reset_values, ⟨_, actFirst_hostWr st0.assertReset 0x010 0x1001 (by decide) (by decide), rfl⟩, ⟨_, rfl⟩, rfl⟩

theorem witness_ResetStateIsGood : small.Legal ∧ ({ nbits := 8192, base := 0xFFFF8000 } : Config).Legal := by decide

theorem witness_StepRunsTheDecodedCommand :
    (running rsa (.powmod 6 2 3)).phase = .busy { word := 0x0003260A, attempts := 0, candidate := none } ∧
      decode 0x0003260A = .instr (.powmod 6 2 3) ∧ (running rsa (.powmod 6 2 3)).pending = [] ∧
      decodeTableWord 32 0x0003260A = some (.powmod 6 2 3) := by decide

theorem witness_OnlyAlignedWordAccessesGetThrough :
    (0x7FFF < 0x8000 ∧ 0x7FFF % 4 ≠ 0) ∧ (0x7FFC < 0x8000 ∧ 2 ≠ 4) ∧ 0x7FFC % 4 = 0 := by decide

theorem witness_StatusReadsItsFieldsAndClearsW1C :
    (st0.raise .badArg).resetHeld = false ∧ (st0.raise .badArg).status.done = true ∧
      (st0.raise .badArg).status.err = true ∧ (running rsa .nop).resetHeld = false := by decide

theorem witness_InterruptFollowsEnableAndDone :
    (∃ t c, (running rsa .nop).phase = .busy c ∧ actFirst .engine (running rsa .nop) = .next t ∧ t.phase = .idle) ∧
      (∃ t, actFirst (hostWr rsa.cfg 0x008 1) rsa = .next t) ∧
      (∃ t, actFirst (hostWr rsa.cfg 0x00C 2) rsa = .next t ∧ (2 : Word).getLsbD 1 = true) ∧
      ∃ t, actFirst (hostWr rsa.cfg 0x010 0) rsa = .next t ∧ rsa.phase = .idle ∧ rsa.resetHeld = false :=
  ⟨⟨_, _, rfl, rfl, rfl⟩, ⟨_, rfl⟩, ⟨_, rfl, by decide⟩, _, rfl, rfl, rfl⟩

theorem witness_ReservedAndReadOnlyOffsets :
    rsa.cfg.Legal ∧ rsa.phase = .idle ∧ rsa.resetHeld = false ∧ ReservedOffset rsa.cfg 0x028 ∧ ReservedOffset rsa.cfg 0x7FC ∧
      ReservedOffset rsa.cfg 0x808 ∧ ReservedOffset rsa.cfg 0xFFC ∧ ReservedOffset rsa.cfg 0x1008 ∧
      ReservedOffset rsa.cfg 0x3FFC ∧ ReservedOffset rsa.cfg 0x4008 ∧ ReservedOffset rsa.cfg 0x7FFC ∧
      0x1000 ≤ 0x13FC ∧ 0x13FC < 0x1400 := by
  unfold ReservedOffset
  refine ⟨?_, rfl, rfl, ?_, ?_, ?_, ?_, ?_, ?_, ?_, ?_, ?_, ?_⟩ <;> decide

/-- Where the words that are not reserved begin and end. -/
theorem witness_ReservedAndReadOnlyOffsets_ends :
    ¬ReservedOffset small 0x024 ∧ ¬ReservedOffset small 0x800 ∧ ¬ReservedOffset small 0x804 ∧
      ¬ReservedOffset small 0x1004 ∧ ¬ReservedOffset small 0x4000 ∧ ¬ReservedOffset small 0x7C04 := by
  unfold ReservedOffset
  refine ⟨?_, ?_, ?_, ?_, ?_, ?_⟩ <;> decide

theorem witness_WideRegisterWords :
    rsa.cfg.Legal ∧ rsa.phase = .idle ∧ rsa.resetHeld = false ∧ (1 < 256 ∧ 1 < numWords rsa.cfg) ∧ (255 < 256 ∧ numWords rsa.cfg ≤ 255) ∧
      numWords rsa.cfg ≤ 2 := by decide

theorem witness_BufferWords :
    k40hi.cfg.Legal ∧ Memory.wf k40hi.buf = true ∧ k40hi.phase = .idle ∧ k40hi.resetHeld = false ∧ 1 < numWords k40hi.cfg := by decide

theorem witness_HostReadsTheControlRegisters :
    rsa.cfg.Legal ∧ rsa.phase = .idle ∧ rsa.resetHeld = false ∧ 1 < numWords rsa.cfg := by decide

theorem witness_AccessesWhileBusy :
    (running rsa .nop).resetHeld = false ∧ (running rsa .nop).cfg.Legal ∧ (running rsa .nop).phase = .busy { word := 0, attempts := 0, candidate := none } ∧
      (0x800 ≤ 0x804 ∧ 0x804 < 0x800 + 4 * numWords small) ∧ (0x1000 ≤ 0x1004 ∧ 0x1004 < 0x1000 + 4 * numWords small) ∧
      (0x4000 ≤ 0x7C04 ∧ 0x7C04 % 0x400 < 4 * numWords small) ∧ 0x024 < 0x028 := by decide

theorem witness_AccessesWhileBusy_reserved : ReservedOffset small 0x028 ∧ ReservedOffset small 0x7C08 := by
  unfold ReservedOffset; decide

theorem witness_AccessesWhileBusy_access :
    ∃ t, actFirst (.access (.write (small.base + 0x4400) 4 7)) (running rsa .nop) = .next t :=
  ⟨_, actFirst_hostWr (running rsa .nop) 0x4400 7 (by decide) (by decide)⟩

theorem witness_IdleReadsAreCleanAndWritesIdempotent :
    Memory.wf k40hi.buf = true ∧ k40hi.phase = .idle ∧
      ∃ t u, actFirst (hostWr k40hi.cfg 0x804 0xFF) k40hi = .next t ∧ actFirst (hostWr k40hi.cfg 0x804 0xFF) t = .next u :=
  ⟨by decide, rfl, _, _, actFirst_hostWr k40hi 0x804 0xFF (by decide) (by decide),
    actFirst_hostWr (k40hi.memWrite 0x804 0xFF) 0x804 0xFF (by decide) (by decide)⟩

/-- A state in which both sticky bits stand, with one action to come. -/
def sticky (e : Event) : State := { st0.setCmdovr.setAccerr with pending := [e] }

theorem witness_StickyBitsStayUntilCleared :
    (∃ t, step (sticky (hostWr small 0x00C 0x20)) = .next t ∧ (sticky (hostWr small 0x00C 0x20)).status.cmdovr = true ∧
        t.status.cmdovr = false) ∧
      (∃ t, step (sticky (hostWr small 0x00C 0x40)) = .next t ∧
        (sticky (hostWr small 0x00C 0x40)).status.accerr = true ∧ t.status.accerr = false) ∧
      ∃ t, step (sticky .assertReset) = .next t ∧ t.status.cmdovr = false ∧ t.status.accerr = false :=
  ⟨⟨_, rfl, rfl, by decide⟩, ⟨_, rfl, rfl, by decide⟩, _, rfl, rfl, rfl⟩

theorem witness_CmdWriteWhileIdleIsAccepted : rsa.phase = .idle ∧ rsa.resetHeld = false := ⟨rfl, rfl⟩

theorem witness_EngineStartsOnlyByACmdWrite :
    ∃ t, step { st0 with pending := [hostWr small 0x010 0x1001] } = .next t ∧
      ({ st0 with pending := [hostWr small 0x010 0x1001] } : State).phase = .idle ∧
      t.phase = .busy { word := 0x1001, attempts := 0, candidate := none } ∧ st0.pending = [] := ⟨_, rfl, rfl, rfl, rfl⟩

theorem witness_IllegalOpcodeEndsAsError :
    rsa.phase = .idle ∧ rsa.resetHeld = false ∧ 0x10 ≤ (0x00000010 : Word).toNat % 0x100 ∧ 0x10 ≤ (0xFF0000FF : Word).toNat % 0x100 := by decide

theorem witness_ReservedBitsEndAsError :
    rsa.phase = .idle ∧ rsa.resetHeld = false ∧ ((0x0100000F : Word).toNat % 0x100 < 0x10 ∧ (0x0100000F : Word).toNat / 0x1000000 ≠ 0) ∧
      ((0x80000000 : Word).toNat % 0x100 < 0x10 ∧ (0x80000000 : Word).toNat / 0x1000000 ≠ 0) ∧
      0x10 ≤ (0xFF000010 : Word).toNat % 0x100 ∧ (0xFF000010 : Word).toNat / 0x1000000 ≠ 0 := by decide

theorem witness_CommandsWithoutDrawsComplete : ¬TakesDraws (.blkdec 5 4 3) ∧ ¬TakesDraws .nop := ⟨id, id⟩

theorem witness_ErrorsArePrecise :
    st0.status.err = false ∧ ∃ t, exec (.modmul 6 2 5) st0 = .next t ∧ t.status.err = true := ⟨rfl, _, rfl, rfl⟩

/-- The command ends in an error on the state, which has none before. -/
def Fails (i : Instr) (s : State) : Prop := s.status.err = false ∧ ∃ t, exec i s = .next t ∧ t.status.err = true

theorem witness_EachCommandRaisesOnlyItsErrors :
    Fails (.setmod 0) st0 ∧ Fails (.modinv 3 1 2) st0 ∧ Fails (.breduce 1 2 3) st0 ∧ Fails (.modmul 1 2 3) st0 ∧
      Fails (.powmod 1 2 3) st0 ∧ Fails (.verify 1 2 3) st0 ∧ Fails (.blkdec 1 2 3) st0 ∧ Fails (.montmul 1 2 3) st0 ∧
      Fails (.montin 1 2) st0 ∧ Fails (.montout 1 2) st0 ∧ Fails (.montmul 1 2 3) (st0.setModulus 4) ∧
      Fails (.montin 1 2) (st0.setModulus 4) ∧ Fails (.montout 1 2) (st0.setModulus 4) ∧ Fails (.primegen 1) st0 ∧
      Fails (.blkenc 1 2) st0 ∧ Fails (.blkenc 1 2) rsa ∧ Fails (.blkenc 4 2) k40 :=
  ⟨⟨rfl, _, rfl, rfl⟩, ⟨rfl, _, rfl, rfl⟩, ⟨rfl, _, rfl, rfl⟩, ⟨rfl, _, rfl, rfl⟩, ⟨rfl, _, rfl, rfl⟩, ⟨rfl, _, rfl, rfl⟩,
    ⟨rfl, _, rfl, rfl⟩, ⟨rfl, _, rfl, rfl⟩, ⟨rfl, _, rfl, rfl⟩, ⟨rfl, _, rfl, rfl⟩, ⟨rfl, _, rfl, rfl⟩, ⟨rfl, _, rfl, rfl⟩,
    ⟨rfl, _, rfl, rfl⟩, ⟨rfl, _, rfl, rfl⟩, ⟨rfl, _, rfl, rfl⟩, ⟨rfl, _, rfl, rfl⟩, rfl, _, rfl, rfl⟩

theorem witness_FlagAndResultOfOtherCommandsAreZero :
    ∃ t c, (running rsa (.verify 7 3 2)).phase = .busy c ∧ exec (.verify 7 3 2) (running rsa (.verify 7 3 2)) = .next t ∧
      t.phase = .idle ∧ t.status.err = false ∧ t.status.flag = true := ⟨_, _, rfl, rfl, rfl, rfl, by decide⟩

theorem witness_FlagAndResultOfOtherCommandsAreZero_res0 :
    ∃ t c, (running k40 (.blkdec 5 4 3)).phase = .busy c ∧ exec (.blkdec 5 4 3) (running k40 (.blkdec 5 4 3)) = .next t ∧
      t.phase = .idle ∧ t.status.err = false ∧ t.res0 ≠ 0 := ⟨_, _, rfl, rfl, rfl, rfl, by decide +kernel⟩

theorem witness_OnlySetmodAndResetChangeTheModulus :
    (∃ t, step (running rsa (.setmod 2)) = .next t ∧ ¬SameModulus (running rsa (.setmod 2)) t) ∧
      ∃ t, step { rsa with pending := [.assertReset] } = .next t ∧ ¬SameModulus { rsa with pending := [.assertReset] } t :=
  ⟨⟨_, rfl, by unfold SameModulus; decide⟩, _, rfl, by unfold SameModulus; decide⟩

theorem witness_ResultsDoNotDependOnFlags :
    ∃ t c, (running rsa (.powmod 6 2 3)).phase = .busy c ∧
      exec (.powmod 6 2 3) (running rsa (.powmod 6 2 3)) = .next t ∧ t.phase = .idle := ⟨_, _, rfl, rfl, rfl⟩

theorem witness_SetmodLoadsTheModulus :
    rsa.cfg.Legal ∧ (rsa.readW 1 < radix rsa.cfg ∧ 2 ≤ rsa.readW 1) ∧
      ((regs st0 [(1, 2)]).readW 1 < radix st0.cfg ∧ 2 ≤ (regs st0 [(1, 2)]).readW 1) ∧
      (regs st0 [(1, 1)]).readW 1 < radix st0.cfg ∧ (regs st0 [(1, 1)]).readW 1 < 2 := by decide

theorem witness_ModinvWritesTheInverse :
    (0 < rsa.readW 1 ∧ Nat.Coprime (rsa.readW 3) (rsa.readW 1)) ∧
      (0 < (regs st0 [(2, 1)]).readW 2 ∧ Nat.Coprime ((regs st0 [(2, 1)]).readW 1) ((regs st0 [(2, 1)]).readW 2)) ∧
      (0 < (regs st0 [(1, 6), (2, 9)]).readW 2 ∧
        ¬Nat.Coprime ((regs st0 [(1, 6), (2, 9)]).readW 1) ((regs st0 [(1, 6), (2, 9)]).readW 2)) ∧
      st0.readW 2 = 0 := by decide

theorem witness_MulWritesBothHalves : (4 : WReg) ≠ 5 ∧ (3 : WReg) = 3 := by decide

theorem witness_BreduceReducesThePair : rsa.status.modv = true ∧ 2 ≤ rsa.n := by decide

theorem witness_ModmulReducesTheProduct :
    (st0.setModulus 2).status.modv = true ∧ 2 ≤ (st0.setModulus 2).n := by decide

theorem witness_MulThenBreduceIsModmul :
    rsa.phase = .idle ∧ rsa.resetHeld = false ∧ (8 : WReg) ≠ 9 ∧ rsa.status.modv = true := by decide

theorem witness_MontmulWritesTheMontgomeryProduct : rsa.status.modv = true ∧ rsa.n % 2 = 1 := by decide

theorem witness_MontinAndMontoutConvertTheForm :
    (regs rsa [(9, 1)]).status.modv = true ∧ (regs rsa [(9, 1)]).n % 2 = 1 ∧ (regs rsa [(9, 1)]).readW 9 = 1 := by decide

theorem witness_MontgomeryLaws :
    rsa.phase = .idle ∧ rsa.resetHeld = false ∧ rsa.status.modv = true ∧ rsa.n % 2 = 1 ∧ (5 : WReg) ≠ 10 ∧ (10 : WReg) ≠ 11 ∧ (2 : WReg) ≠ 10 := by decide

theorem witness_EvenModulusStopsMontgomeryOnly :
    (rsa.setModulus 3234).status.modv = true ∧ (rsa.setModulus 3234).n % 2 = 0 := by decide

theorem witness_NoModulusComesFirst : st0.status.modv = false := rfl

theorem witness_PowmodWritesThePower : rsa.status.modv = true ∧ 2 ≤ rsa.n := by decide

theorem witness_VerifyComparesThePower : rsa.status.modv = true ∧ 2 ≤ rsa.n ∧ rsa.n ≤ rsa.readW 8 := by decide

theorem witness_SignedMessagesVerify :
    rsa.phase = .idle ∧ rsa.resetHeld = false ∧ rsa.status.modv = true ∧ RsaKey rsa.n (rsa.readW 3) (rsa.readW 4) ∧ rsa.readW 2 < rsa.n ∧ (2 : WReg) ≠ 6 ∧
      (3 : WReg) ≠ 6 := ⟨rfl, rfl, rfl, rsa_key, by decide, by decide, by decide⟩

theorem witness_MrtestDecidesSmallAndEvenWithoutDraws :
    ((regs st0 [(1, 2)]).readW 1 = 2 ∧ (regs st0 [(1, 3)]).readW 1 = 3) ∧ (regs st0 [(1, 1)]).readW 1 < 2 ∧
      (regs st0 [(1, 4)]).readW 1 % 2 = 0 ∧ (regs st0 [(1, 4)]).readW 1 ≠ 2 := by decide

theorem witness_MrtestRunsItsWitnesses :
    let s : State := { draws (regs st0 [(1, 5)]) [2, 3] with arg1 := 3 }
    5 ≤ s.readW 1 ∧ s.readW 1 % 2 = 1 ∧ s.port.queue = [2, 3] ++ [] ∧ [2, 3].length = s.arg1.toNat - 1 ∧
      ∀ a ∈ [2, 3], 2 ≤ a ∧ a ≤ s.readW 1 - 2 := by decide

/-- MRTEST of 25 with the strong liar 7 and one answer more. -/
def liar : State := running { draws (regs st0 [(3, 25)]) [7, 2] with arg1 := 2 } (.mrtest 3)

theorem witness_MrtestRoundCount :
    (5 ≤ liar.readW 3 ∧ liar.readW 3 % 2 = 1) ∧
      (∃ t, exec (.mrtest 3) liar = .next t ∧ t.phase = .idle ∧ t.status.flag = true ∧
        liar.arg1.toNat - 1 ≤ liar.port.queue.length) ∧ st0.arg1.toNat ≤ 1 := by
  refine ⟨by decide, ⟨{ liar with port := { queue := [2], tail := .silent, taken := 0 } }.complete true 0, ?_, rfl, rfl, ?_⟩, ?_⟩
  · have h : millerRabin (liar.readW 3) liar.arg1.toNat liar.port =
        some (true, { queue := [2], tail := .silent, taken := 0 }) := by decide +kernel
    change execMrtest 3 liar = _
    unfold execMrtest
    rw [h]
  · decide
  · decide

/-- MRTEST of 9 with the witness 2. -/
def nine : State := running { draws (regs st0 [(3, 9)]) [2] with arg1 := 2 } (.mrtest 3)

theorem witness_MrtestNeverRejectsAPrime :
    ((regs st0 [(3, 97)]).readW 3).Prime ∧ PortSupplies (draws st0 [5, 10]).port (3 - 1) ∧
      ∃ t c, nine.phase = .busy c ∧ exec (.mrtest 3) nine = .next t ∧ t.phase = .idle ∧ 5 ≤ nine.readW 3 ∧
        nine.readW 3 % 2 = 1 ∧ t.status.flag = false := by
  refine ⟨?_, .inl (by decide), { nine with port := { queue := [], tail := .silent, taken := 0 } }.complete false 0, _, rfl,
    ?_, rfl, by decide, by decide, rfl⟩
  · rw [show (regs st0 [(3, 97)]).readW 3 = 97 by decide]; norm_num
  · have h : millerRabin (nine.readW 3) nine.arg1.toNat nine.port =
        some (false, { queue := [], tail := .silent, taken := 0 }) := by decide +kernel
    change execMrtest 3 nine = _
    unfold execMrtest
    rw [h]

theorem witness_MrtestCompletesOnceSupplied :
    PortSupplies (draws st0 [5, 10]).port 2 ∧ PortSupplies State.reset.port 0xFFFFFFFF :=
  ⟨.inl (by decide), .inr (by decide)⟩

/-- PRIMEGEN of 8 bits with one witness round and the given answers to come. -/
def search (l : List Nat) : State := running { draws st0 l with arg0 := 8, arg1 := 2 } (.primegen 1)

theorem witness_PrimegenCompletesOnAPrimeCandidate :
    (∃ c, (search [0x65, 2]).phase = .busy c) ∧ 2 ≤ (search [0x65, 2]).arg0.toNat ∧
      (search [0x65, 2]).arg0.toNat ≤ (search [0x65, 2]).cfg.nbits ∧ (search [0x65, 2]).port.queue = 0x65 :: [2] ∧
      0x65 < 2 ^ (search [0x65, 2]).arg0.toNat ∧ (0x65 ||| 2 ^ ((search [0x65, 2]).arg0.toNat - 1)).Prime ∧
      PortSupplies { (search [0x65, 2]).port with queue := [2] } ((search [0x65, 2]).arg1.toNat - 1) := by
  refine ⟨⟨_, rfl⟩, by decide, by decide, rfl, by decide, ?_, .inl (by decide)⟩
  rw [show 0x65 ||| 2 ^ ((search [0x65, 2]).arg0.toNat - 1) = 229 by decide]
  norm_num

theorem witness_PrimegenStaysBusyOnAnEvenCandidate :
    (∃ c, (search [0x5A]).phase = .busy c) ∧ 3 ≤ (search [0x5A]).arg0.toNat ∧
      (search [0x5A]).arg0.toNat ≤ (search [0x5A]).cfg.nbits ∧ (search [0x5A]).port.queue = 0x5A :: [] ∧
      0x5A < 2 ^ (search [0x5A]).arg0.toNat ∧ 0x5A % 2 = 0 :=
  ⟨⟨_, rfl⟩, by decide, by decide, rfl, by decide, by decide⟩

theorem witness_PrimegenResultHasExactlyItsBits :
    (search [0x65, 2]).status.err = false ∧
      (ends (exec (.primegen 1) (search [0x65, 2])) fun t => !t.isBusy && !t.status.err) = true ∧
      (ends (exec (.primegen 1) (search [0x5A])) fun t => t.isBusy) = true := by decide +kernel

/-- The witness 2 lets 229 pass its one round and stops 147 (V9.1). -/
theorem witness_PrimegenResultHasExactlyItsBits_rounds :
    ((∃ c, (search [0x65, 2]).phase = .busy c) ∧ 2 ≤ (search [0x65, 2]).arg0.toNat ∧
        (search [0x65, 2]).arg0.toNat ≤ (search [0x65, 2]).cfg.nbits ∧
        (search [0x65, 2]).port.queue = 0x65 :: ([2] ++ []) ∧ 0x65 < 2 ^ (search [0x65, 2]).arg0.toNat ∧
        229 = 0x65 ||| 2 ^ ((search [0x65, 2]).arg0.toNat - 1) ∧ [2].length = (search [0x65, 2]).arg1.toNat - 1 ∧
        ∀ a ∈ [2], 2 ≤ a ∧ a ≤ 229 - 2) ∧
      PassesRound 229 2 ∧
      ((∃ c, (search [0x13, 2]).phase = .busy c) ∧ (search [0x13, 2]).port.queue = 0x13 :: ([2] ++ []) ∧
        147 = 0x13 ||| 2 ^ ((search [0x13, 2]).arg0.toNat - 1)) ∧ ¬PassesRound 147 2 := by
  refine ⟨⟨⟨_, rfl⟩, by decide, by decide, rfl, by decide, by decide, by decide, by decide⟩,
    ⟨57, 2, by decide, by decide, .inr ⟨1, by decide, by norm_num⟩⟩, ⟨⟨_, rfl⟩, rfl, by decide⟩, ?_⟩
  rintro ⟨r, k, hr, hk, h⟩
  have hk1 : k = 1 := by
    rcases k with _ | _ | k
    · omega
    · rfl
    · rw [show 2 ^ (k + 1 + 1) * r = 4 * (2 ^ k * r) by ring] at hk; omega
  subst hk1
  obtain rfl : r = 73 := by omega
  rcases h with h | ⟨j, hj, h⟩
  · norm_num at h
  · obtain rfl : j = 0 := by omega
    norm_num at h

theorem witness_SilentPortHoldsTheEngine :
    ((search []).phase = .busy { word := 0x10D, attempts := 0, candidate := none } ∧ (search []).pending = [] ∧
        (search []).port.queue = [] ∧ (search []).port.tail = .silent ∧ decode 0x10D = .instr (.primegen 1) ∧
        2 ≤ (search []).arg0.toNat ∧ (search []).arg0.toNat ≤ (search []).cfg.nbits) ∧
      (draws nine []).phase = .busy { word := 0x300C, attempts := 0, candidate := none } ∧
        (draws nine []).pending = [] ∧ (draws nine []).port.queue = [] ∧ (draws nine []).port.tail = .silent ∧
        decode 0x300C = .instr (.mrtest 3) ∧ 5 ≤ (draws nine []).readW 3 ∧ (draws nine []).readW 3 % 2 = 1 ∧
        2 ≤ (draws nine []).arg1.toNat := by decide

theorem witness_BlkencEncryptsTheMarkedChunk :
    k40hi.status.modv = true ∧ 2 ≤ k40hi.n ∧ 2 ≤ k40hi.blksz.toNat ∧ 1 ≤ k40hi.arg0.toNat ∧
      k40hi.arg0.toNat ≤ k40hi.blksz.toNat - 1 := by decide

theorem witness_BlkencAndPrimegenReportTheirErrors :
    st0.status.modv = false ∧ (rsa.status.modv = true ∧ rsa.blksz.toNat < 2) ∧
      (k40.status.modv = true ∧ 2 ≤ k40.blksz.toNat ∧ k40.arg0.toNat < 1) ∧
      ({ k40 with arg0 := 4 } : State).blksz.toNat - 1 < ({ k40 with arg0 := 4 } : State).arg0.toNat ∧
      ({ st0 with arg0 := 1 } : State).arg0.toNat < 2 ∧
      ({ st0 with arg0 := 65 } : State).cfg.nbits < ({ st0 with arg0 := 65 } : State).arg0.toNat := by decide

theorem witness_BlockIntegerIsBelowTheModulus :
    k40hi.Inv ∧ k40hi.status.modv = true ∧ 2 ≤ k40hi.blksz.toNat ∧ 1 ≤ k40hi.arg0.toNat ∧
      k40hi.arg0.toNat ≤ k40hi.blksz.toNat - 1 := ⟨k40hi_inv, by decide, by decide, by decide, by decide⟩

theorem witness_BlkdecWritesThePayload :
    k40hi.cfg.Legal ∧ k40hi.n < radix k40hi.cfg ∧ Memory.wf k40hi.buf = true ∧ k40hi.status.modv = true ∧ 2 ≤ k40hi.n := by
  decide

theorem witness_BlockRoundTrip :
    key2.Inv ∧ key2.phase = .idle ∧ key2.resetHeld = false ∧ key2.status.modv = true ∧ RsaKey key2.n (key2.readW 2) (key2.readW 3) ∧ 1 ≤ key2.arg0.toNat ∧
      key2.arg0.toNat ≤ key2.blksz.toNat - 1 ∧ (3 : WReg) ≠ 4 :=
  ⟨key2_inv, rfl, rfl, by decide, key2_key, by decide, by decide, by decide⟩

theorem witness_StreamRoundTrip :
    key2.Inv ∧ key2.phase = .idle ∧ key2.resetHeld = false ∧ RsaKey 67591 5 26829 ∧ 67591 < radix key2.cfg ∧ 5 < radix key2.cfg ∧
      26829 < radix key2.cfg ∧ 2 < radix key2.cfg ∧ 17 ≤ Nat.size 67591 ∧ 2 ^ 5 % 67591 = 32 :=
  ⟨key2_inv, rfl, rfl, key2_key, by decide, by decide, by decide, by decide,
    Nat.lt_size.2 (by decide), by decide⟩

end Sys2Proof.Tests
end

section
/-! The reset state of every build is good, and so is the state an asserted reset leaves (R54, R260). -/

namespace Sys2Proof.Machine

theorem radix_pos (c : Config) : 0 < radix c := Nat.two_pow_pos c.nbits

theorem State.readW_resetFor (c : Config) (i : WReg) : (State.resetFor c).readW i = 0 := by
  simp [State.readW, State.resetFor]

theorem State.statusWord_resetFor (c : Config) : (State.resetFor c).statusWord = 0 := by
  simp [State.statusWord, State.resetFor, State.isBusy, bitAt, ErrCode.code]

theorem resetFor_atResetValues (c : Config) : AtResetValues (State.resetFor c) :=
  ⟨State.readW_resetFor c, rfl, fun _ => rfl, rfl, State.statusWord_resetFor c, rfl, rfl, rfl, rfl, rfl, rfl, rfl, rfl⟩

theorem resetFor_inv {c : Config} (hl : c.Legal) : (State.resetFor c).Inv where
  legal := hl
  wide i := by rw [State.readW_resetFor]; exact radix_pos c
  modulus := radix_pos c
  bufForm := rfl
  bufRange _ _ := rfl
  modulusRegs := ⟨rfl, rfl, rfl⟩
  engine := trivial
  errCoded h := Bool.noConfusion h
  underReset h := Bool.noConfusion h

/-- An asserted reset leaves the reset state of the build, with its inputs and the level of the reset input as they are. -/
theorem assertReset_inv {s : State} (hl : s.cfg.Legal) : s.assertReset.Inv :=
  { resetFor_inv hl with underReset := fun _ => resetFor_atResetValues s.cfg }

/-- Settles O6: every register of the reset state stands at 0, and the engine is IDLE. -/
theorem resetStateIsGood : Obligations.ResetStateIsGood :=
  ⟨fun _ hl => resetFor_inv hl, resetFor_inv (by decide)⟩

end Sys2Proof.Machine
end

section
/-! The invariant and each named update of the state: what an update needs to keep a good state good. -/

namespace Sys2Proof.Machine

theorem State.engineInv_of_idle {s : State} (hp : s.phase = .idle) : s.EngineInv := by
  unfold State.EngineInv; rw [hp]; trivial

theorem State.engineInv_iff_of_busy {s : State} {c : Command} (hp : s.phase = .busy c) :
    s.EngineInv ↔
      c.word = s.cmd ∧ c.attempts < 2 ^ 32 ∧ (∀ x, c.candidate = some x → x < radix s.cfg) ∧
        s.status.done = false ∧ s.status.err = false ∧ s.status.errcode = .none := by
  unfold State.EngineInv; rw [hp]

theorem modulusInv_of_set {s : State} (hm : s.status.modv = true) (h2 : 2 ≤ s.n)
    (hb : s.nbitlen.toNat = bitlen s.n) (hk : s.blksz.toNat = (bitlen s.n - 1) / 8) : s.ModulusInv := by
  unfold State.ModulusInv; rw [if_pos hm]; exact ⟨h2, hb, hk⟩

namespace State.Inv

section
variable {s : State} (h : s.Inv)
include h

theorem two_le_n (hm : s.status.modv = true) : 2 ≤ s.n := by
  have hmod := h.modulusRegs
  rw [State.ModulusInv, if_pos hm] at hmod
  exact hmod.1

/-- A number below N fits a wide register (R10, R32). -/
theorem mod_lt_radix (hm : s.status.modv = true) (x : Nat) : x % s.n < radix s.cfg :=
  (Nat.mod_lt x (by have := h.two_le_n hm; omega)).trans h.modulus

theorem powMod_lt_radix (hm : s.status.modv = true) (b e : Nat) : powMod b e s.n < radix s.cfg :=
  (powMod_lt b e s.n (h.two_le_n hm)).trans h.modulus

/-- While the reset input stands asserted the engine is IDLE (R260). -/
theorem idle_of_held (hr : s.resetHeld = true) : s.phase = .idle := by
  obtain ⟨-, -, -, -, -, -, -, -, -, -, -, hp, -⟩ := h.underReset hr
  exact hp

theorem released_of_busy {c : Command} (hp : s.phase = .busy c) : s.resetHeld = false := by
  by_contra hr
  have := h.idle_of_held (by simpa using hr)
  simp [hp] at this

/-- The inputs still to come and the answer on the bus are no registers of the block. -/
theorem withInputs (p : Port) (l : List Event) (r : BusReply) :
    ({ s with port := p, pending := l, reply := r } : State).Inv :=
  { h with }

theorem releaseReset : s.releaseReset.Inv := { h with underReset := fun hr => by simp at hr }

end

/-! ### Updates while the reset input is released -/

section
variable {s : State} (h : s.Inv) (hr : s.resetHeld = false)
include h hr

theorem setW (i : WReg) {v : Nat} (hv : v < radix s.cfg) : (s.setW i v).Inv :=
  { h with
    wide := fun j => by
      rw [State.readW_setW]
      split
      · exact hv
      · exact h.wide j
    underReset := by simp [hr] }

theorem fillBuf (f : Nat → Byte) : (s.fillBuf f).Inv :=
  { h with
    bufForm := Memory.wf_fill _ h.bufForm _ _ _
    bufRange := fun j hj => by
      have hj : numBytes s.cfg ≤ j := hj
      rw [State.readBuf_fillBuf s h.bufForm, if_neg (by omega)]
      exact h.bufRange j hj
    underReset := by simp [hr] }

/-- The four bytes of a word below NW are bytes below NB (R9, R48). -/
theorem setBufWord {w : Nat} (hw : w < numWords s.cfg) (v : Word) : (s.setBufWord w v).Inv :=
  { h with
    bufForm := Memory.wf_fill _ h.bufForm _ _ _
    bufRange := fun j hj => by
      have hj : numBytes s.cfg ≤ j := hj
      obtain ⟨-, -, hnb⟩ := legal_words h.legal
      rw [State.readBuf_setBufWord s h.bufForm, if_neg (by omega)]
      exact h.bufRange j hj
    underReset := by simp [hr] }

/-- SETMOD's length and block size fit their 32 bits, since N has at most 8192 (R6, R45, R46). -/
theorem setModulus {v : Nat} (h2 : 2 ≤ v) (hv : v < radix s.cfg) : (s.setModulus v).Inv := by
  have hbits : bitlen v ≤ 8192 := ((bitlen_le_iff v _).2 hv).trans h.legal.2.1
  have hmod : (s.setModulus v).ModulusInv := by
    refine modulusInv_of_set rfl h2 ?_ ?_
    · rw [State.setModulus_nbitlen, State.setModulus_n, BitVec.toNat_ofNat, Nat.mod_eq_of_lt (by omega)]
    · rw [State.setModulus_blksz, State.setModulus_n, BitVec.toNat_ofNat, Nat.mod_eq_of_lt (by omega)]
  exact { h with modulus := hv, modulusRegs := hmod, underReset := by simp [hr] }

theorem complete (f : Bool) (r : Nat) : (s.complete f r).Inv :=
  { h with engine := trivial, errCoded := by simp, underReset := by simp [hr] }

/-- A completion that writes one wide register. -/
theorem setW_complete (i : WReg) {v : Nat} (hv : v < radix s.cfg) (f : Bool) (r : Nat) :
    ((s.setW i v).complete f r).Inv :=
  (h.setW hr i hv).complete hr f r

theorem raise {code : ErrCode} (hc : code ≠ .none) : (s.raise code).Inv :=
  { h with engine := trivial, errCoded := fun _ => hc, underReset := by simp [hr] }

theorem accept (v : Word) : (s.accept v).Inv :=
  { h with
    engine := ⟨rfl, by simp, by simp, rfl, rfl, rfl⟩
    errCoded := by simp
    underReset := by simp [hr] }

theorem stayBusy {k x : Nat} (hk : k < 2 ^ 32) (hx : x < radix s.cfg) : (s.stayBusy k x).Inv := by
  rcases hp : s.phase with _ | c
  · have hs : s.stayBusy k x = s := by unfold State.stayBusy; rw [hp]
    rw [hs]; exact h
  · have hs : s.stayBusy k x = { s with phase := .busy { c with attempts := k, candidate := some x } } := by
      unfold State.stayBusy; rw [hp]
    obtain ⟨hw, -, -, hst⟩ := (State.engineInv_iff_of_busy hp).1 h.engine
    rw [hs]
    exact { h with
      engine := ⟨hw, hk, fun y hy => Option.some.inj hy ▸ hx, hst⟩
      underReset := fun hr' => by simp [hr] at hr' }

theorem writeCtrl (v : Word) : (s.writeCtrl v).Inv := { h with underReset := by simp [hr] }

/-- A write of STATUS only clears bits, so ERR still has its code and a running command still has DONE and ERR clear. -/
theorem writeStatus (v : Word) : (s.writeStatus v).Inv :=
  { h with
    engine := by
      rcases hp : s.phase with _ | c
      · exact State.engineInv_of_idle hp
      · obtain ⟨hw, hk, hx, hd, he, hc⟩ := (State.engineInv_iff_of_busy hp).1 h.engine
        exact (State.engineInv_iff_of_busy (s := s.writeStatus v) hp).2
          ⟨hw, hk, hx, by simp [hd], by simp [he], hc⟩
    errCoded := fun he => h.errCoded (by simp at he; exact he.1)
    underReset := by simp [hr] }

theorem setCmdovr : s.setCmdovr.Inv := { h with underReset := by simp [hr] }

theorem setAccerr : s.setAccerr.Inv := { h with underReset := by simp [hr] }

theorem withArg0 (v : Word) : ({ s with arg0 := v } : State).Inv :=
  { h with underReset := fun hr' => by simp [hr] at hr' }

theorem withArg1 (v : Word) : ({ s with arg1 := v } : State).Inv :=
  { h with underReset := fun hr' => by simp [hr] at hr' }

end

end State.Inv

end Sys2Proof.Machine
end

section
/-! Every command keeps a good state good: its error completions, its results in range, and the attempts of PRIMEGEN. -/

namespace Sys2Proof.Machine

/-! ### Results of the commands that do not reduce modulo N -/

theorem gcd_lt {a b r : Nat} (ha : a < r) (hb : b < r) : Nat.gcd a b < r := by
  rcases Nat.eq_zero_or_pos a with rfl | hpos
  · simpa using hb
  · exact (Nat.gcd_le_left b hpos).trans_lt ha

theorem countUp_lt (k : Nat) : countUp k < 2 ^ 32 := by
  unfold countUp; omega

/-- The candidate of an attempt with a legal ARG0 fits a wide register (R200, R201). -/
theorem candidate_lt_radix {c : Config} {bits iterations : Nat} {p : Port} {a : Attempt} (h2 : 2 ≤ bits)
    (hb : bits ≤ c.nbits) (h : primeAttempt bits iterations p = some a) : a.candidate < radix c := by
  obtain ⟨r, q, hr, -, hc, -⟩ := primeAttempt_cases bits iterations p a h
  rw [hc]
  exact (candidateOf_bounds bits r (by omega) hr).2.trans_le (Nat.pow_le_pow_right (by omega) hb)

/-! ### The commands -/

/-- A command that ends in an error changes no register, and every result it writes fits its register (R10, R233). -/
theorem exec_inv {i : Instr} {s t : State} (h : s.Inv) (hr : s.resetHeld = false) (he : exec i s = .next t) :
    t.Inv := by
  cases i
  case nop =>
    rw [exec_nop_cases he]
    exact h.complete hr _ _
  case setmod ra =>
    rcases exec_setmod_cases he with ⟨-, rfl⟩ | ⟨h2, rfl⟩
    · exact h.raise hr (by decide)
    · exact (h.setModulus hr h2 (h.wide ra)).complete hr _ _
  case gcd rd ra rb =>
    rw [exec_gcd_cases he]
    exact h.setW_complete hr rd (gcd_lt (h.wide ra) (h.wide rb)) _ _
  case modinv rd ra rb =>
    rcases exec_modinv_cases he with ⟨-, rfl⟩ | ⟨-, -, rfl⟩ | ⟨hpos, -, rfl⟩
    · exact h.raise hr (by decide)
    · exact h.setW_complete hr rd (radix_pos s.cfg) _ _
    · exact h.setW_complete hr rd ((modInverse_lt _ _ hpos).trans (h.wide rb)) _ _
  case mul rd rc ra rb =>
    rw [exec_mul_cases he]
    have hlow : s.readW ra * s.readW rb % radix s.cfg < radix s.cfg := Nat.mod_lt _ (radix_pos s.cfg)
    have hhigh : s.readW ra * s.readW rb / radix s.cfg < radix s.cfg :=
      Nat.div_lt_of_lt_mul (Nat.mul_lt_mul'' (h.wide ra) (h.wide rb))
    exact (h.setW hr rd hlow).setW_complete hr rc hhigh _ _
  case breduce rd ra rb =>
    rcases exec_breduce_cases he with ⟨-, rfl⟩ | ⟨hm, rfl⟩
    · exact h.raise hr (by decide)
    · exact h.setW_complete hr rd (h.mod_lt_radix hm _) _ _
  case modmul rd ra rb =>
    rcases exec_modmul_cases he with ⟨-, rfl⟩ | ⟨hm, rfl⟩
    · exact h.raise hr (by decide)
    · exact h.setW_complete hr rd (h.mod_lt_radix hm _) _ _
  case montmul rd ra rb =>
    rcases exec_montmul_cases he with ⟨-, rfl⟩ | ⟨-, -, rfl⟩ | ⟨hm, -, rfl⟩
    · exact h.raise hr (by decide)
    · exact h.raise hr (by decide)
    · exact h.setW_complete hr rd (h.mod_lt_radix hm _) _ _
  case montin rd ra =>
    rcases exec_montin_cases he with ⟨-, rfl⟩ | ⟨-, -, rfl⟩ | ⟨hm, -, rfl⟩
    · exact h.raise hr (by decide)
    · exact h.raise hr (by decide)
    · exact h.setW_complete hr rd (h.mod_lt_radix hm _) _ _
  case montout rd ra =>
    rcases exec_montout_cases he with ⟨-, rfl⟩ | ⟨-, -, rfl⟩ | ⟨hm, -, rfl⟩
    · exact h.raise hr (by decide)
    · exact h.raise hr (by decide)
    · exact h.setW_complete hr rd (h.mod_lt_radix hm _) _ _
  case powmod rd ra rb =>
    rcases exec_powmod_cases he with ⟨-, rfl⟩ | ⟨hm, rfl⟩
    · exact h.raise hr (by decide)
    · exact h.setW_complete hr rd (h.powMod_lt_radix hm _ _) _ _
  case verify ra rb rc =>
    rcases exec_verify_cases he with ⟨-, rfl⟩ | ⟨-, rfl⟩
    · exact h.raise hr (by decide)
    · exact h.complete hr _ _
  case mrtest ra =>
    rcases exec_mrtest_cases he with ⟨-, rfl⟩ | ⟨f, p, -, rfl⟩
    · exact h
    · exact (h.withInputs p _ _).complete hr _ _
  case primegen rd =>
    rcases exec_primegen_cases he with ⟨-, rfl⟩ | ⟨⟨h2, hb⟩, ⟨-, rfl⟩ | ⟨a, ha, ⟨-, rfl⟩ | ⟨-, rfl⟩⟩⟩
    · exact h.raise hr (by decide)
    · exact h
    · exact (h.withInputs a.port _ _).setW_complete hr rd (candidate_lt_radix h2 hb ha) _ _
    · exact (h.withInputs a.port _ _).stayBusy hr (countUp_lt _) (candidate_lt_radix h2 hb ha)
  case blkenc rd rb =>
    rcases exec_blkenc_cases he with ⟨-, rfl⟩ | ⟨hm, ⟨-, rfl⟩ | ⟨-, ⟨-, rfl⟩ | ⟨-, rfl⟩⟩⟩
    · exact h.raise hr (by decide)
    · exact h.raise hr (by decide)
    · exact h.raise hr (by decide)
    · exact h.setW_complete hr rd (h.powMod_lt_radix hm _ _) _ _
  case blkdec rd ra rb =>
    rcases exec_blkdec_cases he with ⟨-, rfl⟩ | ⟨hm, rfl⟩
    · exact h.raise hr (by decide)
    · exact (h.fillBuf hr _).setW_complete hr rd (h.powMod_lt_radix hm _ _) _ _

/-- The held word: the pre-checks of the decoder raise their codes, and a decoded command runs (R234). -/
theorem runWord_inv {w : Word} {s t : State} (h : s.Inv) (hr : s.resetHeld = false) (he : runWord w s = .next t) :
    t.Inv := by
  unfold runWord at he
  split at he
  · cases he; exact h.raise hr (by decide)
  · cases he; exact h.raise hr (by decide)
  · exact exec_inv h hr he

theorem engineStep_inv {s t : State} (h : s.Inv) (he : engineStep s = .next t) : t.Inv := by
  unfold engineStep at he
  split at he
  · cases he; exact h
  · next c hp => exact runWord_inv h (h.released_of_busy hp) he

end Sys2Proof.Machine
end

section
/-! Every access of the host keeps a good state good, and so every step of every agent. -/

namespace Sys2Proof.Machine

/-- A read that is blocked sets ACCERR while a command runs, and any other only answers on the bus (R86, R88). -/
theorem memRead_inv {s : State} (h : s.Inv) (off : Nat) : (s.memRead off).Inv := by
  unfold State.memRead State.afterRead
  split
  · next hb =>
    obtain ⟨c, hp⟩ := (State.isBusy_eq_true s).1 (Bool.and_eq_true_iff.1 hb).1
    exact (h.setAccerr (h.released_of_busy hp)).withInputs _ _ _
  · exact h.withInputs _ _ _

/-- A write of any slot: the words of Wi and BUF lie within them, and a read-only slot takes no write (R84). -/
theorem writeSlot_inv {s : State} {t : Slot} {off : Nat} (h : s.Inv) (hr : s.resetHeld = false) (h4 : off % 4 = 0)
    (ht : slotAt s.cfg off = t) (v : Word) : (s.writeSlot v t).Inv := by
  cases t
  case ctrl => exact h.writeCtrl hr v
  case status => exact h.writeStatus hr v
  case cmd => exact h.accept hr v
  case arg0 => exact h.withArg0 hr v
  case arg1 => exact h.withArg1 hr v
  case buf w => exact h.setBufWord hr (slotAt_buf_lt _ _ _ h4 ht) v
  case wide i j => exact h.setW hr i (withWord_lt h.legal _ _ _ (h.wide i) (slotAt_wide_lt _ _ _ _ h4 ht))
  all_goals exact h

/-- A write is without effect under reset, blocked while BUSY, or a write of its slot. -/
theorem memWrite_inv {s : State} (h : s.Inv) {off : Nat} (h4 : off % 4 = 0) (v : Word) : (s.memWrite off v).Inv := by
  have hslot : s.resetHeld = false → (s.writeSlot v (slotAt s.cfg off)).Inv := fun hr => writeSlot_inv h hr h4 rfl v
  suffices hw : (s.afterWrite (slotAt s.cfg off) v).Inv from hw.withInputs _ _ _
  unfold State.afterWrite
  split_ifs with hr hb hc hblock
  · exact h
  · exact h.setCmdovr (by simpa using hr)
  · exact h.setAccerr (by simpa using hr)
  · exact hslot (by simpa using hr)
  · exact hslot (by simpa using hr)

theorem hostStep_inv {s t : State} {a : HostAccess} (h : s.Inv) (he : s.hostStep a = .next t) : t.Inv := by
  obtain ⟨off, -, h4, ⟨-, rfl⟩ | ⟨v, -, rfl⟩⟩ := hostStep_cases he
  · exact memRead_inv h off
  · exact memWrite_inv h h4 v

theorem eventStep_inv {e : Event} {s t : State} (h : s.Inv) (he : eventStep e s = .next t) : t.Inv := by
  cases e with
  | access a => exact hostStep_inv h he
  | engine => exact engineStep_inv h he
  | supply v => cases he; exact h.withInputs _ _ _
  | assertReset => cases he; exact assertReset_inv h.legal
  | releaseReset => cases he; exact h.releaseReset

/-- Settles O7: each agent's action keeps the invariant, whichever of them has the turn. -/
theorem everyStepKeepsStatesGood : Obligations.EveryStepKeepsStatesGood := by
  intro s t h hstep
  unfold step nextAction at hstep
  split at hstep
  · exact engineStep_inv h hstep
  · exact eventStep_inv (h.withInputs s.port _ s.reply) hstep

end Sys2Proof.Machine
end

section
/-! BLKDEC in terms of the base-256 digits of its plaintext integer (R212). -/

namespace Sys2Proof.Machine

theorem radix_eq_bytes {c : Config} (hl : c.Legal) : radix c = 256 ^ numBytes c := by
  obtain ⟨-, -, hnb⟩ := legal_words hl
  rw [radix_eq_words hl, hnb, show 32 * numWords c = 8 * (4 * numWords c) by ring, pow_mul]
  norm_num

theorem payloadLen_eq_digits (m : Nat) : payloadLen m = (digitsBE m).length - 1 := by
  rw [payloadLen, lenBE_eq_digits, digitsBE, List.length_reverse]

theorem payloadByte_toNat (m j : Nat) : (payloadByte m j).toNat = (digitsBE m).getD (j + 1) 0 := by
  rw [payloadByte_eq, bytesBE_getD, Nat.add_comm]

theorem markerFound_iff (m : Nat) : markerFound m = true ↔ (digitsBE m).head? = some 0xFF := by
  rw [markerFound, decide_eq_true_iff, bytesBE_head]
  rfl

/-- The length of a payload fits RES0, since BUF has at most 1024 bytes (R6, R9). -/
theorem payloadLen_fits {c : Config} (hl : c.Legal) {m : Nat} (hm : m < radix c) : payloadLen m < 2 ^ 32 := by
  obtain ⟨h1, h2, hnb⟩ := legal_words hl
  have := payloadLen_lt m (numBytes c) (radix_eq_bytes hl ▸ hm) (by omega)
  omega

/-- BLKDEC with a valid modulus, with the power it computes named (R180, R212). -/
theorem exec_blkdec_of_valid {s : State} {m : Nat} (rd ra rb : WReg) (hm : s.status.modv = true) (h2 : 2 ≤ s.n)
    (he : m = s.readW ra ^ s.readW rb % s.n) :
    exec (.blkdec rd ra rb) s =
      .next (((s.fillBuf (payloadByte m)).setW rd m).complete (markerFound m) (payloadLen m)) := by
  rw [he, ← powMod_eq _ _ _ h2]
  exact checkModulus_of_valid s _ hm

/-- Settles O58, from the base-256 digits of c ^ d mod N. -/
theorem blkdecWritesThePayload : Obligations.BlkdecWritesThePayload := by
  intro s rd ra rb hl hn hbuf hm h2
  obtain ⟨m, he⟩ : ∃ m, m = s.readW ra ^ s.readW rb % s.n := ⟨_, rfl⟩
  have hlt : m < radix s.cfg := he ▸ (Nat.mod_lt _ (by omega)).trans hn
  refine ⟨_, m, digitsBE m, markerFound m, exec_blkdec_of_valid rd ra rb hm h2 he, he, rfl, by simp,
    ⟨rfl, ?length, rfl, rfl, rfl, rfl⟩, markerFound_iff m, fun j hj => ?payload, fun j hj => ?pastEnd,
    fun i hi => ?otherWide, ⟨rfl, rfl, rfl, rfl⟩, ⟨rfl, rfl, rfl, rfl, rfl, rfl, rfl, rfl, rfl, rfl⟩, rfl⟩
  case length =>
    rw [State.complete_res0, BitVec.toNat_ofNat, Nat.mod_eq_of_lt (payloadLen_fits hl hlt), payloadLen_eq_digits]
  case payload =>
    rw [State.readBuf_complete, State.readBuf_setW, State.readBuf_fillBuf s hbuf, if_pos hj, payloadByte_toNat]
  case pastEnd =>
    rw [State.readBuf_complete, State.readBuf_setW, State.readBuf_fillBuf s hbuf, if_neg (by omega)]
  case otherWide =>
    have hne : rd ≠ i := fun heq => hi (by simp [heq])
    rw [State.readW_complete, State.readW_setW_other _ _ hne, State.readW_fillBuf]

end Sys2Proof.Machine
end

section
/-! What one step of any agent can do (R18, R89), said once: the engine's turn, one access, an input, or the asserted reset. -/

namespace Sys2Proof.Machine

/-! ### The engine's turn -/

theorem engineStep_of_idle {s : State} (hp : s.phase = .idle) : engineStep s = .next s := by
  unfold engineStep; rw [hp]

theorem engineStep_of_decode {s : State} {c : Command} {i : Instr} (hp : s.phase = .busy c)
    (hd : decode c.word = .instr i) : engineStep s = exec i s := by
  unfold engineStep runWord; rw [hp]; simp only [hd]

/-- A turn of the engine: nothing while IDLE, else an error of the word itself or its command (R234, R246). -/
theorem engineStep_cases {s t : State} (h : engineStep s = .next t) :
    s.phase = .idle ∧ t = s ∨
      ∃ c, s.phase = .busy c ∧
        ((∃ code, t = s.raise code) ∨ ∃ i, decode c.word = .instr i ∧ exec i s = .next t) := by
  rcases hp : s.phase with _ | c
  · rw [engineStep_of_idle hp] at h
    cases h; exact .inl ⟨rfl, rfl⟩
  · refine .inr ⟨c, rfl, ?_⟩
    rcases hd : decode c.word with i | _ | _
    · exact .inr ⟨i, rfl, by rwa [engineStep_of_decode hp hd] at h⟩
    all_goals
      unfold engineStep runWord at h
      rw [hp] at h
      simp only [hd] at h
      cases h; exact .inl ⟨_, rfl⟩

/-- No command writes what belongs to the host's side. -/
theorem exec_sameHostSide {i : Instr} {s t : State} (h : exec i s = .next t) : SameHostSide s t := by
  cases exec_shape i s t h with
  | failed code _ ht => subst ht; exact .refl s
  | completed u f r ht _ hm => subst ht; exact hm
  | held _ ht => subst ht; exact .refl _
  | attempted p k x _ ht => subst ht; simp [SameHostSide]

theorem engineStep_sameHostSide {s t : State} (h : engineStep s = .next t) : SameHostSide s t := by
  rcases engineStep_cases h with ⟨-, rfl⟩ | ⟨c, -, ⟨code, rfl⟩ | ⟨i, -, he⟩⟩
  · exact .refl t
  · exact .refl s
  · exact exec_sameHostSide he

/-! ### Any step -/

theorem step_of_no_pending {s : State} (hl : s.pending = []) : step s = engineStep s := by
  unfold step nextAction; rw [hl]

theorem decode_of_decodeTableWord {nbits w : Nat} {i : Instr} (h : decodeTableWord nbits w = some i) :
    decode (tableWord nbits w) = .instr i := by
  rcases hd : decode (tableWord nbits w) with j | _ | _ <;> simp [decodeTableWord, hd] at h
  rw [h]

/-- Settles O8: the held word is decoded by the engine's turn, and withFetchWord gives the engine that turn. -/
theorem stepRunsTheDecodedCommand : Obligations.StepRunsTheDecodedCommand :=
  ⟨fun _ _ _ hp hd =>
    ⟨fun hl => (step_of_no_pending hl).trans (engineStep_of_decode hp hd), engineStep_of_decode hp hd⟩,
    fun s w _ hd => engineStep_of_decode (s := s.accept (tableWord 32 w)) rfl (decode_of_decodeTableWord hd)⟩

/-- What a step can be. `l` is what stays pending; an input is an answer for the port or the release of reset. -/
inductive StepShape (s t : State) : Prop where
  | engine (l : List Event) (h : engineStep { s with pending := l } = .next t)
  | read (l : List Event) (off : Nat) (ht : t = { s with pending := l }.memRead off)
  | write (l : List Event) (off : Nat) (v : Word) (hhead : s.pending.head? = some (hostWr s.cfg off v))
      (h4 : off % 4 = 0) (ht : t = { s with pending := l }.memWrite off v)
  | input (l : List Event) (p : Port) (held : Bool) (ht : t = { s with pending := l, port := p, resetHeld := held })
  | reset (l : List Event) (hhead : s.pending.head? = some .assertReset) (ht : t = { s with pending := l }.assertReset)

theorem step_shape {s t : State} (h : step s = .next t) : StepShape s t := by
  rcases hl : s.pending with _ | ⟨e, l⟩
  · exact .engine [] (by rw [← hl, ← h]; exact (step_of_no_pending hl).symm)
  · unfold step nextAction at h
    rw [hl] at h
    have hhead : s.pending.head? = some e := by rw [hl]; rfl
    cases e with
    | access a =>
      obtain ⟨off, -, h4, ⟨-, ht⟩ | ⟨v, ha, ht⟩⟩ := hostStep_cases h
      · exact .read l off ht
      · exact .write l off v (by rw [hhead, ha]; rfl) h4 ht
    | engine => exact .engine l h
    | supply v => cases h; exact .input l _ _ rfl
    | assertReset => cases h; exact .reset l hhead rfl
    | releaseReset => cases h; exact .input l _ _ rfl

/-! ### A write of the host -/

theorem SameModulus.refl (s : State) : SameModulus s s := ⟨rfl, rfl, rfl, rfl⟩

namespace State

/-- What a write can do: nothing under reset, a sticky bit when it is blocked, or the write of its slot (R88, R260). -/
theorem afterWrite_cases (s : State) (t : Slot) (v : Word) :
    s.afterWrite t v = s ∨ s.afterWrite t v = s.setCmdovr ∨ s.afterWrite t v = s.setAccerr ∨
      s.resetHeld = false ∧ s.afterWrite t v = s.writeSlot v t := by
  unfold afterWrite
  split_ifs with hr hb hc hblock
  · exact .inl rfl
  · exact .inr (.inl rfl)
  · exact .inr (.inr (.inl rfl))
  all_goals exact .inr (.inr (.inr ⟨by simpa using hr, rfl⟩))

/-- Only a write of CMD starts the engine (R42). -/
theorem writeSlot_phase (s : State) (v : Word) {t : Slot} (ht : t ≠ .cmd) : (s.writeSlot v t).phase = s.phase := by
  cases t
  case cmd => exact absurd rfl ht
  all_goals rfl

/-- No access writes N or what belongs to it (R32, R84). -/
theorem writeSlot_sameModulus (s : State) (v : Word) (t : Slot) : SameModulus s (s.writeSlot v t) := by
  cases t <;> exact .refl s

end State

end Sys2Proof.Machine
end

section
/-! The register file as the host reaches it: STATUS, the words of the wide registers and of BUF, and the control registers. -/

namespace Sys2Proof.Machine

/-! ### Accesses that reach their slot -/

/-- A read that is not blocked answers the slot's word and changes nothing (R86, R88). -/
theorem actFirst_hostRd_slot {s : State} {off : Nat} {t : Slot} (h : off < 0x8000) (h4 : off % 4 = 0)
    (hs : slotAt s.cfg off = t) (hb : t.readBlocked = false ∨ s.phase = .idle) :
    actFirst (hostRd s.cfg off) s = .next { s with reply := .data (s.slotWord t) } := by
  rw [actFirst_hostRd s off h h4]
  subst hs
  rcases hb with hb | hp
  · rw [s.memRead_unblocked off hb]
  · rw [s.memRead_idle off hp]

/-- A write to an idle block whose reset input is released writes its slot (R84). -/
theorem actFirst_hostWr_slot {s : State} {off : Nat} {t : Slot} (v : Word) (h : off < 0x8000) (h4 : off % 4 = 0)
    (hs : slotAt s.cfg off = t) (hp : s.phase = .idle) (hr : s.resetHeld = false) :
    actFirst (hostWr s.cfg off v) s = .next { s.writeSlot v t with reply := .ack } := by
  rw [actFirst_hostWr s off v h h4, s.memWrite_idle off v hp hr, hs]

/-! ### STATUS (R39) -/

/-- Settles O10, from the places of the fields in the STATUS word and the write that reaches it at any time. -/
theorem statusReadsItsFieldsAndClearsW1C : Obligations.StatusReadsItsFieldsAndClearsW1C := by
  refine ⟨rfl, fun s v => ⟨⟨s.statusWord, ?read, ?fields⟩, fun hr => ⟨s.writeStatus v, ?write, rfl⟩⟩⟩
  case read => exact actFirst_hostRd_slot (t := .status) (by decide) (by decide) rfl (.inl rfl)
  case fields =>
    obtain ⟨hbusy, hfields⟩ := s.statusWord_fields
    exact ⟨by rw [hbusy, s.isBusy_eq_true], hfields⟩
  case write =>
    have hs : slotAt s.cfg 0x00C = .status := rfl
    rw [actFirst_hostWr s 0x00C v (by decide) (by decide),
      s.memWrite_unblocked 0x00C v hr (by rw [hs]; decide) (by rw [hs]; rfl), hs]
    rfl

/-! ### Wide registers (R31) -/

/-- The offsets of the words beyond NW are reserved (R84). -/
theorem wideOffset_reserved {c : Config} (i : WReg) {j : Nat} (hj : j < 256) (hn : numWords c ≤ j) :
    ReservedOffset c (wideOffset i j) := by
  have hi := i.isLt
  unfold ReservedOffset wideOffset
  omega

/-- Settles O13: a word below NW is a slot of its register, and a word from NW on is a reserved one. -/
theorem wideRegisterWords : Obligations.WideRegisterWords := by
  intro s i j v hl hp hr hj
  obtain ⟨hlt, h4⟩ := wideOffset_fits i j hj
  refine ⟨fun hn => ?word, fun hn => ?tail⟩
  case word =>
    have hs := slotAt_wide s.cfg i j hn hj
    exact ⟨⟨_, actFirst_hostRd_slot hlt h4 hs (.inr hp), fun k hk => wordOf_getLsbD _ j k hk⟩,
      _, actFirst_hostWr_slot v hlt h4 hs hp hr, withWord_testBit _ j v⟩
  case tail =>
    have hs := slotAt_reserved s.cfg _ h4 (wideOffset_reserved i hj hn)
    exact ⟨actFirst_hostRd_slot hlt h4 hs (.inr hp), actFirst_hostWr_slot v hlt h4 hs hp hr⟩

/-! ### BUF (R48) -/

/-- Settles O14: a word of BUF is its four bytes, and a write of one fills four bytes and no other. -/
theorem bufferWords : Obligations.BufferWords := by
  intro s w v hl hbuf hp hr hw
  obtain ⟨-, hn, -⟩ := legal_words hl
  have hs := slotAt_buf s.cfg w hw (by omega)
  refine ⟨⟨s.bufWord w, actFirst_hostRd_slot (by omega) (by omega) hs (.inr hp), fun b hb => ?read⟩,
    { s.setBufWord w v with reply := .ack }, actFirst_hostWr_slot v (by omega) (by omega) hs hp hr,
    fun b hb => ?written, fun j hj => ?other, rfl⟩
  case read => rw [← byteOf_word, bufWord_lane s w b hb]
  case written =>
    rw [← byteOf_word]
    change ((s.setBufWord w v).readBuf (4 * w + b)).toNat = _
    rw [s.readBuf_setBufWord hbuf, if_pos (by omega), Nat.add_sub_cancel_left]
  case other =>
    change (s.setBufWord w v).readBuf j = _
    rw [s.readBuf_setBufWord hbuf, if_neg (by omega)]

/-! ### The control registers -/

/-- NBITS and the number of wide registers where R37 puts them. -/
theorem cfgWord_fields {c : Config} (hl : c.Legal) :
    (cfgWord c).toNat % 0x10000 = c.nbits ∧ (cfgWord c).toNat / 0x10000 % 0x100 = 16 ∧
      (cfgWord c).toNat / 0x1000000 = 0 := by
  obtain ⟨-, hmax, -⟩ := hl
  unfold cfgWord
  rw [BitVec.toNat_ofNat]
  omega

/-- Settles O15, slot by slot. -/
theorem hostReadsTheControlRegisters : Obligations.HostReadsTheControlRegisters := by
  intro s j v hl
  obtain ⟨-, hn, -⟩ := legal_words hl
  have read : ∀ (off : Nat) (t : Slot), off < 0x8000 → off % 4 = 0 → slotAt s.cfg off = t → t.readBlocked = false →
      actFirst (hostRd s.cfg off) s = .next { s with reply := .data (s.slotWord t) } :=
    fun _ _ h h4 hs hb => actFirst_hostRd_slot h h4 hs (.inl hb)
  refine ⟨read _ .id (by decide) rfl rfl rfl, ⟨cfgWord s.cfg, read _ .cfg (by decide) rfl rfl rfl, cfgWord_fields hl⟩,
    ⟨s.ctrlWord, read _ .ctrl (by decide) rfl rfl rfl, fun k => ?ctrl⟩, read _ .cmd (by decide) rfl rfl rfl,
    read _ .arg0 (by decide) rfl rfl rfl, read _ .arg1 (by decide) rfl rfl rfl, read _ .res0 (by decide) rfl rfl rfl,
    read _ .blksz (by decide) rfl rfl rfl, read _ .nbitlen (by decide) rfl rfl rfl, fun hp hj => ?modulus,
    fun hp hr => ?args⟩
  case ctrl => rw [s.ctrlWord_getLsbD, Bool.and_eq_true, decide_eq_true_iff]
  case modulus =>
    have hs := slotAt_modulus s.cfg j hj (by omega)
    exact ⟨wordOf s.n j, actFirst_hostRd_slot (by omega) (by omega) hs (.inr hp), fun k hk => wordOf_getLsbD _ j k hk⟩
  case args =>
    exact ⟨actFirst_hostWr_slot (t := .arg0) v (by decide) rfl rfl hp hr,
      actFirst_hostWr_slot (t := .arg1) v (by decide) rfl rfl hp hr⟩

end Sys2Proof.Machine
end

section
/-! The reset input (R260), and what starts the engine and clears the sticky bits. -/

namespace Sys2Proof.Machine

/-! ### The reset input -/

/-- The inputs still to come, the level of the reset input and the answer on the bus are no registers of the block. -/
theorem AtResetValues.withInputs {s : State} (h : AtResetValues s) (p : Port) (l : List Event) (r : BusReply)
    (held : Bool) : AtResetValues { s with port := p, pending := l, reply := r, resetHeld := held } := h

theorem AtResetValues.idle {s : State} (h : AtResetValues s) : s.phase = .idle := by
  obtain ⟨-, -, -, -, -, -, -, -, -, -, -, hp, -⟩ := h
  exact hp

theorem assertReset_atResetValues (s : State) : AtResetValues s.assertReset :=
  (resetFor_atResetValues s.cfg).withInputs s.port s.pending s.reply true

/-- While the reset input stands asserted an access only answers on the bus. -/
theorem hostStep_under_reset {s t : State} {a : HostAccess} (hr : s.resetHeld = true) (hp : s.phase = .idle)
    (h : s.hostStep a = .next t) : ∃ r, t = { s with reply := r } := by
  obtain ⟨off, -, -, ⟨-, rfl⟩ | ⟨v, -, rfl⟩⟩ := hostStep_cases h
  · exact ⟨_, s.memRead_idle off hp⟩
  · exact ⟨_, s.memWrite_held off v hr⟩

/-- No action of any agent changes a register while the reset input stands asserted, and only its release ends that. -/
theorem eventStep_under_reset {s t : State} {e : Event} (hr : s.resetHeld = true) (hs : AtResetValues s)
    (h : eventStep e s = .next t) :
    AtResetValues t ∧ t.cfg = s.cfg ∧ (t.resetHeld = false ↔ e = .releaseReset) := by
  cases e with
  | access a =>
    obtain ⟨r, rfl⟩ := hostStep_under_reset hr hs.idle h
    exact ⟨hs.withInputs _ _ r _, rfl, by simp [hr]⟩
  | engine =>
    rw [eventStep, engineStep_of_idle hs.idle] at h
    cases h; exact ⟨hs, rfl, by simp [hr]⟩
  | supply v => cases h; exact ⟨hs.withInputs _ _ _ _, rfl, by simp [hr]⟩
  | assertReset => cases h; exact ⟨assertReset_atResetValues s, rfl, by simp⟩
  | releaseReset => cases h; exact ⟨hs.withInputs _ _ _ _, rfl, by simp⟩

/-- Settles O5: asserting gives the reset values, each action keeps them, and the release changes only the input. -/
theorem resetGivesTheResetValues : Obligations.ResetGivesTheResetValues :=
  ⟨fun s => ⟨s.assertReset, rfl, assertReset_atResetValues s, rfl, rfl, rfl⟩,
    fun _ _ _ hr hs h => eventStep_under_reset hr hs h,
    fun s hs => ⟨s.releaseReset, rfl, hs.withInputs _ _ _ _, rfl, rfl, rfl⟩,
    resetFor_atResetValues _, rfl⟩

/-! ### The engine's start (R42, R47) -/

/-- A write that starts an idle engine is one of CMD, and the reset input is released. -/
theorem memWrite_starts {s : State} {off : Nat} {v : Word} {c : Command} (h4 : off % 4 = 0) (hp : s.phase = .idle)
    (hc : (s.memWrite off v).phase = .busy c) : off = 0x010 ∧ v = c.word ∧ s.resetHeld = false := by
  change (s.afterWrite (slotAt s.cfg off) v).phase = _ at hc
  rcases s.afterWrite_cases (slotAt s.cfg off) v with e | e | e | ⟨hr, e⟩ <;> rw [e] at hc
  case inr.inr.inr =>
    by_cases hs : slotAt s.cfg off = .cmd
    · rw [hs] at hc
      cases hc; exact ⟨slotAt_eq_cmd s.cfg off h4 hs, rfl, hr⟩
    · rw [s.writeSlot_phase v hs, hp] at hc
      cases hc
  all_goals exact absurd (hp.symm.trans hc) (by simp)

/-- Settles O20, over what a step can be. -/
theorem engineStartsOnlyByACmdWrite : Obligations.EngineStartsOnlyByACmdWrite := by
  refine ⟨fun s t c h hp hc => ?starts, fun s hp =>
    ⟨engineStep_of_idle hp, fun hl => (step_of_no_pending hl).trans (engineStep_of_idle hp)⟩⟩
  case starts =>
    have still : ∀ {u : State}, u.phase = .idle → u.phase ≠ .busy c := fun hu => by simp [hu]
    cases step_shape h with
    | engine l he =>
      rw [engineStep_of_idle (by exact hp)] at he
      cases he; exact absurd hc (still hp)
    | read l off ht =>
      rw [State.memRead_idle _ off (by exact hp)] at ht
      subst ht; exact absurd hc (still hp)
    | write l off v hhead h4 ht =>
      subst ht
      obtain ⟨rfl, rfl, hr⟩ := memWrite_starts h4 (by exact hp) hc
      exact ⟨hhead, hr⟩
    | input l p held ht => subst ht; exact absurd hc (still hp)
    | reset l hhead ht => subst ht; exact absurd hc (still rfl)

/-! ### The sticky bits (R39, R236) -/

/-- CMDOVR and ACCERR stay set where they were set. -/
def KeepsSticky (s t : State) : Prop :=
  (s.status.cmdovr = true → t.status.cmdovr = true) ∧ (s.status.accerr = true → t.status.accerr = true)

/-- A write of any slot but STATUS keeps the sticky bits; an accept clears DONE, ERR and ERRCODE alone (R230). -/
theorem State.writeSlot_keepsSticky (s : State) (v : Word) {t : Slot} (ht : t ≠ .status) :
    KeepsSticky s (s.writeSlot v t) := by
  cases t
  case status => exact absurd rfl ht
  all_goals exact ⟨id, id⟩

/-- A write keeps the sticky bits, or is a write of STATUS. -/
theorem memWrite_keepsSticky {s : State} {off : Nat} (v : Word) (h4 : off % 4 = 0) :
    KeepsSticky s (s.memWrite off v) ∨ off = 0x00C ∧ s.memWrite off v = { s.writeStatus v with reply := .ack } := by
  have via : ∀ {u : State}, s.afterWrite (slotAt s.cfg off) v = u → s.memWrite off v = { u with reply := .ack } :=
    fun e => by rw [State.memWrite, e]
  rcases s.afterWrite_cases (slotAt s.cfg off) v with e | e | e | ⟨-, e⟩
  · rw [via e]; exact .inl ⟨id, id⟩
  · rw [via e]; exact .inl ⟨fun _ => rfl, id⟩
  · rw [via e]; exact .inl ⟨id, fun _ => rfl⟩
  · by_cases hs : slotAt s.cfg off = .status
    · exact .inr ⟨slotAt_eq_status s.cfg off h4 hs, by rw [via e, hs]; rfl⟩
    · rw [via e]; exact .inl (s.writeSlot_keepsSticky v hs)

/-- A step keeps the sticky bits, or it asserts reset or writes STATUS. -/
theorem step_keepsSticky {s t : State} (h : step s = .next t) :
    KeepsSticky s t ∨ s.pending.head? = some .assertReset ∨
      ∃ v : Word, s.pending.head? = some (hostWr s.cfg 0x00C v) ∧
        t.status.cmdovr = (s.status.cmdovr && !v.getLsbD 5) ∧ t.status.accerr = (s.status.accerr && !v.getLsbD 6) := by
  cases step_shape h with
  | engine l he =>
    obtain ⟨-, -, -, -, -, hcmdovr, haccerr, -⟩ := engineStep_sameHostSide he
    exact .inl ⟨fun hs => hcmdovr.trans hs, fun hs => haccerr.trans hs⟩
  | read l off ht =>
    rw [State.memRead_eq] at ht
    subst ht; exact .inl ⟨id, fun hs => by simp [hs]⟩
  | write l off v hhead h4 ht =>
    subst ht
    rcases memWrite_keepsSticky (s := { s with pending := l }) v h4 with hk | ⟨rfl, e⟩
    · exact .inl hk
    · rw [e]; exact .inr (.inr ⟨v, hhead, rfl, rfl⟩)
  | input l p held ht => subst ht; exact .inl ⟨id, id⟩
  | reset l hhead _ => exact .inr (.inl hhead)

/-- Settles O18: a bit that was set and is clear was written as 1, or reset was asserted. -/
theorem stickyBitsStayUntilCleared : Obligations.StickyBitsStayUntilCleared := by
  intro s t h
  rcases step_keepsSticky h with ⟨hcmdovr, haccerr⟩ | hreset | ⟨v, hhead, hcmdovr, haccerr⟩
  · exact ⟨fun hs ht => by simp [hcmdovr hs] at ht, fun hs ht => by simp [haccerr hs] at ht⟩
  · exact ⟨fun _ _ => .inl hreset, fun _ _ => .inl hreset⟩
  · refine ⟨fun hs ht => .inr ⟨v, hhead, ?_⟩, fun hs ht => .inr ⟨v, hhead, ?_⟩⟩
    · simpa [hs, ht] using hcmdovr
    · simpa [hs, ht] using haccerr

end Sys2Proof.Machine
end

section
/-! What every command leaves of the modulus registers, FLAG and RES0, and that no command looks at FLAG, ERR or ERRCODE. -/

namespace Sys2Proof.Machine

/-! ### FLAG, RES0 and the modulus registers (R40, R41, R44) -/

/-- The commands that define FLAG (R40). -/
def DefinesFlag : Instr → Prop
  | .modinv _ _ _ => True
  | .verify _ _ _ => True
  | .mrtest _ => True
  | .blkdec _ _ _ => True
  | _ => False

/-- The commands that define RES0 (R44). -/
def DefinesResult : Instr → Prop
  | .primegen _ => True
  | .blkdec _ _ _ => True
  | _ => False

theorem definesFlag_iff (i : Instr) :
    DefinesFlag i ↔
      (∃ rd ra rb, i = .modinv rd ra rb) ∨ (∃ ra rb rc, i = .verify ra rb rc) ∨ (∃ ra, i = .mrtest ra) ∨
        ∃ rd ra rb, i = .blkdec rd ra rb := by
  cases i <;> simp [DefinesFlag]

theorem definesResult_iff (i : Instr) :
    DefinesResult i ↔ (∃ rd, i = .primegen rd) ∨ ∃ rd ra rb, i = .blkdec rd ra rb := by
  cases i <;> simp [DefinesResult]

/-- What a command does to FLAG, RES0 and the modulus registers: an error, the load of SETMOD, a completion with 0 in
what the command does not define, or no completion yet. -/
inductive ExecEffect (i : Instr) (s t : State) : Prop where
  | failed (code : ErrCode) (ht : t = s.raise code)
  | loaded (ra : WReg) (hi : i = .setmod ra) (h2 : 2 ≤ s.readW ra)
      (ht : t = (s.setModulus (s.readW ra)).complete false 0)
  | completed (u : State) (f : Bool) (r : Nat) (ht : t = u.complete f r) (hu : SameModulus s u)
      (hf : f = true → DefinesFlag i) (hr : r ≠ 0 → DefinesResult i)
  | unfinished (hm : SameModulus s t) (hp : s.phase ≠ .idle → t.phase ≠ .idle)

theorem ExecEffect.of_complete {i : Instr} {s t u : State} (ht : t = u.complete false 0) (hu : SameModulus s u) :
    ExecEffect i s t :=
  .completed u false 0 ht hu Bool.noConfusion fun h => absurd rfl h

theorem stayBusy_phase_ne_idle {s : State} (k x : Nat) (hp : s.phase ≠ .idle) : (s.stayBusy k x).phase ≠ .idle := by
  rcases hs : s.phase with _ | c
  · exact absurd hs hp
  · rw [s.stayBusy_phase k x c hs]; exact nofun

theorem exec_effect {i : Instr} {s t : State} (h : exec i s = .next t) : ExecEffect i s t := by
  cases i
  case nop => exact .of_complete (exec_nop_cases h) (.refl s)
  case setmod ra =>
    rcases exec_setmod_cases h with ⟨-, ht⟩ | ⟨h2, ht⟩
    · exact .failed _ ht
    · exact .loaded ra rfl h2 ht
  case gcd rd ra rb => exact .of_complete (exec_gcd_cases h) (.refl s)
  case modinv rd ra rb =>
    rcases exec_modinv_cases h with ⟨-, ht⟩ | ⟨-, -, ht⟩ | ⟨-, -, ht⟩
    · exact .failed _ ht
    · exact .of_complete ht (.refl s)
    · exact .completed _ _ _ ht (.refl s) (fun _ => trivial) (fun h => absurd rfl h)
  case mul rd rc ra rb => exact .of_complete (exec_mul_cases h) (.refl s)
  case breduce rd ra rb =>
    rcases exec_breduce_cases h with ⟨-, ht⟩ | ⟨-, ht⟩
    · exact .failed _ ht
    · exact .of_complete ht (.refl s)
  case modmul rd ra rb =>
    rcases exec_modmul_cases h with ⟨-, ht⟩ | ⟨-, ht⟩
    · exact .failed _ ht
    · exact .of_complete ht (.refl s)
  case montmul rd ra rb =>
    rcases exec_montmul_cases h with ⟨-, ht⟩ | ⟨-, -, ht⟩ | ⟨-, -, ht⟩
    · exact .failed _ ht
    · exact .failed _ ht
    · exact .of_complete ht (.refl s)
  case montin rd ra =>
    rcases exec_montin_cases h with ⟨-, ht⟩ | ⟨-, -, ht⟩ | ⟨-, -, ht⟩
    · exact .failed _ ht
    · exact .failed _ ht
    · exact .of_complete ht (.refl s)
  case montout rd ra =>
    rcases exec_montout_cases h with ⟨-, ht⟩ | ⟨-, -, ht⟩ | ⟨-, -, ht⟩
    · exact .failed _ ht
    · exact .failed _ ht
    · exact .of_complete ht (.refl s)
  case powmod rd ra rb =>
    rcases exec_powmod_cases h with ⟨-, ht⟩ | ⟨-, ht⟩
    · exact .failed _ ht
    · exact .of_complete ht (.refl s)
  case verify ra rb rc =>
    rcases exec_verify_cases h with ⟨-, ht⟩ | ⟨-, ht⟩
    · exact .failed _ ht
    · exact .completed _ _ _ ht (.refl s) (fun _ => trivial) (fun h => absurd rfl h)
  case mrtest ra =>
    rcases exec_mrtest_cases h with ⟨-, rfl⟩ | ⟨f, p, -, ht⟩
    · exact .unfinished (.refl _) id
    · exact .completed _ _ _ ht (.refl s) (fun _ => trivial) (fun h => absurd rfl h)
  case primegen rd =>
    rcases exec_primegen_cases h with ⟨-, ht⟩ | ⟨-, ⟨-, rfl⟩ | ⟨a, -, ⟨-, ht⟩ | ⟨-, rfl⟩⟩⟩
    · exact .failed _ ht
    · exact .unfinished (.refl _) id
    · exact .completed _ _ _ ht (.refl s) Bool.noConfusion (fun _ => trivial)
    · exact .unfinished (by simp [SameModulus]) (stayBusy_phase_ne_idle (s := { s with port := a.port }) _ _)
  case blkenc rd rb =>
    rcases exec_blkenc_cases h with ⟨-, ht⟩ | ⟨-, ⟨-, ht⟩ | ⟨-, ⟨-, ht⟩ | ⟨-, ht⟩⟩⟩
    · exact .failed _ ht
    · exact .failed _ ht
    · exact .failed _ ht
    · exact .of_complete ht (.refl s)
  case blkdec rd ra rb =>
    rcases exec_blkdec_cases h with ⟨-, ht⟩ | ⟨-, ht⟩
    · exact .failed _ ht
    · exact .completed _ _ _ ht (.refl s) (fun _ => trivial) (fun _ => trivial)

/-- Settles O26, over what a command can do to FLAG and RES0. -/
theorem flagAndResultOfOtherCommandsAreZero : Obligations.FlagAndResultOfOtherCommandsAreZero := by
  intro i s t c hp h hidle herr
  rw [← definesFlag_iff, ← definesResult_iff]
  cases exec_effect h with
  | failed code ht => subst ht; simp at herr
  | loaded ra _ _ ht => subst ht; exact ⟨rfl, rfl, Bool.noConfusion, fun h => absurd rfl h⟩
  | completed u f r ht _ hf hr =>
    subst ht
    exact ⟨rfl, rfl, hf, fun hne => hr fun hzero => hne (by rw [hzero]; rfl)⟩
  | unfinished _ hbusy => exact absurd hidle (hbusy (by simp [hp]))

/-- The engine's turn changes the modulus registers only with a SETMOD of a value of 2 or more (R33). -/
theorem engineStep_sameModulus {s t : State} (h : engineStep s = .next t) :
    SameModulus s t ∨ ∃ c ra, s.phase = .busy c ∧ decode c.word = .instr (.setmod ra) ∧ 2 ≤ s.readW ra ∧
      t = (s.setModulus (s.readW ra)).complete false 0 := by
  rcases engineStep_cases h with ⟨-, rfl⟩ | ⟨c, hp, ⟨code, rfl⟩ | ⟨i, hd, he⟩⟩
  · exact .inl (.refl _)
  · exact .inl (.refl s)
  · cases exec_effect he with
    | failed code ht => subst ht; exact .inl (.refl s)
    | loaded ra hi h2 ht => exact .inr ⟨c, ra, hp, by rw [hd, hi], h2, ht⟩
    | completed u f r ht hu _ _ => subst ht; exact .inl hu
    | unfinished hm _ => exact .inl hm

theorem memWrite_sameModulus (s : State) (off : Nat) (v : Word) : SameModulus s (s.memWrite off v) := by
  suffices hw : SameModulus s (s.afterWrite (slotAt s.cfg off) v) from hw
  rcases s.afterWrite_cases (slotAt s.cfg off) v with e | e | e | ⟨-, e⟩ <;> rw [e]
  · exact .refl s
  · exact .refl s
  · exact .refl s
  · exact s.writeSlot_sameModulus v _

/-- Settles O27: of what a step can be, only the reset and the engine's SETMOD change the modulus registers. -/
theorem onlySetmodAndResetChangeTheModulus : Obligations.OnlySetmodAndResetChangeTheModulus := by
  intro s t h hne
  cases step_shape h with
  | engine l he =>
    rcases engineStep_sameModulus he with hm | ⟨c, ra, hp, hd, h2, ht⟩
    · exact absurd hm hne
    · subst ht; exact .inr ⟨c, ra, hp, hd, rfl, h2, rfl⟩
  | read l off ht =>
    rw [State.memRead_eq] at ht
    subst ht; exact absurd (.refl s) hne
  | write l off v _ _ ht =>
    subst ht; exact absurd (memWrite_sameModulus { s with pending := l } off v) hne
  | input l p held ht => subst ht; exact absurd (.refl s) hne
  | reset l hhead _ => exact .inl hhead

/-! ### FLAG, ERR and ERRCODE are no operands (R53) -/

/-- The state with other values of FLAG, ERR and ERRCODE. -/
def State.withFlags (s : State) (f e : Bool) (code : ErrCode) : State :=
  { s with status := { s.status with flag := f, err := e, errcode := code } }

/-- Both completions write FLAG, ERR and ERRCODE, so a command that takes no draws ends alike whatever they were. -/
theorem exec_withFlags {i : Instr} (hi : ¬TakesDraws i) (s : State) (f e : Bool) (code : ErrCode) :
    exec i (s.withFlags f e code) = exec i s := by
  cases i
  case mrtest ra => exact absurd trivial hi
  case primegen rd => exact absurd trivial hi
  all_goals rfl

theorem exec_mrtest_withFlags {ra : WReg} {s t : State} (f e : Bool) (code : ErrCode) (hp : s.phase ≠ .idle)
    (h : exec (.mrtest ra) s = .next t) (ht : t.phase = .idle) :
    exec (.mrtest ra) (s.withFlags f e code) = .next t := by
  rcases exec_mrtest_cases h with ⟨-, rfl⟩ | ⟨ok, p, hm, rfl⟩
  · exact absurd ht hp
  · have hm' : millerRabin ((s.withFlags f e code).readW ra) (s.withFlags f e code).arg1.toNat
        (s.withFlags f e code).port = some (ok, p) := hm
    change execMrtest ra (s.withFlags f e code) = _
    unfold execMrtest
    rw [hm']; rfl

theorem exec_primegen_withFlags {rd : WReg} {s t : State} (f e : Bool) (code : ErrCode) (hp : s.phase ≠ .idle)
    (h : exec (.primegen rd) s = .next t) (ht : t.phase = .idle) :
    exec (.primegen rd) (s.withFlags f e code) = .next t := by
  change execPrimegen rd (s.withFlags f e code) = _
  unfold execPrimegen
  rcases exec_primegen_cases h with ⟨hb, rfl⟩ | ⟨⟨h2, hn⟩, ⟨-, rfl⟩ | ⟨a, ha, ⟨hok, rfl⟩ | ⟨-, rfl⟩⟩⟩
  · rw [check_of _ _ _ (by exact hb)]; rfl
  · exact absurd ht hp
  · have ha' : primeAttempt (s.withFlags f e code).arg0.toNat (s.withFlags f e code).arg1.toNat
        (s.withFlags f e code).port = some a := ha
    rw [check_of_not _ _ _ (by change ¬(s.arg0.toNat < 2 ∨ s.cfg.nbits < s.arg0.toNat); omega), ha']
    simp only [hok]; rfl
  · exact absurd ht (stayBusy_phase_ne_idle (s := { s with port := a.port }) _ _ hp)

/-- Settles O28: a command that takes draws completes alike too, since its draws do not depend on them either. -/
theorem resultsDoNotDependOnFlags : Obligations.ResultsDoNotDependOnFlags := by
  intro i s t c f e code hp h ht
  have hbusy : s.phase ≠ .idle := by simp [hp]
  change exec i (s.withFlags f e code) = _
  cases i
  case mrtest ra => exact exec_mrtest_withFlags f e code hbusy h ht
  case primegen rd => exact exec_primegen_withFlags f e code hbusy h ht
  all_goals rw [exec_withFlags id]; exact h

end Sys2Proof.Machine
end

section
/-! The silent random-bits port (R52, R266): a command that needs a draw of it holds. -/

namespace Sys2Proof.Machine

section
variable {p : Port} (hq : p.queue = []) (ht : p.tail = .silent)
include hq ht

theorem Port.drawRange_silent (lo hi : Nat) : p.drawRange lo hi = none := by
  unfold Port.drawRange Port.take
  simp only [hq, ht]

/-- A test with a witness round to run needs a draw (R190, R192). -/
theorem millerRabin_silent {n k : Nat} (hn : 5 ≤ n) (hodd : n % 2 = 1) (hk : 2 ≤ k) : millerRabin n k p = none := by
  obtain ⟨r, hr⟩ : ∃ r, roundCount k = r + 1 := ⟨k - 2, by unfold roundCount; omega⟩
  unfold millerRabin
  rw [if_neg (by omega), if_neg (by omega), hr]
  unfold witnessRounds
  rw [Port.drawRange_silent hq ht]

/-- An attempt of PRIMEGEN begins with a draw (R200). -/
theorem primeAttempt_silent (bits iterations : Nat) : primeAttempt bits iterations p = none := by
  have hdraw : p.drawBits bits = none := Port.drawRange_silent hq ht _ _
  unfold primeAttempt
  rw [hdraw]

end

/-- Settles O54: without the draws of its test or attempt the command leaves the state as it was. -/
theorem silentPortHoldsTheEngine : Obligations.SilentPortHoldsTheEngine := by
  intro s c hp hl hq ht
  have turn : ∀ {i : Instr}, decode c.word = .instr i → step s = exec i s := fun hd =>
    (step_of_no_pending hl).trans (engineStep_of_decode hp hd)
  refine ⟨fun ra hd h5 hodd hk => ?mrtest, fun rd hd h2 hn => ?primegen⟩
  case mrtest =>
    rw [turn hd]
    change execMrtest ra s = _
    unfold execMrtest
    rw [millerRabin_silent hq ht h5 hodd hk]
  case primegen =>
    rw [turn hd]
    change execPrimegen rd s = _
    unfold execPrimegen
    rw [check_of_not _ _ _ (by omega), primeAttempt_silent hq ht]

end Sys2Proof.Machine
end

section
/-! The window of the host's accesses (20_memory.md): what the bus refuses (R82), the reserved and read-only offsets
(R84), accesses while a command runs (R88), and that idle reads are clean and writes idempotent (R86). -/

namespace Sys2Proof.Machine

/-! ### The bus's own checks (R82) -/

/-- An access inside the window gets through exactly when it is an aligned word. -/
theorem throughBus_inside (s : State) {off : Nat} (size : Nat) (k : Nat → State) (h : off < 0x8000) :
    s.throughBus (s.cfg.base + off) size k = if AccessFits off size then .next (k off) else .fault .busError := by
  unfold State.throughBus
  rw [if_neg (fits_iff h), Nat.add_sub_cancel_left]

theorem throughBus_busError (s : State) {off size : Nat} (k : Nat → State) (h : off < 0x8000)
    (hbad : size ≠ 4 ∨ off % 4 ≠ 0) : s.throughBus (s.cfg.base + off) size k = .fault .busError := by
  rw [throughBus_inside s size k h, if_neg (by omega)]

/-- Settles O9: an access that is not an aligned word is stopped on the bus, and an aligned word reaches its slot. -/
theorem onlyAlignedWordAccessesGetThrough : Obligations.OnlyAlignedWordAccessesGetThrough := by
  intro s off size v h
  refine ⟨fun hbad => ?refused, fun hsize h4 => ?answered⟩
  case refused =>
    have stopped : ∀ k, s.throughBus (s.cfg.base + off) size k = .fault .busError := fun k =>
      throughBus_busError s k h hbad
    exact ⟨stopped s.memRead, stopped fun o => s.memWrite o v⟩
  case answered =>
    subst hsize
    exact ⟨⟨s.memRead off, _, actFirst_hostRd s off h h4, rfl⟩, s.memWrite off v, actFirst_hostWr s off v h h4, rfl⟩

/-! ### The slots by offset (R80) -/

theorem slotAt_of_buf_offset {c : Config} {off : Nat} (hl : c.Legal) (h4 : off % 4 = 0) (hlo : 0x800 ≤ off)
    (hhi : off < 0x800 + 4 * numWords c) : ∃ w, slotAt c off = .buf w := by
  obtain ⟨-, hn, -⟩ := legal_words hl
  obtain ⟨w, rfl⟩ : ∃ w, off = 0x800 + 4 * w := ⟨(off - 0x800) / 4, by omega⟩
  exact ⟨w, slotAt_buf c w (by omega) (by omega)⟩

theorem slotAt_of_modulus_offset {c : Config} {off : Nat} (hl : c.Legal) (h4 : off % 4 = 0) (hlo : 0x1000 ≤ off)
    (hhi : off < 0x1000 + 4 * numWords c) : ∃ j, slotAt c off = .modulus j := by
  obtain ⟨-, hn, -⟩ := legal_words hl
  obtain ⟨j, rfl⟩ : ∃ j, off = 0x1000 + 4 * j := ⟨(off - 0x1000) / 4, by omega⟩
  exact ⟨j, slotAt_modulus c j (by omega) (by omega)⟩

theorem slotAt_of_wide_offset {c : Config} {off : Nat} (h : off < 0x8000) (h4 : off % 4 = 0) (hlo : 0x4000 ≤ off)
    (hn : off % 0x400 < 4 * numWords c) : ∃ i j, slotAt c off = .wide i j := by
  obtain ⟨i, j, hj, rfl⟩ : ∃ (i : WReg) (j : Nat), j < 256 ∧ off = wideOffset i j :=
    ⟨⟨(off - 0x4000) / 0x400, by omega⟩, off % 0x400 / 4, by omega, by unfold wideOffset; dsimp only; omega⟩
  exact ⟨i, j, slotAt_wide c i j (by unfold wideOffset at hn; omega) hj⟩

/-- The window of N holds its words and then reserved ones. -/
theorem slotAt_modulus_window {c : Config} {off : Nat} (hl : c.Legal) (h4 : off % 4 = 0) (hlo : 0x1000 ≤ off)
    (hhi : off < 0x1400) : (∃ j, slotAt c off = .modulus j) ∨ slotAt c off = .reserved := by
  by_cases hn : off < 0x1000 + 4 * numWords c
  · exact .inl (slotAt_of_modulus_offset hl h4 hlo hn)
  · exact .inr (slotAt_reserved c off h4 (by unfold ReservedOffset; omega))

/-- No read of a control register is blocked (R88). -/
theorem readBlocked_of_control {c : Config} {off : Nat} (h4 : off % 4 = 0) (h : off < 0x028) :
    (slotAt c off).readBlocked = false := by
  obtain ⟨k, rfl⟩ : ∃ k, off = 4 * k := ⟨off / 4, by omega⟩
  have hk : k < 10 := by omega
  interval_cases k <;> rfl

/-! ### A write of a slot -/

namespace Slot

/-- The slots whose writes R84 ignores: the read-only registers and the reserved offsets. -/
def writeIgnored : Slot → Bool
  | .id | .cfg | .res0 | .blksz | .nbitlen | .modulus _ | .reserved => true
  | _ => false

end Slot

namespace State

/-- What a write of anything but CMD does: nothing under reset, ACCERR alone when it is blocked, else the write of its slot. -/
theorem afterWrite_eq (s : State) (v : Word) {t : Slot} (ht : t ≠ .cmd) :
    s.afterWrite t v =
      if s.resetHeld then s else if s.isBusy && t.writeBlocked then s.setAccerr else s.writeSlot v t := by
  unfold afterWrite
  cases s.isBusy <;> simp [ht]

theorem afterWrite_ignored (s : State) (v : Word) {t : Slot} (ht : t.writeIgnored = true) : s.afterWrite t v = s := by
  have hslot : t ≠ .cmd ∧ t.writeBlocked = false ∧ s.writeSlot v t = s := by
    cases t
    case ctrl | status | cmd | arg0 | arg1 | buf | wide => cases ht
    all_goals exact ⟨nofun, rfl, rfl⟩
  obtain ⟨hcmd, hblock, hwrite⟩ := hslot
  rw [s.afterWrite_eq v hcmd, hblock, hwrite]
  simp

theorem writeSlot_cfg (s : State) (v : Word) (t : Slot) : (s.writeSlot v t).cfg = s.cfg := by
  cases t <;> rfl

theorem writeSlot_resetHeld (s : State) (v : Word) (t : Slot) : (s.writeSlot v t).resetHeld = s.resetHeld := by
  cases t <;> rfl

theorem writeSlot_isBusy (s : State) (v : Word) {t : Slot} (ht : t ≠ .cmd) : (s.writeSlot v t).isBusy = s.isBusy := by
  unfold isBusy; rw [s.writeSlot_phase v ht]

/-- No write of a slot sets ACCERR (R236). -/
theorem writeSlot_accerr {s : State} {v : Word} {t : Slot} (h : (s.writeSlot v t).status.accerr = true) :
    s.status.accerr = true := by
  cases t
  case status => rw [writeSlot, writeStatus_status_accerr, Bool.and_eq_true] at h; exact h.1
  all_goals exact h

end State

/-! ### Reserved and read-only offsets (R84) -/

theorem actFirst_hostWr_ignored {s : State} {off : Nat} (v : Word) (h : off < 0x8000) (h4 : off % 4 = 0)
    (ht : (slotAt s.cfg off).writeIgnored = true) :
    actFirst (hostWr s.cfg off v) s = .next { s with reply := .ack } := by
  rw [actFirst_hostWr s off v h h4, State.memWrite, s.afterWrite_ignored v ht]

theorem actFirst_hostWr_ctrl {s : State} (v : Word) (hr : s.resetHeld = false) :
    actFirst (hostWr s.cfg 0x008 v) s = .next { s.writeCtrl v with reply := .ack } := by
  rw [actFirst_hostWr s 0x008 v (by decide) rfl]
  exact congrArg _ (s.memWrite_unblocked 0x008 v hr (nofun : Slot.ctrl ≠ .cmd) rfl)

theorem actFirst_hostWr_status {s : State} (v : Word) (hr : s.resetHeld = false) :
    actFirst (hostWr s.cfg 0x00C v) s = .next { s.writeStatus v with reply := .ack } := by
  rw [actFirst_hostWr s 0x00C v (by decide) rfl]
  exact congrArg _ (s.memWrite_unblocked 0x00C v hr (nofun : Slot.status ≠ .cmd) rfl)

/-- Both accesses of a reserved offset, at any time. -/
theorem actFirst_reserved {s : State} {off : Nat} (v : Word) (h : off < 0x8000) (h4 : off % 4 = 0)
    (hres : ReservedOffset s.cfg off) :
    actFirst (hostRd s.cfg off) s = .next { s with reply := .data 0 } ∧
      actFirst (hostWr s.cfg off v) s = .next { s with reply := .ack } := by
  have hs := slotAt_reserved s.cfg off h4 hres
  exact ⟨actFirst_hostRd_slot h h4 hs (.inl rfl), actFirst_hostWr_ignored v h h4 (by rw [hs]; rfl)⟩

/-- The read-only registers of R84: ID, CFG, RES0, BLKSZ, NBITLEN and N. -/
theorem writeIgnored_of_readOnly {c : Config} {off : Nat} (hl : c.Legal) (h4 : off % 4 = 0)
    (h : off = 0x000 ∨ off = 0x004 ∨ off = 0x01C ∨ off = 0x020 ∨ off = 0x024 ∨ 0x1000 ≤ off ∧ off < 0x1400) :
    (slotAt c off).writeIgnored = true := by
  rcases h with rfl | rfl | rfl | rfl | rfl | ⟨hlo, hhi⟩
  case inr.inr.inr.inr.inr =>
    rcases slotAt_modulus_window hl h4 hlo hhi with ⟨j, hs⟩ | hs <;> rw [hs] <;> rfl
  all_goals rfl

/-- An idle write sets no ACCERR, whether reset stands asserted or the write reaches its slot. -/
theorem memWrite_idle_accerr {s : State} {off : Nat} {v : Word} (hp : s.phase = .idle)
    (h : (s.memWrite off v).status.accerr = true) : s.status.accerr = true := by
  obtain hr | hr := s.resetHeld.eq_false_or_eq_true
  · rwa [s.memWrite_held off v hr] at h
  · rw [s.memWrite_idle off v hp hr] at h
    exact State.writeSlot_accerr h

/-- Settles O12, offset by offset; a STATUS write leaves the read-only fields under reset and out of it. -/
theorem reservedAndReadOnlyOffsets : Obligations.ReservedAndReadOnlyOffsets := by
  intro s off v hl h h4
  refine ⟨actFirst_reserved v h h4, fun hro => actFirst_hostWr_ignored v h h4 (writeIgnored_of_readOnly hl h4 hro),
    actFirst_hostWr_ctrl v, ?status, fun hp => ⟨fun t ht => ?read, fun t ht => ?write⟩⟩
  case status =>
    obtain hr | hr := s.resetHeld.eq_false_or_eq_true
    · refine ⟨{ s with reply := .ack }, ?_, rfl, rfl, rfl, rfl, rfl⟩
      rw [actFirst_hostWr s 0x00C v (by decide) rfl, s.memWrite_held _ v hr]
    · exact ⟨_, actFirst_hostWr_status v hr, rfl, rfl, rfl, rfl, rfl⟩
  case read =>
    rw [actFirst_hostRd_slot h h4 rfl (.inr hp)] at ht
    cases ht; rfl
  case write =>
    rw [actFirst_hostWr s off v h h4] at ht
    cases ht; exact memWrite_idle_accerr hp

/-! ### Accesses while a command runs (R88) -/

/-- What a running command reads and writes is as before: the phase with the held word, CMD, the wide registers, BUF, the
modulus registers, ARG0, ARG1 and RES0. -/
def KeepsCommandData (s t : State) : Prop :=
  t.phase = s.phase ∧ t.cmd = s.cmd ∧ SameWideExcept [] s t ∧ SameBuf s t ∧ SameModulus s t ∧
    t.arg0 = s.arg0 ∧ t.arg1 = s.arg1 ∧ t.res0 = s.res0

/-- CTRL, the bits of STATUS but MODV and the answer on the bus are nothing a command works on. -/
theorem keepsCommandData_of_controls (s : State) (ie : Bool) {st : Status} (r : BusReply)
    (hm : st.modv = s.status.modv) : KeepsCommandData s { s with ie := ie, status := st, reply := r } :=
  ⟨rfl, rfl, fun _ _ => rfl, fun _ => rfl, ⟨rfl, hm, rfl, rfl⟩, rfl, rfl, rfl⟩

theorem memRead_keepsCommandData (s : State) (off : Nat) : KeepsCommandData s (s.memRead off) := by
  rw [s.memRead_eq]
  exact keepsCommandData_of_controls s s.ie _ rfl

/-- A write while BUSY sets a sticky bit, or it reaches CTRL, STATUS or a slot that ignores it. -/
theorem memWrite_keepsCommandData {s : State} (off : Nat) (v : Word) (hb : s.isBusy = true)
    (hr : s.resetHeld = false) : KeepsCommandData s (s.memWrite off v) := by
  rw [s.memWrite_busy off v hb hr]
  split_ifs with hcmd hblock
  · exact keepsCommandData_of_controls s s.ie _ rfl
  · exact keepsCommandData_of_controls s s.ie _ rfl
  · cases hs : slotAt s.cfg off
    case cmd => exact absurd hs hcmd
    case arg0 | arg1 | buf | wide => rw [hs] at hblock; exact absurd rfl hblock
    all_goals exact keepsCommandData_of_controls s _ _ rfl

theorem actFirst_hostRd_blocked {s : State} {off : Nat} (h : off < 0x8000) (h4 : off % 4 = 0) (hb : s.isBusy = true)
    (ht : (slotAt s.cfg off).readBlocked = true) :
    actFirst (hostRd s.cfg off) s = .next { s.setAccerr with reply := .data 0 } := by
  rw [actFirst_hostRd s off h h4, s.memRead_blocked off hb ht]

theorem actFirst_hostWr_blocked {s : State} {off : Nat} (v : Word) (h : off < 0x8000) (h4 : off % 4 = 0)
    (hb : s.isBusy = true) (hr : s.resetHeld = false) (hcmd : slotAt s.cfg off ≠ .cmd)
    (ht : (slotAt s.cfg off).writeBlocked = true) :
    actFirst (hostWr s.cfg off v) s = .next { s.setAccerr with reply := .ack } := by
  rw [actFirst_hostWr s off v h h4, s.memWrite_busy off v hb hr, if_neg hcmd, if_pos ht]

/-- Settles O16, slot by slot; the last clause holds since a write while BUSY reaches CTRL and STATUS alone. -/
theorem accessesWhileBusy : Obligations.AccessesWhileBusy := by
  intro s c off v hl hp hr h h4
  have hb : s.isBusy = true := (State.isBusy_eq_true s).2 ⟨c, hp⟩
  refine ⟨fun hoff => actFirst_hostRd_blocked h h4 hb ?read, fun hoff => ?write, ?cmd,
    fun hctl => actFirst_hostRd_slot h h4 rfl (.inl (readBlocked_of_control h4 hctl)), actFirst_hostWr_ctrl v hr,
    actFirst_hostWr_status v hr, actFirst_reserved v h h4, fun t a ha => ?keeps⟩
  case read =>
    rcases hoff with ⟨hlo, hhi⟩ | ⟨hlo, hhi⟩ | ⟨hlo, hn⟩
    · obtain ⟨w, hs⟩ := slotAt_of_buf_offset hl h4 hlo hhi
      rw [hs]; rfl
    · obtain ⟨j, hs⟩ := slotAt_of_modulus_offset hl h4 hlo hhi
      rw [hs]; rfl
    · obtain ⟨i, j, hs⟩ := slotAt_of_wide_offset h h4 hlo hn
      rw [hs]; rfl
  case write =>
    have blocked : ∀ {t : Slot}, slotAt s.cfg off = t → t ≠ .cmd → t.writeBlocked = true →
        actFirst (hostWr s.cfg off v) s = .next { s.setAccerr with reply := .ack } := fun hs hcmd ht =>
      actFirst_hostWr_blocked v h h4 hb hr (hs ▸ hcmd) (hs ▸ ht)
    rcases hoff with ⟨hlo, hhi⟩ | ⟨hlo, hn⟩ | rfl | rfl
    · obtain ⟨w, hs⟩ := slotAt_of_buf_offset hl h4 hlo hhi
      exact blocked hs nofun rfl
    · obtain ⟨i, j, hs⟩ := slotAt_of_wide_offset h h4 hlo hn
      exact blocked hs nofun rfl
    · exact blocked (t := .arg0) rfl nofun rfl
    · exact blocked (t := .arg1) rfl nofun rfl
  case cmd => rw [actFirst_hostWr s 0x010 v (by decide) rfl, s.memWrite_busy 0x010 v hb hr]; rfl
  case keeps =>
    obtain ⟨o, -, -, ⟨-, rfl⟩ | ⟨x, -, rfl⟩⟩ := hostStep_cases (s := s) ha
    · exact memRead_keepsCommandData s o
    · exact memWrite_keepsCommandData o x hb hr

/-! ### Idempotent writes (R86) -/

theorem withWord_withWord (x j : Nat) (v : Word) : withWord (withWord x j v) j v = withWord x j v := by
  apply Nat.eq_of_testBit_eq
  intro k
  rw [withWord_testBit (withWord x j v), withWord_testBit x]
  split <;> rfl

namespace State

theorem setW_setW (s : State) (i : WReg) (u v : Nat) : (s.setW i u).setW i v = s.setW i v := by
  simp [setW]

/-- Canonical buffers that read alike are equal, so writing the same four bytes again changes no data (R48). -/
theorem setBufWord_setBufWord {s : State} (hm : Memory.wf s.buf = true) (w : Nat) (v : Word) :
    (s.setBufWord w v).setBufWord w v = s.setBufWord w v := by
  have hm1 : Memory.wf (s.setBufWord w v).buf = true := Memory.wf_fill _ hm _ _ _
  have hm2 : Memory.wf ((s.setBufWord w v).setBufWord w v).buf = true := Memory.wf_fill _ hm1 _ _ _
  have hbuf : ((s.setBufWord w v).setBufWord w v).buf = (s.setBufWord w v).buf := by
    refine Memory.ext_of_reads _ _ hm2 hm1 fun j => ?_
    change ((s.setBufWord w v).setBufWord w v).readBuf j = (s.setBufWord w v).readBuf j
    rw [readBuf_setBufWord _ hm1, readBuf_setBufWord s hm]
    split <;> rfl
  exact congrArg (fun b => ({ s with buf := b } : State)) hbuf

theorem writeStatus_writeStatus (s : State) (v : Word) : (s.writeStatus v).writeStatus v = s.writeStatus v := by
  simp [writeStatus]

theorem writeSlot_writeSlot {s : State} (hm : Memory.wf s.buf = true) (v : Word) {t : Slot} (ht : t ≠ .cmd) :
    (s.writeSlot v t).writeSlot v t = s.writeSlot v t := by
  cases t
  case cmd => exact absurd rfl ht
  case status => exact s.writeStatus_writeStatus v
  case buf w => exact setBufWord_setBufWord hm w v
  case wide i j => simp only [writeSlot, readW_setW_same, withWord_withWord, setW_setW]
  all_goals rfl

/-- A write of anything but CMD keeps what decides its fate, so it does the same again. -/
theorem afterWrite_afterWrite {s : State} (hm : Memory.wf s.buf = true) (v : Word) {t : Slot} (ht : t ≠ .cmd) :
    (s.afterWrite t v).afterWrite t v = s.afterWrite t v := by
  rw [s.afterWrite_eq v ht]
  by_cases hr : s.resetHeld
  · rw [if_pos hr, s.afterWrite_eq v ht, if_pos hr]
  rw [if_neg hr]
  by_cases hb : s.isBusy && t.writeBlocked
  · rw [if_pos hb, afterWrite_eq _ v ht, setAccerr_resetHeld, if_neg hr, isBusy_setAccerr, if_pos hb]
    rfl
  · rw [if_neg hb, afterWrite_eq _ v ht, writeSlot_resetHeld, if_neg hr, writeSlot_isBusy s v ht, if_neg hb,
      writeSlot_writeSlot hm v ht]

theorem afterWrite_cfg (s : State) (t : Slot) (v : Word) : (s.afterWrite t v).cfg = s.cfg := by
  rcases s.afterWrite_cases t v with e | e | e | ⟨-, e⟩ <;> rw [e]
  · rfl
  · rfl
  · exact s.writeSlot_cfg v t

/-- A write does not look at the last answer on the bus. -/
theorem afterWrite_withReply (s : State) (t : Slot) (v : Word) (r : BusReply) :
    ({ s with reply := r } : State).afterWrite t v = { s.afterWrite t v with reply := r } := by
  have hslot : ({ s with reply := r } : State).writeSlot v t = { s.writeSlot v t with reply := r } := by
    cases t <;> rfl
  unfold afterWrite
  rw [hslot]
  change (if s.resetHeld then _ else if s.isBusy then _ else _) = _
  split_ifs <;> rfl

theorem memWrite_memWrite {s : State} (hm : Memory.wf s.buf = true) {off : Nat} (v : Word)
    (ht : slotAt s.cfg off ≠ .cmd) : (s.memWrite off v).memWrite off v = s.memWrite off v := by
  unfold memWrite
  rw [afterWrite_withReply]
  simp only [afterWrite_cfg, afterWrite_afterWrite hm v ht]

end State

/-- Settles O17: an idle read only answers, and a write meets the state its first time left as it met the one before. -/
theorem idleReadsAreCleanAndWritesIdempotent : Obligations.IdleReadsAreCleanAndWritesIdempotent := by
  intro s off v hm h h4
  refine ⟨fun hp => ⟨_, actFirst_hostRd_slot h h4 rfl (.inr hp)⟩, fun hoff t u ht hu => ?twice⟩
  case twice =>
    rw [actFirst_hostWr s off v h h4] at ht
    cases ht
    have hcfg : (s.memWrite off v).cfg = s.cfg := s.afterWrite_cfg _ v
    rw [← hcfg, actFirst_hostWr _ off v h h4,
      State.memWrite_memWrite hm v fun hs => hoff (slotAt_eq_cmd s.cfg off h4 hs)] at hu
    cases hu; rfl

end Sys2Proof.Machine
end

section
/-! The encoding (30_encoding.md): the round trip, the fields of a word under a command's mask, the outcomes of decoding, and how
an accepted word that names no command ends. -/

namespace Sys2Proof

/-! ### Decoding an encoded word (R110, R121) -/

/-- A packed word decodes to what the opcode map names by its fields. -/
theorem decode_packWord {o : Byte} {rd ra rb rc : WReg} {i : Instr}
    (h : decodeOpcode o.toNat rd ra rb rc = some i) : decode (packWord o rd ra rb rc) = .instr i := by
  rw [decode_eq_instr, opcField_packWord, rdField_packWord, raField_packWord, rbField_packWord, rcField_packWord]
  exact ⟨h, rsvField_packWord o rd ra rb rc⟩

/-- Settles O1: the fields a command's word is packed from select its own entry of the opcode map. -/
theorem decodeOfEncodeIsTheCommand : Obligations.DecodeOfEncodeIsTheCommand := by
  intro i
  cases i <;> exact decode_packWord rfl

/-! ### The fields of a masked word -/

/-- A mask that covers a field of the word keeps it. -/
theorem extractLsb'_and_of_ones {lo len : Nat} (w : Word) {m : Word} (hm : m.extractLsb' lo len = BitVec.allOnes len) :
    (w &&& m).extractLsb' lo len = w.extractLsb' lo len := by
  rw [BitVec.extractLsb'_and, hm, BitVec.and_allOnes]

theorem opcField_and_of_ones (w : Word) {m : Word} (hm : opcField m = 0xFF) : opcField (w &&& m) = opcField w :=
  extractLsb'_and_of_ones w hm

theorem rsvField_and_of_ones (w : Word) {m : Word} (hm : rsvField m = 0xFF) : rsvField (w &&& m) = rsvField w :=
  extractLsb'_and_of_ones w hm

theorem regField_and_of_ones {lo : Nat} (w : Word) {m : Word} (hm : regField lo m = 15) :
    regField lo (w &&& m) = regField lo w :=
  congrArg BitVec.toFin (extractLsb'_and_of_ones w (BitVec.eq_of_toFin_eq hm))

/-- A mask that leaves a register field out clears it. -/
theorem regField_and_of_zero {lo : Nat} (w : Word) {m : Word} (hm : regField lo m = 0) : regField lo (w &&& m) = 0 := by
  have hm' : m.extractLsb' lo 4 = 0#4 := BitVec.eq_of_toFin_eq hm
  rw [regField, BitVec.extractLsb'_and, hm', BitVec.and_zero]
  rfl

/-- A word is a packed one exactly when its fields are the packed ones and its reserved bits are zero. -/
theorem eq_packWord_iff {w : Word} {o : Byte} {rd ra rb rc : WReg} :
    w = packWord o rd ra rb rc ↔
      opcField w = o ∧ regField 8 w = rd ∧ regField 12 w = ra ∧ regField 16 w = rb ∧ regField 20 w = rc ∧
        rsvField w = 0 := by
  constructor
  · rintro rfl
    exact ⟨opcField_packWord .., rdField_packWord .., raField_packWord .., rbField_packWord .., rcField_packWord ..,
      rsvField_packWord ..⟩
  · rintro ⟨rfl, rfl, rfl, rfl, rfl, hr⟩
    exact (packWord_fields w hr).symm

/-- The word of a decoded command under its mask, row by row of the opcode map. -/
theorem and_fieldMask_of_decode {w : Word} {i : Instr} (h : decode w = .instr i) : w &&& fieldMask i = encode i := by
  obtain ⟨hmap, hrsv⟩ := (decode_eq_instr w i).1 h
  have ho : opcField w = BitVec.ofNat 8 (opcField w).toNat := by simp
  unfold decodeOpcode at hmap
  split at hmap <;> cases hmap
  all_goals
    next hopc =>
    rw [hopc] at ho
    simp only [encode, fieldMask, eq_packWord_iff]
    simp (disch := decide) only [opcField_and_of_ones, rsvField_and_of_ones, regField_and_of_ones,
      regField_and_of_zero, rdField, raField, rbField, rcField, hrsv, and_true]
    exact ho

/-- A word with the opcode and the used fields of a command, and zero reserved bits, decodes to it. -/
theorem decode_of_and_fieldMask {w : Word} {i : Instr} (h : w &&& fieldMask i = encode i) : decode w = .instr i := by
  rw [decode_eq_instr]
  cases i
  all_goals
    simp only [encode, fieldMask, eq_packWord_iff] at h
    simp (disch := decide) only [opcField_and_of_ones, rsvField_and_of_ones, regField_and_of_ones,
      regField_and_of_zero] at h
    obtain ⟨ho, hd, ha, hb, hc, hrsv⟩ := h
    rw [ho, rdField, raField, rbField, rcField]
    subst_vars
    exact ⟨rfl, hrsv⟩

/-- What a command looks at is its word under its mask, and nothing else (R114). -/
theorem decode_eq_instr_iff_and_fieldMask (w : Word) (i : Instr) :
    decode w = .instr i ↔ w &&& fieldMask i = encode i :=
  ⟨and_fieldMask_of_decode, decode_of_and_fieldMask⟩

/-! ### The outcomes of decoding (R116, R117, R119) -/

theorem exists_decode_eq_instr (w : Word) :
    (∃ i, decode w = .instr i) ↔ w.toNat % 0x100 < 0x10 ∧ w.toNat / 0x1000000 = 0 := by
  simp only [decode_eq_instr, exists_and_right, ← Option.isSome_iff_exists, ← Option.ne_none_iff_isSome, Ne,
    decodeOpcode_eq_none, opcField_toNat, rsvField_eq_zero, not_le]

/-- Settles O3: one outcome each for an illegal opcode, a legal one with reserved bits, and a legal one without. -/
theorem decodingHasThreeOutcomes : Obligations.DecodingHasThreeOutcomes := fun w =>
  ⟨decode_eq_illegal w, decode_eq_reserved w, exists_decode_eq_instr w⟩

/-- The mask 0xFF0000FF keeps the opcode and the reserved bits, and clears the register fields. -/
theorem and_selectMask_lt_iff (w : Word) :
    (w &&& 0xFF0000FF).toNat < 0x10 ↔ w.toNat % 0x100 < 0x10 ∧ w.toNat / 0x1000000 = 0 := by
  have hopc := congrArg BitVec.toNat (opcField_and_of_ones w (m := 0xFF0000FF) (by decide))
  have hrsv := congrArg BitVec.toNat (rsvField_and_of_ones w (m := 0xFF0000FF) (by decide))
  have hreg : ∀ lo, regField lo 0xFF0000FF = 0 → (w &&& 0xFF0000FF).toNat / 2 ^ lo % 16 = 0 := fun lo hm => by
    rw [← regField_val, regField_and_of_zero w hm]; rfl
  have hd := hreg 8 (by decide)
  have ha := hreg 12 (by decide)
  have hb := hreg 16 (by decide)
  have hc := hreg 20 (by decide)
  rw [opcField_toNat, opcField_toNat] at hopc
  rw [rsvField_toNat, rsvField_toNat] at hrsv
  rw [← hopc, ← hrsv]
  omega

theorem fieldMask_and_selectMask (i : Instr) : fieldMask i &&& 0xFF0000FF = 0xFF0000FF := by
  cases i <;> simp only [fieldMask] <;> decide

/-- Settles O2: all three clauses follow from what a command's mask keeps of its word. -/
theorem ignoredFieldsDoNotChangeTheCommand : Obligations.IgnoredFieldsDoNotChangeTheCommand := by
  refine ⟨fun w w' i h hw => ?ignored, fun w i h => ?word, fun w => ?selected⟩
  case ignored => exact decode_of_and_fieldMask (hw.trans (and_fieldMask_of_decode h))
  case word =>
    have he := and_fieldMask_of_decode h
    exact ⟨he.symm, by rw [← he, BitVec.and_assoc, fieldMask_and_selectMask]⟩
  case selected => rw [exists_decode_eq_instr, and_selectMask_lt_iff]

/-- Settles O4: each word is its command's under the command's mask; the fields NOP ignores are not zero in its word. -/
theorem sampleWordsDecode : Obligations.SampleWordsDecode := by
  unfold Obligations.SampleWordsDecode
  simp only [decode_eq_instr_iff_and_fieldMask]
  decide

end Sys2Proof

namespace Sys2Proof.Machine

/-! ### An accepted word that names no command (R116, R117) -/

theorem runWord_of_illegal {w : Word} (s : State) (h : 0x10 ≤ w.toNat % 0x100) :
    runWord w s = .next (s.raise .illegalOpcode) := by
  rw [runWord, (decode_eq_illegal w).2 h]

theorem runWord_of_reserved {w : Word} (s : State) (hopc : w.toNat % 0x100 < 0x10) (hrsv : w.toNat / 0x1000000 ≠ 0) :
    runWord w s = .next (s.raise .reservedBits) := by
  rw [runWord, (decode_eq_reserved w).2 ⟨hopc, hrsv⟩]

/-- The write of CMD by an idle block is an accept (R42, R230). -/
theorem actFirst_hostWr_cmd {s : State} (w : Word) (hp : s.phase = .idle) (hr : s.resetHeld = false) :
    actFirst (hostWr s.cfg 0x010 w) s = .next { s.accept w with reply := .ack } :=
  actFirst_hostWr_slot (t := .cmd) w (by decide) rfl rfl hp hr

/-- An accepted word whose run is an error ends with that error: the accept and the error change CMD, STATUS and the phase. -/
theorem issued_word_fails {s : State} {w : Word} {code : ErrCode} (hp : s.phase = .idle) (hr : s.resetHeld = false)
    (hrun : ∀ t, runWord w t = .next (t.raise code)) :
    ∃ t u, actFirst (hostWr s.cfg 0x010 w) s = .next t ∧ actFirst .engine t = .next u ∧
      FailedWith code { s with cmd := w, reply := .ack } u :=
  ⟨_, _, actFirst_hostWr_cmd w hp hr, hrun _, rfl⟩

theorem FailedWith.errcode {code : ErrCode} {s t : State} (h : FailedWith code s t) : t.status.errcode = code := by
  rw [h]

/-- Settles O21: the decoder reports the opcode before it looks at the reserved bits. -/
theorem illegalOpcodeEndsAsError : Obligations.IllegalOpcodeEndsAsError := by
  intro s w hp hr hopc
  obtain ⟨t, u, ht, hu, hf⟩ := issued_word_fails hp hr fun t => runWord_of_illegal t hopc
  exact ⟨t, u, ht, hu, hf, by rw [hf.errcode]; rfl⟩

/-- Settles O22: an illegal opcode is reported first, and the reserved bits of a legal one. -/
theorem reservedBitsEndAsError : Obligations.ReservedBitsEndAsError := by
  intro s w hp hr hrsv
  by_cases hopc : w.toNat % 0x100 < 0x10
  · obtain ⟨t, u, ht, hu, hf⟩ := issued_word_fails hp hr fun t => runWord_of_reserved t hopc hrsv
    exact ⟨t, u, ht, hu, fun _ => ⟨hf, by rw [hf.errcode]; rfl⟩, fun hill => absurd hopc (not_lt.2 hill)⟩
  · obtain ⟨t, u, ht, hu, hf⟩ := issued_word_fails hp hr fun t => runWord_of_illegal t (not_lt.1 hopc)
    exact ⟨t, u, ht, hu, fun hlt => absurd hlt hopc, fun _ => hf⟩

end Sys2Proof.Machine
end

section
/-! Control, modulus setup and modular primitives (40_primitives.md): what each command answers, and what a completion
with at most one wide result writes and leaves. -/

namespace Sys2Proof.Machine

/-! ### What a completion writes and leaves (R231, R233) -/

theorem completedWith_complete (s : State) (f : Bool) {r : Nat} (hr : r < 2 ^ 32) :
    CompletedWith f r (s.complete f r) :=
  ⟨rfl, by rw [State.complete_res0, BitVec.toNat_ofNat, Nat.mod_eq_of_lt hr], rfl, rfl, rfl, rfl⟩

theorem failedWith_raise (s : State) (code : ErrCode) : FailedWith code s (s.raise code) := rfl

theorem sameHostSide_complete (s : State) (f : Bool) (r : Nat) : SameHostSide s (s.complete f r) := .refl s

theorem sameModulus_complete (s : State) (f : Bool) (r : Nat) : SameModulus s (s.complete f r) :=
  ⟨rfl, rfl, rfl, rfl⟩

theorem writesOnlyWide_complete (s : State) (f : Bool) (r : Nat) : WritesOnlyWide [] s (s.complete f r) :=
  ⟨fun i _ => State.readW_complete s f r i, fun j => State.readBuf_complete s f r j, sameModulus_complete s f r,
    sameHostSide_complete s f r⟩

theorem readW_setW_complete (s : State) (rd : WReg) (v : Nat) (f : Bool) (r : Nat) :
    ((s.setW rd v).complete f r).readW rd = v := by
  rw [State.readW_complete, State.readW_setW_same]

/-- A completion with one wide result: every other wide register is left, whatever `rd` aliases. -/
theorem writesOnlyWide_setW_complete (s : State) (rd : WReg) (v : Nat) (f : Bool) (r : Nat) :
    WritesOnlyWide [rd] s ((s.setW rd v).complete f r) := by
  refine ⟨fun i hi => ?wide, fun j => ?buf, sameModulus_complete s f r, sameHostSide_complete s f r⟩
  case wide =>
    have hne : rd ≠ i := fun heq => hi (by simp [heq])
    rw [State.readW_complete, State.readW_setW_other s v hne]
  case buf => rw [State.readBuf_complete, State.readBuf_setW]

/-! ### SETMOD (R141, R45, R46) -/

/-- The bit length of a wide value fits NBITLEN (R6, R46). -/
theorem size_lt_of_lt_radix {c : Config} (hl : c.Legal) {v : Nat} (hv : v < radix c) : Nat.size v < 2 ^ 32 := by
  obtain ⟨-, hmax, -, -⟩ := hl
  have hsize : Nat.size v ≤ c.nbits := Nat.size_le.2 hv
  omega

theorem setModulus_nbitlen_toNat (s : State) {v : Nat} (h : Nat.size v < 2 ^ 32) :
    (s.setModulus v).nbitlen.toNat = Nat.size v := by
  rw [State.setModulus_nbitlen, bitlen_eq_size, BitVec.toNat_ofNat, Nat.mod_eq_of_lt h]

theorem setModulus_blksz_toNat (s : State) {v : Nat} (h : Nat.size v < 2 ^ 32) :
    (s.setModulus v).blksz.toNat = (Nat.size v - 1) / 8 := by
  rw [State.setModulus_blksz, bitlen_eq_size, BitVec.toNat_ofNat, Nat.mod_eq_of_lt (by omega)]

section
variable {s : State} {ra : WReg}

theorem exec_setmod_of_two_le (h : 2 ≤ s.readW ra) :
    exec (.setmod ra) s = .next ((s.setModulus (s.readW ra)).complete false 0) :=
  check_of_not _ _ _ (not_lt.2 h)

theorem exec_setmod_of_lt_two (h : s.readW ra < 2) : exec (.setmod ra) s = .next (s.raise .badModulus) :=
  check_of _ _ _ h

end

/-! ### GCD (R142) -/

theorem exec_gcd (rd ra rb : WReg) (s : State) :
    exec (.gcd rd ra rb) s = .next ((s.setW rd (Nat.gcd (s.readW ra) (s.readW rb))).complete false 0) := by
  rw [← euclid_eq_gcd]; rfl

/-! ### MODINV (R143, R144) -/

section
variable {s : State} {ra rb : WReg}

theorem exec_modinv_of_coprime (rd : WReg) (hn : 0 < s.readW rb) (hc : Nat.Coprime (s.readW ra) (s.readW rb)) :
    exec (.modinv rd ra rb) s =
      .next ((s.setW rd (modInverse (s.readW ra) (s.readW rb))).complete true 0) := by
  have hg : ¬1 < euclid (s.readW ra) (s.readW rb) := by rw [euclid_eq_gcd, hc.gcd_eq_one]; exact lt_irrefl 1
  exact (check_of_not _ _ _ hn.ne').trans (if_neg hg)

theorem exec_modinv_of_not_coprime (rd : WReg) (hn : 0 < s.readW rb)
    (hc : ¬Nat.Coprime (s.readW ra) (s.readW rb)) :
    exec (.modinv rd ra rb) s = .next ((s.setW rd 0).complete false 0) := by
  have hpos : 0 < Nat.gcd (s.readW ra) (s.readW rb) := Nat.gcd_pos_of_pos_right _ hn
  have hg : 1 < euclid (s.readW ra) (s.readW rb) := by rw [euclid_eq_gcd]; exact lt_of_le_of_ne hpos (Ne.symm hc)
  exact (check_of_not _ _ _ hn.ne').trans (if_pos hg)

theorem exec_modinv_of_zero (rd ra : WReg) (h : s.readW rb = 0) :
    exec (.modinv rd ra rb) s = .next (s.raise .divByZero) :=
  check_of _ _ _ h

end

/-! ### The obligations -/

/-- Settles O29: NOP is a completion and nothing more. -/
theorem nopOnlyCompletes : Obligations.NopOnlyCompletes := fun s =>
  ⟨_, rfl, completedWith_complete s _ (by decide), writesOnlyWide_complete s _ _, rfl⟩

/-- Settles O30: the bit length of any value a wide register holds fits NBITLEN, and so do the block's bytes BLKSZ. -/
theorem setmodLoadsTheModulus : Obligations.SetmodLoadsTheModulus := by
  intro s ra hl hv
  refine ⟨fun h2 => ?loads, fun hlt => ?badModulus⟩
  case loads =>
    have hsize := size_lt_of_lt_radix hl hv
    obtain ⟨hwide, hbuf, -, -⟩ := writesOnlyWide_complete (s.setModulus (s.readW ra)) false 0
    have he := exec_setmod_of_two_le h2
    exact ⟨_, he, completedWith_complete _ _ (by decide), rfl, rfl, setModulus_nbitlen_toNat s hsize,
      setModulus_blksz_toNat s hsize, hwide, hbuf, exec_sameHostSide he, rfl⟩
  case badModulus => exact ⟨_, exec_setmod_of_lt_two hlt, failedWith_raise s _⟩

/-- Settles O31: Euclid's loop computes the greatest common divisor, and no pre-check looks at MODV. -/
theorem gcdWritesTheGreatestCommonDivisor : Obligations.GcdWritesTheGreatestCommonDivisor := fun s rd ra rb =>
  ⟨_, exec_gcd rd ra rb s, completedWith_complete _ _ (by decide), readW_setW_complete s rd _ _ _,
    writesOnlyWide_setW_complete s rd _ _ _, rfl⟩

/-- Settles O32: the extended Euclidean loop gives the inverse of a coprime operand (`mul_modInverse`), below n. -/
theorem modinvWritesTheInverse : Obligations.ModinvWritesTheInverse := by
  intro s rd ra rb
  refine ⟨fun hn hc => ?inverse, fun hn hc => ?sentinel, fun h0 => ?divByZero⟩
  case inverse =>
    refine ⟨_, exec_modinv_of_coprime rd hn hc, completedWith_complete _ _ (by decide), ?_, ?_,
      writesOnlyWide_setW_complete s rd _ _ _, rfl⟩
    · rw [readW_setW_complete]; exact modInverse_lt _ _ hn
    · rw [readW_setW_complete]; exact mul_modInverse _ _ hn hc
  case sentinel =>
    exact ⟨_, exec_modinv_of_not_coprime rd hn hc, completedWith_complete _ _ (by decide),
      readW_setW_complete s rd _ _ _, writesOnlyWide_setW_complete s rd _ _ _, rfl⟩
  case divByZero => exact ⟨_, exec_modinv_of_zero rd ra h0, failedWith_raise s _⟩

end Sys2Proof.Machine
end

section
/-! The Montgomery multiplier (41_montgomery.md): what its commands answer for an odd and for an even N, the arithmetic of R and
Rinv behind their results, and the laws of the commands issued one after the other. -/

namespace Sys2Proof.Machine

/-! ### What the commands answer for an odd N (R161, R162, R163) -/

section
variable {s : State} (hv : s.status.modv = true) (ho : s.n % 2 = 1)
include hv ho

theorem exec_montmul_of_odd (rd ra rb : WReg) :
    exec (.montmul rd ra rb) s =
      .next ((s.setW rd (s.readW ra * s.readW rb * montRinv s.cfg s.n % s.n)).complete false 0) :=
  checkOddModulus_of_odd s _ hv ho

theorem exec_montin_of_odd (rd ra : WReg) :
    exec (.montin rd ra) s = .next ((s.setW rd (s.readW ra * radix s.cfg % s.n)).complete false 0) :=
  checkOddModulus_of_odd s _ hv ho

theorem exec_montout_of_odd (rd ra : WReg) :
    exec (.montout rd ra) s = .next ((s.setW rd (s.readW ra * montRinv s.cfg s.n % s.n)).complete false 0) :=
  checkOddModulus_of_odd s _ hv ho

/-- MONTOUT is MONTMUL by 1 (R163). -/
theorem exec_montmul_by_one (rd ra : WReg) {rb : WReg} (hb : s.readW rb = 1) :
    exec (.montmul rd ra rb) s = exec (.montout rd ra) s := by
  rw [exec_montmul_of_odd hv ho, exec_montout_of_odd hv ho, hb, mul_one]

end

/-- A reduced result is below the modulus. -/
theorem readW_setW_mod_lt (s : State) (rd : WReg) (x : Nat) {n : Nat} (hn : 0 < n) (f : Bool) (r : Nat) :
    ((s.setW rd (x % n)).complete f r).readW rd < n := by
  rw [readW_setW_complete]; exact Nat.mod_lt x hn

/-! ### R and Rinv modulo an odd N (R160) -/

section
variable (c : Config) {n : Nat} (ho : n % 2 = 1)
include ho

theorem mul_radix_mul_montRinv_modEq (x : Nat) : x * radix c * montRinv c n ≡ x [MOD n] := by
  have hunit : radix c * montRinv c n ≡ 1 [MOD n] := radix_mul_montRinv c n ho
  simpa [mul_assoc] using hunit.mul_left x

theorem mul_montRinv_mul_radix_modEq (x : Nat) : x * montRinv c n * radix c ≡ x [MOD n] := by
  rw [mul_right_comm]; exact mul_radix_mul_montRinv_modEq c ho x

/-- The reduced product with Rinv, multiplied by R, is the number again. -/
theorem mod_montRinv_mul_radix_modEq (x : Nat) : x * montRinv c n % n * radix c ≡ x [MOD n] :=
  ((Nat.mod_modEq _ n).mul_right _).trans (mul_montRinv_mul_radix_modEq c ho x)

/-- The reduced Montgomery form of a number, multiplied by Rinv, is the number again. -/
theorem mod_radix_mul_montRinv_modEq (x : Nat) : x * radix c % n * montRinv c n ≡ x [MOD n] :=
  ((Nat.mod_modEq _ n).mul_right _).trans (mul_radix_mul_montRinv_modEq c ho x)

/-- The Montgomery product of a number and a Montgomery form is the product of the two numbers. -/
theorem mul_montgomeryForm_modEq (a b : Nat) : a * (b * radix c % n) * montRinv c n ≡ a * b [MOD n] := by
  rw [mul_assoc]; exact (mod_radix_mul_montRinv_modEq c ho b).mul_left a

/-- The Montgomery product of two Montgomery forms is the form of the product, and Rinv takes the form back. -/
theorem montgomeryForms_mul_modEq (a b : Nat) :
    a * radix c % n * (b * radix c % n) * montRinv c n % n * montRinv c n ≡ a * b [MOD n] := by
  have hform : a * radix c % n * (b * radix c % n) * montRinv c n ≡ a * radix c % n * b [MOD n] :=
    mul_montgomeryForm_modEq c ho _ b
  calc a * radix c % n * (b * radix c % n) * montRinv c n % n * montRinv c n
      ≡ a * radix c % n * b * montRinv c n [MOD n] := ((Nat.mod_modEq _ n).trans hform).mul_right _
    _ = a * radix c % n * montRinv c n * b := mul_right_comm _ _ _
    _ ≡ a * b [MOD n] := (mod_radix_mul_montRinv_modEq c ho a).mul_right b

end

/-! ### The commands issued one after the other -/

/-- The idle block is ready for a Montgomery command: the reset input is released and the modulus `n` is valid and odd. -/
structure MontgomeryReady (c : Config) (n : Nat) (s : State) : Prop where
  idle : s.phase = .idle
  released : s.resetHeld = false
  valid : s.status.modv = true
  odd : n % 2 = 1
  cfg : s.cfg = c
  modulus : s.n = n

/-- The command `i`, issued in `s`, has written `v` to `rd` and to no other wide register, and the block is ready for the next. -/
structure MontgomeryStep (c : Config) (n : Nat) (i : Instr) (rd : WReg) (v : Nat) (s t : State) : Prop where
  issued : Issued i s t
  ready : MontgomeryReady c n t
  value : t.readW rd = v
  others : SameWideExcept [rd] s t

theorem MontgomeryStep.readW_other {c : Config} {n : Nat} {i : Instr} {rd j : WReg} {v : Nat} {s t : State}
    (h : MontgomeryStep c n i rd v s t) (hj : j ≠ rd) : t.readW j = s.readW j :=
  h.others j (by simpa using hj)

/-- What the accept of `i` leaves: the host has written the command's word to CMD of the idle block (R230). -/
def State.accepted (s : State) (i : Instr) : State := { s.accept (encode i) with reply := .ack }

/-- A command that completes with the one wide result `v` on the state its accept leaves. -/
theorem montgomeryStep_of_exec {c : Config} {n : Nat} {i : Instr} {rd : WReg} {v : Nat} {s : State}
    (h : MontgomeryReady c n s)
    (he : exec i (s.accepted i) = .next (((s.accepted i).setW rd v).complete false 0)) :
    ∃ t, MontgomeryStep c n i rd v s t := by
  obtain ⟨hidle, hreleased, hvalid, hodd, hcfg, hmodulus⟩ := h
  obtain ⟨hothers, -⟩ := writesOnlyWide_setW_complete (s.accepted i) rd v false 0
  exact ⟨_, State.issued_of_exec s _ hidle hreleased i (decodeOfEncodeIsTheCommand i) he,
    ⟨rfl, hreleased, hvalid, hodd, hcfg, hmodulus⟩, readW_setW_complete _ rd v _ _, hothers⟩

section
variable {c : Config} {n : Nat} {s : State} (h : MontgomeryReady c n s) (rd ra : WReg)
include h

theorem montmul_step (rb : WReg) :
    ∃ t, MontgomeryStep c n (.montmul rd ra rb) rd (s.readW ra * s.readW rb * montRinv c n % n) s t := by
  obtain rfl := h.cfg
  obtain rfl := h.modulus
  exact montgomeryStep_of_exec h (exec_montmul_of_odd (s := s.accepted _) h.valid h.odd rd ra rb)

theorem montin_step : ∃ t, MontgomeryStep c n (.montin rd ra) rd (s.readW ra * radix c % n) s t := by
  obtain rfl := h.cfg
  obtain rfl := h.modulus
  exact montgomeryStep_of_exec h (exec_montin_of_odd (s := s.accepted _) h.valid h.odd rd ra)

theorem montout_step : ∃ t, MontgomeryStep c n (.montout rd ra) rd (s.readW ra * montRinv c n % n) s t := by
  obtain rfl := h.cfg
  obtain rfl := h.modulus
  exact montgomeryStep_of_exec h (exec_montout_of_odd (s := s.accepted _) h.valid h.odd rd ra)

end

/-! ### The error code behind a pre-check (R234) -/

/-- A pre-check with another code than `e` ends no command as `e`, if what follows it does not. -/
theorem check_errcode_ne {bad : Prop} [Decidable bad] {code e : ErrCode} {s : State} {k : Result} (hc : code ≠ e)
    (hk : ∃ t, k = .next t ∧ t.status.errcode ≠ e) :
    ∃ t, check bad code s k = .next t ∧ t.status.errcode ≠ e := by
  by_cases hb : bad
  · exact ⟨_, check_of _ _ _ hb, hc⟩
  · rwa [check_of_not _ _ _ hb]

/-! ### The obligations -/

/-- Settles O37: R undoes the factor Rinv of the product modulo an odd N. -/
theorem montmulWritesTheMontgomeryProduct : Obligations.MontmulWritesTheMontgomeryProduct := by
  intro s rd ra rb hv ho
  refine ⟨_, exec_montmul_of_odd hv ho rd ra rb, completedWith_complete _ _ (by decide),
    readW_setW_mod_lt s rd _ (by omega) _ _, ?_, writesOnlyWide_setW_complete s rd _ _ _, rfl⟩
  rw [readW_setW_complete]
  exact mod_montRinv_mul_radix_modEq s.cfg ho _

/-- Settles O38: MONTIN is the reduced product with R, and R undoes the factor Rinv of MONTOUT. -/
theorem montinAndMontoutConvertTheForm : Obligations.MontinAndMontoutConvertTheForm := by
  intro s rd ra rb hv ho
  have hn : 0 < s.n := by omega
  refine ⟨?montin, ?montout⟩
  case montin =>
    refine ⟨_, s.readW ra * radix s.cfg / s.n, exec_montin_of_odd hv ho rd ra, completedWith_complete _ _ (by decide),
      readW_setW_mod_lt s rd _ hn _ _, ?_, writesOnlyWide_setW_complete s rd _ _ _, rfl⟩
    rw [readW_setW_complete]
    exact (Nat.div_add_mod' _ _).symm
  case montout =>
    have hexec := exec_montout_of_odd hv ho rd ra
    refine ⟨_, hexec, completedWith_complete _ _ (by decide), readW_setW_mod_lt s rd _ hn _ _, ?_,
      writesOnlyWide_setW_complete s rd _ _ _, rfl, fun hb => (exec_montmul_by_one hv ho rd ra hb).trans hexec⟩
    rw [readW_setW_complete]
    exact mod_montRinv_mul_radix_modEq s.cfg ho _

/-- Settles O39: each command leaves the block ready for the next, and R and Rinv cancel modulo an odd N. -/
theorem montgomeryLaws : Obligations.MontgomeryLaws := by
  intro s ra rb r1 r2 r3 r4 hp hr hv ho
  have hs : MontgomeryReady s.cfg s.n s := ⟨hp, hr, hv, ho, rfl, rfl⟩
  refine ⟨fun hb h12 => ?product, ?roundTrip, fun ha => ?mixed⟩
  case product =>
    obtain ⟨s1, h1⟩ := montin_step hs r1 ra
    obtain ⟨s2, h2⟩ := montin_step h1.ready r2 rb
    obtain ⟨s3, h3⟩ := montmul_step h2.ready r3 r1 r2
    obtain ⟨s4, h4⟩ := montout_step h3.ready r4 r3
    refine ⟨s1, s2, s3, s4, h1.issued, h2.issued, h3.issued, h4.issued, ?_⟩
    rw [h4.value, h3.value, h2.value, h2.readW_other h12, h1.value, h1.readW_other hb]
    exact montgomeryForms_mul_modEq s.cfg ho _ _
  case roundTrip =>
    obtain ⟨s1, h1⟩ := montout_step hs r1 ra
    obtain ⟨s2, h2⟩ := montin_step h1.ready r2 r1
    refine ⟨s1, s2, h1.issued, h2.issued, ?_⟩
    rw [h2.value, h1.value]
    exact mod_montRinv_mul_radix_modEq s.cfg ho _
  case mixed =>
    obtain ⟨s1, h1⟩ := montin_step hs r1 rb
    obtain ⟨s2, h2⟩ := montmul_step h1.ready r2 ra r1
    refine ⟨s1, s2, h1.issued, h2.issued, ?_⟩
    rw [h2.value, h1.value, h1.readW_other ha]
    exact mul_montgomeryForm_modEq s.cfg ho _ _

/-- Settles O40: only the three Montgomery commands have the pre-check EVEN_MODULUS; the pre-checks of the others have other
codes, and behind them the commands complete. -/
theorem evenModulusStopsMontgomeryOnly : Obligations.EvenModulusStopsMontgomeryOnly := by
  intro s rd ra rb rc hv he
  refine ⟨⟨_, checkOddModulus_of_even s _ hv he, failedWith_raise s _⟩,
    ⟨_, checkOddModulus_of_even s _ hv he, failedWith_raise s _⟩,
    ⟨_, checkOddModulus_of_even s _ hv he, failedWith_raise s _⟩, fun i hi => ?others⟩
  case others =>
    have hmodulus : ErrCode.noModulus ≠ .evenModulus := by decide
    have hdone (u : State) (f : Bool) (r : Nat) : (u.complete f r).status.errcode ≠ .evenModulus := by simp
    rcases hi with rfl | rfl | rfl | rfl | rfl | rfl
    · exact check_errcode_ne hmodulus ⟨_, rfl, hdone _ _ _⟩
    · exact check_errcode_ne hmodulus ⟨_, rfl, hdone _ _ _⟩
    · exact check_errcode_ne hmodulus ⟨_, rfl, hdone _ _ _⟩
    · exact check_errcode_ne hmodulus ⟨_, rfl, hdone _ _ _⟩
    · have hkey : ErrCode.keyTooSmall ≠ .evenModulus := by decide
      have harg : ErrCode.badArg ≠ .evenModulus := by decide
      exact check_errcode_ne hmodulus (check_errcode_ne hkey (check_errcode_ne harg ⟨_, rfl, hdone _ _ _⟩))
    · exact check_errcode_ne hmodulus ⟨_, rfl, hdone _ _ _⟩

end Sys2Proof.Machine
end

section
/-! The Barrett reducer (42_barrett.md): what its commands answer, the two halves MUL writes, and MUL then BREDUCE against
MODMUL. -/

namespace Sys2Proof.Machine

/-! ### What the commands answer (R170, R171, R172) -/

theorem exec_mul (rd rc ra rb : WReg) (s : State) :
    exec (.mul rd rc ra rb) s =
      .next (((s.setW rd (s.readW ra * s.readW rb % radix s.cfg)).setW rc
        (s.readW ra * s.readW rb / radix s.cfg)).complete false 0) :=
  rfl

section
variable {s : State} (hv : s.status.modv = true)
include hv

theorem exec_breduce_of_valid (rd ra rb : WReg) :
    exec (.breduce rd ra rb) s =
      .next ((s.setW rd (concatWide s.cfg (s.readW ra) (s.readW rb) % s.n)).complete false 0) :=
  checkModulus_of_valid s _ hv

theorem exec_modmul_of_valid (rd ra rb : WReg) :
    exec (.modmul rd ra rb) s = .next ((s.setW rd (s.readW ra * s.readW rb % s.n)).complete false 0) :=
  checkModulus_of_valid s _ hv

end

/-! ### Two wide results (R170) -/

theorem readW_setW_setW_complete_first (s : State) {rd rc : WReg} (h : rd ≠ rc) (x y : Nat) (f : Bool) (r : Nat) :
    (((s.setW rd x).setW rc y).complete f r).readW rd = x := by
  rw [State.readW_complete, State.readW_setW_other _ y h.symm, State.readW_setW_same]

/-- A completion with two wide results: every other wide register is left, whatever `rd` and `rc` alias. -/
theorem writesOnlyWide_setW_setW_complete (s : State) (rd rc : WReg) (x y : Nat) (f : Bool) (r : Nat) :
    WritesOnlyWide [rd, rc] s (((s.setW rd x).setW rc y).complete f r) := by
  obtain ⟨hwide, hbuf, -, -⟩ := writesOnlyWide_setW_complete (s.setW rd x) rc y f r
  refine ⟨fun i hi => ?_, fun j => (hbuf j).trans (State.readBuf_setW s rd x j), sameModulus_complete s f r,
    sameHostSide_complete s f r⟩
  obtain ⟨hrd, hrc⟩ : i ≠ rd ∧ i ≠ rc := by simpa using hi
  rw [hwide i (by simpa using hrc), State.readW_setW_other s x hrd.symm]

/-! ### One reduced result (R171, R172) -/

/-- A command that completes with the one wide result `x` reduced modulo N writes the remainder of the division of `x` by N. -/
theorem exec_writes_remainder {i : Instr} {s : State} {rd : WReg} {x : Nat} (hn : 0 < s.n)
    (he : exec i s = .next ((s.setW rd (x % s.n)).complete false 0)) :
    ∃ t q, exec i s = .next t ∧ CompletedWith false 0 t ∧ t.readW rd < s.n ∧ x = q * s.n + t.readW rd ∧
      WritesOnlyWide [rd] s t ∧ t.port = s.port := by
  refine ⟨_, x / s.n, he, completedWith_complete _ _ (by decide), readW_setW_mod_lt s rd x hn _ _, ?_,
    writesOnlyWide_setW_complete s rd _ _ _, rfl⟩
  rw [readW_setW_complete]
  exact (Nat.div_add_mod' x s.n).symm

/-! ### The commands issued to an idle block (R230, R231) -/

section
variable {s : State} (hp : s.phase = .idle) (hr : s.resetHeld = false)
include hp hr

theorem issued_of_exec_accepted {i : Instr} {t : State} (he : exec i (s.accepted i) = .next t) : Issued i s t :=
  State.issued_of_exec s t hp hr i (decodeOfEncodeIsTheCommand i) he

/-- MUL leaves the block idle with its modulus, and its two halves concatenate to the exact product. -/
theorem issued_mul {lo hi : WReg} (hne : lo ≠ hi) (ra rb : WReg) :
    ∃ t, Issued (.mul lo hi ra rb) s t ∧ t.phase = .idle ∧ t.resetHeld = false ∧ SameModulus s t ∧
      concatWide t.cfg (t.readW hi) (t.readW lo) = s.readW ra * s.readW rb := by
  refine ⟨_, issued_of_exec_accepted hp hr (exec_mul lo hi ra rb _), rfl, hr, sameModulus_complete s false 0, ?_⟩
  rw [readW_setW_complete, readW_setW_setW_complete_first _ hne]
  exact Nat.div_add_mod' _ _

theorem issued_breduce (hv : s.status.modv = true) (rd ra rb : WReg) :
    ∃ t, Issued (.breduce rd ra rb) s t ∧ t.readW rd = concatWide s.cfg (s.readW ra) (s.readW rb) % s.n :=
  ⟨_, issued_of_exec_accepted hp hr (exec_breduce_of_valid (s := s.accepted _) hv rd ra rb),
    readW_setW_complete _ rd _ _ _⟩

theorem issued_modmul (hv : s.status.modv = true) (rd ra rb : WReg) :
    ∃ t, Issued (.modmul rd ra rb) s t ∧ t.readW rd = s.readW ra * s.readW rb % s.n :=
  ⟨_, issued_of_exec_accepted hp hr (exec_modmul_of_valid (s := s.accepted _) hv rd ra rb),
    readW_setW_complete _ rd _ _ _⟩

end

/-! ### The obligations -/

/-- Settles O33: the halves are the quotient and the remainder of the product by R, and the high half, written last, stands
whether or not it overwrites the low one. -/
theorem mulWritesBothHalves : Obligations.MulWritesBothHalves := by
  intro s rd rc ra rb
  refine ⟨_, exec_mul rd rc ra rb s, completedWith_complete _ _ (by decide), fun hne => ?halves, fun _ => ?high,
    writesOnlyWide_setW_setW_complete s rd rc _ _ _ _, rfl⟩
  case halves =>
    rw [readW_setW_complete, readW_setW_setW_complete_first s hne]
    exact ⟨Nat.div_add_mod' _ _, Nat.mod_lt _ (radix_pos s.cfg)⟩
  case high => exact readW_setW_complete _ rc _ _ _

/-- Settles O34: BREDUCE writes the remainder of the concatenation. -/
theorem breduceReducesThePair : Obligations.BreduceReducesThePair := fun _ rd ra rb hv hn =>
  exec_writes_remainder (Nat.zero_lt_of_lt hn) (exec_breduce_of_valid hv rd ra rb)

/-- Settles O35: MODMUL writes the remainder of the product, whatever the parity of N. -/
theorem modmulReducesTheProduct : Obligations.ModmulReducesTheProduct := fun _ rd ra rb hv hn =>
  exec_writes_remainder (Nat.zero_lt_of_lt hn) (exec_modmul_of_valid hv rd ra rb)

/-- Settles O36: the two halves concatenate to the exact product, which BREDUCE then reduces by the unchanged modulus. -/
theorem mulThenBreduceIsModmul : Obligations.MulThenBreduceIsModmul := by
  intro s lo hi d ra rb hp hr hne hv
  obtain ⟨s1, hmul, hidle, hreleased, ⟨hn, hmodv, -, -⟩, hproduct⟩ := issued_mul hp hr hne ra rb
  obtain ⟨s2, hbreduce, hs2⟩ := issued_breduce hidle hreleased (hmodv.trans hv) d hi lo
  obtain ⟨t, hmodmul, ht⟩ := issued_modmul hp hr hv d ra rb
  rw [hproduct, hn] at hs2
  exact ⟨s1, s2, t, hmul, hbreduce, hmodmul, hs2.trans ht.symm, hs2⟩

end Sys2Proof.Machine
end

section
/-! The modular exponent engine (43_modexp.md): what POWMOD and VERIFY answer, and the signature law of their RSA use. -/

namespace Sys2Proof.Machine

/-! ### What the commands answer (R180, R181) -/

section
variable {s : State} (hv : s.status.modv = true) (hn : 2 ≤ s.n)
include hv hn

theorem exec_powmod_of_valid (rd ra rb : WReg) :
    exec (.powmod rd ra rb) s = .next ((s.setW rd (s.readW ra ^ s.readW rb % s.n)).complete false 0) := by
  rw [← powMod_eq _ _ _ hn]
  exact checkModulus_of_valid s _ hv

theorem exec_verify_of_valid (ra rb rc : WReg) :
    exec (.verify ra rb rc) s = .next (s.complete (decide (s.readW ra ^ s.readW rb % s.n = s.readW rc)) 0) := by
  rw [← powMod_eq _ _ _ hn]
  exact checkModulus_of_valid s _ hv

end

/-! ### The commands issued to an idle block (R230, R231) -/

section
variable {s : State} (hp : s.phase = .idle) (hr : s.resetHeld = false) (hv : s.status.modv = true) (hn : 2 ≤ s.n)
include hp hr hv hn

/-- POWMOD writes the power and leaves the block idle with its modulus and its other wide registers. -/
theorem issued_powmod (rd ra rb : WReg) :
    ∃ t, Issued (.powmod rd ra rb) s t ∧ t.phase = .idle ∧ t.resetHeld = false ∧ SameModulus s t ∧
      t.readW rd = s.readW ra ^ s.readW rb % s.n ∧ SameWideExcept [rd] s t := by
  obtain ⟨hothers, -⟩ := writesOnlyWide_setW_complete (s.accepted (.powmod rd ra rb)) rd
    (s.readW ra ^ s.readW rb % s.n) false 0
  exact ⟨_, issued_of_exec_accepted hp hr (exec_powmod_of_valid (s := s.accepted _) hv hn rd ra rb), rfl, hr,
    sameModulus_complete s false 0, readW_setW_complete _ rd _ _ _, hothers⟩

theorem issued_verify (ra rb rc : WReg) :
    ∃ t, Issued (.verify ra rb rc) s t ∧ (t.status.flag = true ↔ s.readW ra ^ s.readW rb % s.n = s.readW rc) :=
  ⟨_, issued_of_exec_accepted hp hr (exec_verify_of_valid (s := s.accepted _) hv hn ra rb rc), decide_eq_true_iff⟩

end

/-! ### The obligations -/

/-- Settles O42: square-and-multiply computes the power, whatever the parity of N. -/
theorem powmodWritesThePower : Obligations.PowmodWritesThePower := fun s rd ra rb hv hn =>
  ⟨_, exec_powmod_of_valid hv hn rd ra rb, completedWith_complete _ _ (by decide), readW_setW_complete s rd _ _ _,
    writesOnlyWide_setW_complete s rd _ _ _, rfl⟩

/-- Settles O43: the power is a remainder modulo N, so no message of N or more equals it. -/
theorem verifyComparesThePower : Obligations.VerifyComparesThePower := by
  intro s ra rb rc hv hn
  refine ⟨_, _, exec_verify_of_valid hv hn ra rb rc, completedWith_complete _ _ (by decide), decide_eq_true_iff,
    fun hlarge => ?unreduced, writesOnlyWide_complete s _ _, rfl⟩
  case unreduced =>
    have hlt : s.readW ra ^ s.readW rb % s.n < s.n := Nat.mod_lt _ (by omega)
    exact decide_eq_false (hlt.trans_le hlarge).ne

/-- Settles O44: POWMOD leaves the modulus, the message and the exponent for VERIFY, and the power with the one exponent of an
RSA key undoes the power with the other. -/
theorem signedMessagesVerify : Obligations.SignedMessagesVerify := by
  intro s rs rm re rd hp hr hv hk hlt hms hes
  have hn : 2 ≤ s.n := rsaKey_two_le hk
  obtain ⟨s1, hsign, hidle, hreleased, ⟨hsame, hmodv, -, -⟩, hsignature, hothers⟩ := issued_powmod hp hr hv hn rs rm rd
  obtain ⟨s2, hverify, hflag⟩ := issued_verify hidle hreleased (hmodv.trans hv) (hsame ▸ hn) rs re rm
  have hm : s1.readW rm = s.readW rm := hothers rm (by simpa using hms)
  have he : s1.readW re = s.readW re := hothers re (by simpa using hes)
  refine ⟨s1, s2, hsign, hverify, hflag.2 ?_⟩
  rw [hsignature, he, hm, hsame]
  exact rsaKey_pow_pow (s.readW rm) hk hlt

end Sys2Proof.Machine
end

section
/-! The Miller-Rabin test unit (44_miller_rabin.md): the test of each kind of candidate, what MRTEST answers, and the attempts
of PRIMEGEN (45_primegen.md) that the test decides. -/

namespace Sys2Proof.Machine

/-! ### The test of each kind of candidate (R190, R192) -/

section
variable {n : Nat} (iterations : Nat) (p : Port)

theorem millerRabin_of_two_or_three (h : n = 2 ∨ n = 3) : millerRabin n iterations p = some (true, p) :=
  if_pos h

theorem millerRabin_of_small_or_even (h : n < 2 ∨ n % 2 = 0 ∧ n ≠ 2) : millerRabin n iterations p = some (false, p) :=
  (if_neg (by omega)).trans (if_pos (by omega))

/-- Any other candidate is tested by max(iterations - 1, 0) witness rounds. -/
theorem millerRabin_of_odd (h5 : 5 ≤ n) (hodd : n % 2 = 1) :
    millerRabin n iterations p = witnessRounds n (iterations - 1) p :=
  (if_neg (by omega)).trans (if_neg (by omega))

end

/-- The three kinds of candidate. -/
theorem candidate_kinds (n : Nat) : (n = 2 ∨ n = 3) ∨ (n < 2 ∨ n % 2 = 0 ∧ n ≠ 2) ∨ 5 ≤ n ∧ n % 2 = 1 := by
  omega

/-! ### The answer of the test (R190, R191, R194, R196) -/

section
variable {n iterations : Nat} {p : Port}

/-- A test whose draws are supplied answers. -/
theorem millerRabin_supplied (hsupply : PortSupplies p (iterations - 1)) :
    ∃ f q, millerRabin n iterations p = some (f, q) := by
  rcases candidate_kinds n with h | h | ⟨h5, hodd⟩
  · exact ⟨_, _, millerRabin_of_two_or_three iterations p h⟩
  · exact ⟨_, _, millerRabin_of_small_or_even iterations p h⟩
  · rw [millerRabin_of_odd iterations p h5 hodd]
    exact witnessRounds_supplied n _ p hsupply

/-- A prime is 2, or 3, or odd and never rejected by a round. -/
theorem millerRabin_prime {f : Bool} {q : Port} (hn : n.Prime) (h : millerRabin n iterations p = some (f, q)) :
    f = true := by
  rcases candidate_kinds n with h23 | hsmall | ⟨h5, hodd⟩
  · rw [millerRabin_of_two_or_three iterations p h23] at h
    cases h; rfl
  · have h2 := hn.two_le
    have hodd := hn.eq_two_or_odd
    omega
  · rw [millerRabin_of_odd iterations p h5 hodd] at h
    exact witnessRounds_prime n _ p q f hn h5 hodd h

/-- A test whose witnesses stand queued answers whether all of them pass; if they do, all of them are taken. -/
theorem millerRabin_queued {ws rest : List Nat} (h5 : 5 ≤ n) (hodd : n % 2 = 1) (hq : p.queue = ws ++ rest)
    (hlen : ws.length = iterations - 1) (hrange : ∀ a ∈ ws, 2 ≤ a ∧ a ≤ n - 2) :
    ∃ f q, millerRabin n iterations p = some (f, q) ∧ (f = true ↔ ∀ a ∈ ws, PassesRound n a) ∧
      (f = true → q.queue = rest) := by
  obtain ⟨f, q, hrounds, hpass⟩ := witnessRounds_queued n ws rest p h5 hodd hq hrange
  refine ⟨f, q, ?answer, hpass, fun hf => ?taken⟩
  case answer => rw [millerRabin_of_odd iterations p h5 hodd, ← hlen, hrounds]
  case taken =>
    subst hf
    rw [witnessRounds_takes n _ p q (by simp [hq]) hrounds, hq, List.drop_left]

end

/-! ### What MRTEST answers (R190, R196) -/

section
variable {s : State} {ra : WReg} {f : Bool} {p : Port}

theorem exec_mrtest_of_answer (h : millerRabin (s.readW ra) s.arg1.toNat s.port = some (f, p)) :
    exec (.mrtest ra) s = .next ({ s with port := p }.complete f 0) := by
  change execMrtest ra s = _
  unfold execMrtest
  rw [h]

/-- A completion after draws: the port is no register, so the frame is that of any completion. -/
theorem writesOnlyWide_drawn_complete (s : State) (p : Port) (f : Bool) (r : Nat) :
    WritesOnlyWide [] s ({ s with port := p }.complete f r) :=
  writesOnlyWide_complete { s with port := p } f r

/-- An answered test completes with its answer in FLAG and leaves every register and the rest of the port. -/
theorem mrtest_completes (h : millerRabin (s.readW ra) s.arg1.toNat s.port = some (f, p)) :
    ∃ t, exec (.mrtest ra) s = .next t ∧ CompletedWith f 0 t ∧ WritesOnlyWide [] s t ∧ t.port = p :=
  ⟨_, exec_mrtest_of_answer h, completedWith_complete _ f (by decide), writesOnlyWide_drawn_complete s p f 0, rfl⟩

/-- A running MRTEST that has ended had its answer: the port supplied the draws. -/
theorem mrtest_answered {t : State} {c : Command} (hp : s.phase = .busy c) (he : exec (.mrtest ra) s = .next t)
    (hidle : t.phase = .idle) :
    millerRabin (s.readW ra) s.arg1.toNat s.port = some (t.status.flag, t.port) := by
  rcases exec_mrtest_cases he with ⟨-, rfl⟩ | ⟨f, p, hanswer, rfl⟩
  · rw [hp] at hidle; cases hidle
  · exact hanswer

end

/-! ### One attempt of PRIMEGEN (R200, R201, R203) -/

theorem Port.drawBits_queued {p : Port} {bits r : Nat} {rest : List Nat} (hq : p.queue = r :: rest) (hr : r < 2 ^ bits) :
    p.drawBits bits = some (r, { p with queue := rest }) := by
  have hin : inRange 0 (2 ^ bits - 1) r = r := inRange_of_mem _ _ _ (Nat.zero_le r) (by omega)
  unfold Port.drawBits Port.drawRange
  rw [take_cons p r rest hq]
  simp only [hin]

theorem primeAttempt_of_answer {bits iterations r : Nat} {p q q' : Port} {f : Bool} (hd : p.drawBits bits = some (r, q))
    (ht : millerRabin (candidateOf bits r) iterations q = some (f, q')) :
    primeAttempt bits iterations p = some { candidate := candidateOf bits r, accepted := f, port := q' } := by
  unfold primeAttempt
  simp only [hd, ht]

section
variable {s : State} {a : Attempt} (h2 : 2 ≤ s.arg0.toNat) (hn : s.arg0.toNat ≤ s.cfg.nbits)
  (ha : primeAttempt s.arg0.toNat s.arg1.toNat s.port = some a)
include h2 hn ha

theorem exec_primegen_of_accepted (rd : WReg) (hok : a.accepted = true) :
    exec (.primegen rd) s =
      .next (({ s with port := a.port }.setW rd a.candidate).complete false (countUp s.attempts)) := by
  change execPrimegen rd s = _
  unfold execPrimegen
  rw [check_of_not _ _ _ (by omega), ha]
  exact if_pos hok

theorem exec_primegen_of_rejected (rd : WReg) (hno : a.accepted = false) :
    exec (.primegen rd) s = .next ({ s with port := a.port }.stayBusy (countUp s.attempts) a.candidate) := by
  change execPrimegen rd s = _
  unfold execPrimegen
  rw [check_of_not _ _ _ (by omega), ha]
  exact if_neg (by simp [hno])

end

theorem WritesOnlyWide.refl (ds : List WReg) (s : State) : WritesOnlyWide ds s s :=
  ⟨fun _ _ => rfl, fun _ => rfl, .refl s, .refl s⟩

/-- An attempt that completes writes `rd` alone of the registers. -/
theorem writesOnlyWide_drawn_setW_complete (s : State) (p : Port) (rd : WReg) (v : Nat) (f : Bool) (r : Nat) :
    WritesOnlyWide [rd] s (({ s with port := p }.setW rd v).complete f r) :=
  writesOnlyWide_setW_complete { s with port := p } rd v f r

/-- An attempt that leaves the engine BUSY writes no register. -/
theorem writesOnlyWide_stayBusy (s : State) (p : Port) (k x : Nat) :
    WritesOnlyWide [] s ({ s with port := p }.stayBusy k x) :=
  ⟨fun i _ => by rw [State.readW_stayBusy]; rfl, fun j => by rw [State.readBuf_stayBusy]; rfl,
    by simp [SameModulus], by simp [SameHostSide]⟩

/-! ### The obligations -/

/-- Settles O45: both kinds are decided before the first draw. -/
theorem mrtestDecidesSmallAndEvenWithoutDraws : Obligations.MrtestDecidesSmallAndEvenWithoutDraws := fun _ _ =>
  ⟨fun h => mrtest_completes (millerRabin_of_two_or_three _ _ h),
    fun h => mrtest_completes (millerRabin_of_small_or_even _ _ h)⟩

/-- Settles O46: the rounds take the queued witnesses one by one, and each is the round of R190 and R191. -/
theorem mrtestRunsItsWitnesses : Obligations.MrtestRunsItsWitnesses := by
  intro s ra ws rest h5 hodd hq hlen hrange
  obtain ⟨f, p, hanswer, hpass, -⟩ := millerRabin_queued h5 hodd hq hlen hrange
  obtain ⟨t, he, hdone, hframe, -⟩ := mrtest_completes hanswer
  exact ⟨t, f, he, hdone, hpass, hframe⟩

/-- Settles O47: a test that accepts ran all its rounds, one answer each; with no round it accepts at once. -/
theorem mrtestRoundCount : Obligations.MrtestRoundCount := by
  intro s ra h5 hodd
  refine ⟨fun t c hp he hidle hflag hlen => ?taken, fun hle => ?noRound⟩
  case taken =>
    have hanswer := mrtest_answered hp he hidle
    rw [millerRabin_of_odd _ _ h5 hodd, hflag] at hanswer
    exact witnessRounds_takes _ _ _ _ hlen hanswer
  case noRound =>
    have hanswer : millerRabin (s.readW ra) s.arg1.toNat s.port = some (true, s.port) := by
      rw [millerRabin_of_odd _ _ h5 hodd, Nat.sub_eq_zero_of_le hle]; rfl
    obtain ⟨t, he, hdone, -, hport⟩ := mrtest_completes hanswer
    exact ⟨t, he, hdone, hport⟩

/-- MRTEST of the composite 25 about to draw the one witness 7. -/
def strongLiarTest : State :=
  { State.reset.setW 3 25 with arg1 := 2, port := { queue := [7], tail := .silent, taken := 0 } }

theorem strongLiarTest_candidate : strongLiarTest.readW 3 = 25 := State.readW_setW_same State.reset 3 25

/-- With 24 = 2^3 * 3, the first squaring of 7^3 is 24 modulo 25. -/
theorem passesRound_25_7 : PassesRound 25 7 := ⟨3, 3, rfl, rfl, .inr ⟨1, by decide, by decide⟩⟩

/-- Settles O48: a prime passes every round; 7 is a strong liar for the composite 25. -/
theorem mrtestNeverRejectsAPrime : Obligations.MrtestNeverRejectsAPrime := by
  refine ⟨fun s ra hprime hsupply => ?accepted, fun s t ra c hp he hidle _ _ hflag hprime => ?composite, ?liar⟩
  case accepted =>
    obtain ⟨f, p, hanswer⟩ := millerRabin_supplied (n := s.readW ra) hsupply
    obtain rfl := millerRabin_prime hprime hanswer
    obtain ⟨t, he, hdone, -⟩ := mrtest_completes hanswer
    exact ⟨t, he, hdone⟩
  case composite =>
    have hpass := millerRabin_prime hprime (mrtest_answered hp he hidle)
    rw [hflag] at hpass
    cases hpass
  case liar =>
    have hn := strongLiarTest_candidate
    obtain ⟨t, f, he, hdone, hpass, -⟩ := mrtestRunsItsWitnesses strongLiarTest 3 [7] [] (by omega) (by omega) rfl rfl
      (by simp [hn])
    obtain rfl : f = true := hpass.2 (by simpa [hn] using passesRound_25_7)
    exact ⟨strongLiarTest, t, 3, by decide, by rw [hn]; norm_num, he, hdone⟩

/-- Settles O49: a supplied test answers, whatever its candidate, and its answer completes the command. -/
theorem mrtestCompletesOnceSupplied : Obligations.MrtestCompletesOnceSupplied := by
  intro s ra hsupply
  obtain ⟨f, p, hanswer⟩ := millerRabin_supplied (n := s.readW ra) hsupply
  obtain ⟨t, he, hdone, hframe, -⟩ := mrtest_completes hanswer
  exact ⟨t, f, he, hdone, hframe⟩

/-- The attempts of PRIMEGEN, whatever the draws: a completion has written a candidate of ARG0 bits, and an attempt that stays
BUSY has written nothing. -/
theorem primegen_outcome {s t : State} {rd : WReg} {c : Command} (hp : s.phase = .busy c)
    (he : exec (.primegen rd) s = .next t) :
    (t.phase = .idle → t.status.err = false →
      Nat.size (t.readW rd) = s.arg0.toNat ∧ WritesOnlyWide [rd] s t ∧ t.status.flag = false) ∧
      (t.phase ≠ .idle → WritesOnlyWide [] s t ∧ t.status = s.status ∧ t.res0 = s.res0) := by
  have hbusy : s.phase ≠ .idle := by simp [hp]
  rcases exec_primegen_cases he with ⟨-, rfl⟩ | ⟨⟨h2, -⟩, ⟨-, rfl⟩ | ⟨a, ha, ⟨-, rfl⟩ | ⟨-, rfl⟩⟩⟩
  · exact ⟨fun _ herr => Bool.noConfusion herr, fun hne => absurd rfl hne⟩
  · exact ⟨fun hidle => absurd hidle hbusy, fun _ => ⟨.refl [] _, rfl, rfl⟩⟩
  · obtain ⟨r, q, hr, -, hc, -⟩ := primeAttempt_cases _ _ _ a ha
    refine ⟨fun _ _ => ⟨?_, writesOnlyWide_drawn_setW_complete s a.port rd _ _ _, rfl⟩, fun hne => absurd rfl hne⟩
    rw [readW_setW_complete, hc, candidateOf_size _ r (by omega) hr]
  · exact ⟨fun hidle => absurd hidle (stayBusy_phase_ne_idle _ _ hbusy), fun _ =>
      ⟨writesOnlyWide_stayBusy s a.port _ _, State.stayBusy_status _ _ _, State.stayBusy_res0 _ _ _⟩⟩

/-- Settles O52: every candidate has its top bit set, and the queued witnesses decide between the two ends of an attempt. -/
theorem primegenResultHasExactlyItsBits : Obligations.PrimegenResultHasExactlyItsBits := by
  refine ⟨fun s t rd c hp _ he => primegen_outcome hp he, ?attempt⟩
  case attempt =>
    intro s rd c r x ws rest hp h2 hn hq hr hx h5 hodd hlen hrange
    have hcand : candidateOf s.arg0.toNat r = x := hx.symm
    have hdraw := Port.drawBits_queued hq hr
    obtain ⟨f, p, hanswer, hpass, htaken⟩ :=
      millerRabin_queued (p := { s.port with queue := ws ++ rest }) h5 hodd rfl hlen hrange
    have ha := primeAttempt_of_answer hdraw (by rwa [hcand])
    rw [hcand] at ha
    have hcount := s.attempts_of_busy c hp
    refine ⟨fun hall => ?accepted, fun ⟨w, hw, hfail⟩ => ?rejected⟩
    case accepted =>
      have hf := hpass.2 hall
      have he := exec_primegen_of_accepted h2 hn ha rd hf
      rw [hcount] at he
      exact ⟨_, he, completedWith_complete _ _ (countUp_lt _), readW_setW_complete _ rd x _ _,
        writesOnlyWide_drawn_setW_complete s p rd x _ _, htaken hf⟩
    case rejected =>
      have hf : f = false := Bool.eq_false_iff.2 fun hf => hfail (hpass.1 hf w hw)
      have he := exec_primegen_of_rejected h2 hn ha rd hf
      rw [hcount] at he
      exact ⟨_, _, he, State.stayBusy_phase _ _ x c hp, rfl, rfl, writesOnlyWide_stayBusy s p _ x,
        State.stayBusy_status _ _ _, State.stayBusy_res0 _ _ _⟩

end Sys2Proof.Machine
end

section
/-! The prime candidate generator (45_primegen.md): the attempt with a prime candidate and the one with an even candidate, a
search that never ends, and the errors of PRIMEGEN and BLKENC. -/

namespace Sys2Proof.Machine

/-! ### The patterns the port answers (R52, R201) -/

theorem Port.drawBits_always {p : Port} {bits v : Nat} (hq : p.queue = []) (ht : p.tail = .always v) (hv : v < 2 ^ bits) :
    p.drawBits bits = some (v, p) := by
  have hin : inRange 0 (2 ^ bits - 1) v = v := inRange_of_mem _ _ _ (Nat.zero_le v) (by omega)
  unfold Port.drawBits Port.drawRange Port.take
  simp only [hq, ht, hin]

/-- The top bit, which R201 sets, is not the lowest when there are two bits or more: the parity is the pattern's. -/
theorem candidateOf_even {bits r : Nat} (h2 : 2 ≤ bits) (heven : r % 2 = 0) : candidateOf bits r % 2 = 0 := by
  have htop : 2 ^ (bits - 1) % 2 = 0 := Nat.mod_eq_zero_of_dvd (dvd_pow_self 2 (by omega))
  have hodd : ¬candidateOf bits r % 2 = 1 := by
    unfold candidateOf
    rw [Nat.or_mod_two_eq_one]
    omega
  omega

/-- With three bits or more the candidate is at least 4. -/
theorem candidateOf_ne_two {bits : Nat} (r : Nat) (h3 : 3 ≤ bits) : candidateOf bits r ≠ 2 := by
  have htop : 2 ^ 2 ≤ 2 ^ (bits - 1) := Nat.pow_le_pow_right (by decide) (by omega)
  have hle : 2 ^ (bits - 1) ≤ candidateOf bits r := Nat.right_le_or
  omega

/-! ### The attempt with an even candidate (R200, R203) -/

/-- An even candidate other than 2 is rejected without a witness: the port has given the pattern alone. -/
theorem exec_primegen_of_even {s : State} {c : Command} {r : Nat} {q : Port} (rd : WReg) (hp : s.phase = .busy c)
    (h3 : 3 ≤ s.arg0.toNat) (hn : s.arg0.toNat ≤ s.cfg.nbits) (hdraw : s.port.drawBits s.arg0.toNat = some (r, q))
    (heven : r % 2 = 0) :
    exec (.primegen rd) s =
      .next ({ s with port := q }.stayBusy (countUp c.attempts) (candidateOf s.arg0.toNat r)) := by
  have hreject : millerRabin (candidateOf s.arg0.toNat r) s.arg1.toNat q = some (false, q) :=
    millerRabin_of_small_or_even _ q (.inr ⟨candidateOf_even (by omega) heven, candidateOf_ne_two r h3⟩)
  rw [exec_primegen_of_rejected (by omega) hn (primeAttempt_of_answer hdraw hreject) rd rfl, s.attempts_of_busy c hp]

/-! ### A search that never ends (R202, R266) -/

/-- After `k` attempts PRIMEGEN is still running, nothing else is pending, and the port answers the even pattern 0 for ever. -/
structure SearchingInVain (rd : WReg) (k : Nat) (s : State) : Prop where
  held : ∃ x, s.phase = .busy { word := encode (.primegen rd), attempts := min k 0xFFFFFFFF, candidate := x }
  enoughBits : 3 ≤ s.arg0.toNat
  legalBits : s.arg0.toNat ≤ s.cfg.nbits
  noneQueued : s.port.queue = []
  alwaysZero : s.port.tail = .always 0
  nonePending : s.pending = []

theorem countUp_min (k : Nat) : countUp (min k 0xFFFFFFFF) = min (k + 1) 0xFFFFFFFF := by
  unfold countUp; omega

/-- The step is one more attempt, which draws 0 and leaves the port as it was. -/
theorem SearchingInVain.next_attempt {rd : WReg} {k : Nat} {s : State} (h : SearchingInVain rd k s) :
    ∃ t, step s = .next t ∧ SearchingInVain rd (k + 1) t := by
  obtain ⟨⟨x, hp⟩, h3, hn, hq, ht, hl⟩ := h
  have hturn : step s = exec (.primegen rd) s :=
    (step_of_no_pending hl).trans (engineStep_of_decode hp (decodeOfEncodeIsTheCommand _))
  have hdraw := Port.drawBits_always hq ht (Nat.two_pow_pos s.arg0.toNat)
  refine ⟨_, hturn.trans (exec_primegen_of_even rd hp h3 hn hdraw rfl), ?attempted⟩
  case attempted =>
    rw [countUp_min]
    exact
      { held := ⟨_, State.stayBusy_phase s _ _ _ hp⟩
        enoughBits := by rwa [State.stayBusy_arg0]
        legalBits := by rwa [State.stayBusy_arg0, State.stayBusy_cfg]
        noneQueued := by rwa [State.stayBusy_port]
        alwaysZero := by rwa [State.stayBusy_port]
        nonePending := by rwa [State.stayBusy_pending] }

theorem run_succ_of_step {M : Host.Core} {s t : M.State} (k : Nat) (h : M.step s = .next t) :
    M.run (k + 1) s = M.run k t := by
  rw [Host.Core.run, h]

theorem SearchingInVain.after_steps {rd : WReg} {j : Nat} {s : State} (h : SearchingInVain rd j s) (k : Nat) :
    ∃ t, core.run k s = .next t ∧ SearchingInVain rd (j + k) t := by
  induction k generalizing j s with
  | zero => exact ⟨s, rfl, h⟩
  | succ k ih =>
    obtain ⟨u, hstep, hu⟩ := h.next_attempt
    obtain ⟨t, hrun, ht⟩ := ih hu
    exact ⟨t, (run_succ_of_step (M := core) k hstep).trans hrun, by rwa [Nat.add_right_comm] at ht⟩

/-- From reset, PRIMEGEN W0 of 3 bits just accepted, with a port that answers 0 for ever: every candidate is 4. -/
def vainSearch : State :=
  { State.reset.accept (encode (.primegen 0)) with
    arg0 := 3, port := { queue := [], tail := .always 0, taken := 0 } }

theorem vainSearch_inv : vainSearch.Inv :=
  ((resetStateIsGood.2.accept rfl _).withArg0 rfl 3).withInputs _ _ _

theorem vainSearch_searchingInVain : SearchingInVain 0 0 vainSearch :=
  ⟨⟨none, rfl⟩, by decide, by decide, rfl, rfl, rfl⟩

/-! ### The obligations -/

/-- Settles O50: no witness rejects a prime, and the supplied test answers. -/
theorem primegenCompletesOnAPrimeCandidate : Obligations.PrimegenCompletesOnAPrimeCandidate := by
  intro s rd c r rest hp h2 hn hq hr hprime hsupply
  obtain ⟨f, q, hanswer⟩ := millerRabin_supplied (n := candidateOf s.arg0.toNat r) hsupply
  obtain rfl := millerRabin_prime hprime hanswer
  have ha := primeAttempt_of_answer (Port.drawBits_queued hq hr) hanswer
  have he := exec_primegen_of_accepted h2 hn ha rd rfl
  rw [s.attempts_of_busy c hp] at he
  exact ⟨_, he, completedWith_complete _ _ (countUp_lt _), readW_setW_complete _ rd _ _ _,
    writesOnlyWide_drawn_setW_complete s q rd _ _ _⟩

/-- Settles O51: the draw of the pattern is the attempt's only one. -/
theorem primegenStaysBusyOnAnEvenCandidate : Obligations.PrimegenStaysBusyOnAnEvenCandidate := by
  intro s rd c r rest hp h3 hn hq hr heven
  have he := exec_primegen_of_even rd hp h3 hn (Port.drawBits_queued hq hr) heven
  have hport := congrArg Port.queue (State.stayBusy_port { s with port := { s.port with queue := rest } }
    (countUp c.attempts) (candidateOf s.arg0.toNat r))
  exact ⟨_, he, writesOnlyWide_stayBusy s _ _ _, State.stayBusy_status _ _ _, State.stayBusy_res0 _ _ _, hport, _,
    State.stayBusy_phase _ _ _ c hp, rfl, rfl, rfl⟩

/-- Settles O53: a port that answers 0 for ever gives PRIMEGEN of 3 bits the even candidate 4 at every attempt. -/
theorem primegenMayNeverComplete : Obligations.PrimegenMayNeverComplete := by
  refine ⟨vainSearch, 0, vainSearch_inv, rfl, fun k => ?_⟩
  obtain ⟨t, hrun, ht⟩ := vainSearch_searchingInVain.after_steps k
  obtain ⟨x, hphase⟩ := ht.held
  exact ⟨t, _, hrun, hphase, by rw [Nat.zero_add]⟩

/-- Settles O56: each error is the first pre-check that holds, the ones before it having passed. -/
theorem blkencAndPrimegenReportTheirErrors : Obligations.BlkencAndPrimegenReportTheirErrors := by
  intro s rd rb
  refine ⟨fun hv => ?noModulus, fun hv hk => ?keyTooSmall, fun hv hk hb => ?badChunk, fun hb => ?badBits⟩
  case noModulus => exact ⟨_, checkModulus_of_invalid s _ hv, failedWith_raise s _⟩
  case keyTooSmall => exact ⟨_, (checkModulus_of_valid s _ hv).trans (check_of _ s _ hk), failedWith_raise s _⟩
  case badChunk =>
    exact ⟨_, (checkModulus_of_valid s _ hv).trans ((check_of_not _ s _ (not_lt.2 hk)).trans (check_of _ s _ hb)),
      failedWith_raise s _⟩
  case badBits => exact ⟨_, check_of _ s _ hb, failedWith_raise s _⟩

end Sys2Proof.Machine
end

section
/-! The block integer of a marked chunk (46_block_cipher.md): the payload it stands for (R212), and that it lies below the
modulus (R213). -/

namespace Sys2Proof.Machine

/-- The block integer of the chunk `bs`: the marker byte 0xFF, then the chunk's bytes, read big-endian (R210, R211). -/
def markedInt (bs : List Byte) : Nat := intBE (0xFF#8 :: bs)

theorem State.blockInt_eq_markedInt (s : State) (len : Nat) : s.blockInt len = markedInt (s.chunk len) := rfl

/-! ### The payload of a block integer (R212) -/

theorem bytesBE_markedInt (bs : List Byte) : bytesBE (markedInt bs) = 0xFF#8 :: bs := bytesBE_intBE _ bs (by decide)

theorem payloadLen_markedInt (bs : List Byte) : payloadLen (markedInt bs) = bs.length := by
  rw [payloadLen, ← bytesBE_length, bytesBE_markedInt, List.length_cons, Nat.add_sub_cancel]

theorem payloadByte_markedInt (bs : List Byte) (j : Nat) : payloadByte (markedInt bs) j = bs.getD j 0 := by
  rw [payloadByte_eq, bytesBE_markedInt, Nat.add_comm, List.getD_cons_succ]

theorem markerFound_markedInt (bs : List Byte) : markerFound (markedInt bs) = true := by
  rw [markerFound, bytesBE_markedInt]; rfl

/-! ### The chain of R213 -/

theorem two_pow_size_sub_one_le {n : Nat} (hn : n ≠ 0) : 2 ^ (Nat.size n - 1) ≤ n := by
  rw [← bitlen_eq_size]; exact two_pow_bitlen_le hn

/-- The whole bytes below the top bit of N, k = BLKSZ of them (R45). -/
theorem pow_blockSize_le (n : Nat) : 256 ^ ((Nat.size n - 1) / 8) ≤ 2 ^ (Nat.size n - 1) := by
  rw [show 256 = 2 ^ 8 from rfl, ← pow_mul]
  exact Nat.pow_le_pow_right (by decide) (Nat.mul_div_le _ 8)

/-- A chunk that BLKENC takes under the modulus `n`: at least one byte, and with its marker at most k (R211). -/
structure LegalChunk (n : Nat) (bs : List Byte) : Prop where
  nonempty : 1 ≤ bs.length
  fits : bs.length + 1 ≤ (Nat.size n - 1) / 8

section
variable {n : Nat} {bs : List Byte} (h : LegalChunk n bs)
include h

theorem LegalChunk.markedInt_lt : markedInt bs < n := by
  have hk := h.fits
  have hn : n ≠ 0 := by rintro rfl; simp at hk
  calc markedInt bs < 256 ^ (bs.length + 1) := intBE_lt _
    _ ≤ 256 ^ ((Nat.size n - 1) / 8) := Nat.pow_le_pow_right (by decide) hk
    _ ≤ 2 ^ (Nat.size n - 1) := pow_blockSize_le n
    _ ≤ n := two_pow_size_sub_one_le hn

theorem LegalChunk.length_lt_numBytes {c : Config} (hn : n < radix c) : bs.length < numBytes c := by
  have hk := h.fits
  have hsize : Nat.size n ≤ c.nbits := Nat.size_le.2 hn
  unfold numBytes
  omega

/-- The length of a chunk fits ARG0 and RES0 (R43, R44). -/
theorem LegalChunk.length_toNat {c : Config} (hl : c.Legal) (hn : n < radix c) :
    (BitVec.ofNat 32 bs.length).toNat = bs.length := by
  have hlt := h.length_lt_numBytes hn
  obtain ⟨-, hwords, hbytes⟩ := legal_words hl
  rw [BitVec.toNat_ofNat, Nat.mod_eq_of_lt (by omega)]

end

/-! ### The chunk of a good state (R45, R211) -/

section
variable {s : State} (h : s.Inv) (hv : s.status.modv = true)
include h hv

theorem State.Inv.blksz_toNat : s.blksz.toNat = (Nat.size s.n - 1) / 8 := by
  have hmod := h.modulusRegs
  rw [State.ModulusInv, if_pos hv, bitlen_eq_size] at hmod
  obtain ⟨-, -, hk⟩ := hmod
  exact hk

theorem State.Inv.legalChunk {len : Nat} (h1 : 1 ≤ len) (hk : len ≤ s.blksz.toNat - 1) :
    LegalChunk s.n (s.chunk len) := by
  have hlen := s.chunk_length len
  rw [h.blksz_toNat hv] at hk
  exact { nonempty := by omega, fits := by omega }

end

/-- Settles O57: k whole bytes lie below the top bit of N, and the marker is the first byte of the block integer. -/
theorem blockIntegerIsBelowTheModulus : Obligations.BlockIntegerIsBelowTheModulus := by
  intro s h hv h2 h1 hk
  obtain ⟨hlow, hhigh⟩ := s.blockInt_bounds s.arg0.toNat
  have hn := h.two_le_n hv
  refine ⟨hlow, hhigh, Nat.pow_le_pow_right (by decide) (by omega), ?_, two_pow_size_sub_one_le (by omega), ?_, ?_⟩
  · rw [h.blksz_toNat hv]; exact pow_blockSize_le s.n
  · rw [s.bytesBE_blockInt, List.length_cons, s.chunk_length]
  · rw [s.bytesBE_blockInt]; rfl

end Sys2Proof.Machine
end

section
/-! BLKENC and BLKDEC (46_block_cipher.md): what they answer for a legal chunk and for its encryption under an RSA key. -/

namespace Sys2Proof.Machine

/-! ### What BLKENC answers (R211) -/

section
variable {s : State} (hv : s.status.modv = true) (hn : 2 ≤ s.n) (h1 : 1 ≤ s.arg0.toNat)
  (hk : s.arg0.toNat ≤ s.blksz.toNat - 1)
include hv hn h1 hk

theorem exec_blkenc_of_legal (rd rb : WReg) :
    exec (.blkenc rd rb) s =
      .next ((s.setW rd (markedInt (s.chunk s.arg0.toNat) ^ s.readW rb % s.n)).complete false 0) := by
  rw [← powMod_eq _ _ _ hn]
  exact (checkModulus_of_valid s _ hv).trans
    ((check_of_not _ s _ (by omega)).trans (check_of_not _ s _ (by omega)))

/-- BLKENC writes the encryption of the chunk in BUF and leaves the block idle with its modulus and its other wide registers. -/
theorem blkenc_encrypts_chunk (rd rb : WReg) :
    ∃ t, exec (.blkenc rd rb) s = .next t ∧
      t.readW rd = markedInt (s.chunk s.arg0.toNat) ^ s.readW rb % s.n ∧ t.phase = .idle ∧ SameModulus s t ∧
      SameWideExcept [rd] s t := by
  obtain ⟨hwide, -, hmod, -⟩ := writesOnlyWide_setW_complete s rd
    (markedInt (s.chunk s.arg0.toNat) ^ s.readW rb % s.n) false 0
  exact ⟨_, exec_blkenc_of_legal hv hn h1 hk rd rb, readW_setW_complete s rd _ _ _, rfl, hmod, hwide⟩

end

/-- Settles O55: the pre-checks pass, and the block integer is the sum of R211. -/
theorem blkencEncryptsTheMarkedChunk : Obligations.BlkencEncryptsTheMarkedChunk := by
  intro s rd rb hv hn _ h1 hk
  refine ⟨_, exec_blkenc_of_legal hv hn h1 hk rd rb, completedWith_complete _ _ (by decide), ?power,
    writesOnlyWide_setW_complete s rd _ _ _, rfl⟩
  case power => rw [readW_setW_complete, ← s.blockInt_eq_markedInt, s.blockInt_eq]

/-! ### What BLKDEC answers for an encrypted chunk (R212, R214) -/

/-- BLKDEC has given the chunk `bs` back: its bytes in BUF, its length in RES0, and FLAG = 1. -/
structure ChunkRecovered (bs : List Byte) (t : State) : Prop where
  payload : ∀ j, j < bs.length → t.readBuf j = bs.getD j 0
  length : t.res0 = BitVec.ofNat 32 bs.length
  marker : t.status.flag = true

theorem State.chunk_getD (s : State) {len j : Nat} (hj : j < len) : (s.chunk len).getD j 0 = s.readBuf j := by
  rw [List.getD_eq_getElem _ _ (by rwa [s.chunk_length])]
  simp [State.chunk]

/-- Under an RSA key the exponent d takes the encryption of a legal chunk back to its block integer, and the payload of that
is the chunk. -/
theorem blkdec_recovers_chunk {s : State} {bs : List Byte} {e : Nat} {ra rb : WReg} (rd : WReg) (h : s.Inv)
    (hv : s.status.modv = true) (hb : LegalChunk s.n bs) (hk : RsaKey s.n e (s.readW rb))
    (hc : s.readW ra = markedInt bs ^ e % s.n) :
    ∃ t, exec (.blkdec rd ra rb) s = .next t ∧ ChunkRecovered bs t ∧ t.phase = .idle ∧ SameModulus s t ∧
      SameWideExcept [rd] s t := by
  have hplain : markedInt bs = s.readW ra ^ s.readW rb % s.n := by
    rw [hc]; exact (rsaKey_pow_pow _ (rsaKey_swap hk) hb.markedInt_lt).symm
  obtain ⟨hwide, -⟩ := writesOnlyWide_setW_complete (s.fillBuf (payloadByte (markedInt bs))) rd (markedInt bs)
    (markerFound (markedInt bs)) (payloadLen (markedInt bs))
  refine ⟨_, exec_blkdec_of_valid rd ra rb hv (h.two_le_n hv) hplain, ⟨fun j hj => ?payload, ?length, ?marker⟩, rfl,
    ⟨rfl, rfl, rfl, rfl⟩, hwide⟩
  case payload =>
    have hlen := hb.length_lt_numBytes h.modulus
    rw [State.readBuf_complete, State.readBuf_setW, s.readBuf_fillBuf h.bufForm, if_pos (by omega),
      payloadByte_markedInt]
  case length => rw [State.complete_res0, payloadLen_markedInt]
  case marker => exact markerFound_markedInt bs

/-! ### An idle good block between two commands (R230, R231) -/

/-- The idle block can take the host's next access or command: a good state of the build `c`, the reset input released. -/
structure HostReady (c : Config) (s : State) : Prop where
  good : s.Inv
  idle : s.phase = .idle
  released : s.resetHeld = false
  cfg : s.cfg = c

theorem HostReady.accepted_inv {c : Config} {s : State} (h : HostReady c s) (i : Instr) : (s.accepted i).Inv :=
  (h.good.accept h.released (encode i)).withInputs _ _ _

/-- A command that completes on the state its accept leaves has left the block ready for the next. -/
theorem HostReady.of_exec {c : Config} {s t : State} {i : Instr} (h : HostReady c s)
    (he : exec i (s.accepted i) = .next t) (hp : t.phase = .idle) : HostReady c t := by
  obtain ⟨hcfg, -, -, -, -, -, -, -, -, hreset⟩ := exec_sameHostSide he
  exact ⟨exec_inv (h.accepted_inv i) h.released he, hp, hreset.trans h.released, hcfg.trans h.cfg⟩

/-- Settles O59: BLKENC leaves the modulus and the exponent d, so BLKDEC recovers the chunk. -/
theorem blockRoundTrip : Obligations.BlockRoundTrip := by
  intro s rc re rp rd h hp hr hv hk h1 hle hne
  have hs : HostReady s.cfg s := ⟨h, hp, hr, rfl⟩
  obtain ⟨s1, henc, hc, hidle, ⟨hn, hmodv, -, -⟩, hwide⟩ :=
    blkenc_encrypts_chunk (s := s.accepted (.blkenc rc re)) hv (h.two_le_n hv) h1 hle rc re
  have hs1 := hs.of_exec henc hidle
  have hn1 : s1.n = s.n := hn
  have hd1 : s1.readW rd = s.readW rd := hwide rd (by simpa using hne)
  have hb1 : LegalChunk s1.n (s.chunk s.arg0.toNat) := by rw [hn1]; exact h.legalChunk hv h1 hle
  have hk1 : RsaKey s1.n (s.readW re) (s1.readW rd) := by rwa [hn1, hd1]
  have hc1 : s1.readW rc = markedInt (s.chunk s.arg0.toNat) ^ s.readW re % s1.n := by rw [hn1]; exact hc
  obtain ⟨s2, hdec, hback, -⟩ :=
    blkdec_recovers_chunk (s := s1.accepted (.blkdec rp rc rd)) rp (hs1.accepted_inv _) (hmodv.trans hv) hb1 hk1 hc1
  refine ⟨s1, s2, issued_of_exec_accepted hp hr henc, issued_of_exec_accepted hidle hs1.released hdec, fun j hj => ?_,
    ?_, hback.marker⟩
  · rw [hback.payload j (by rwa [s.chunk_length]), s.chunk_getD hj]
  · rw [hback.length, s.chunk_length, BitVec.ofNat_toNat, BitVec.setWidth_eq]

end Sys2Proof.Machine
end

section
/-! The host driver's stream procedures (46_block_cipher.md section 2): what its loads and commands leave of an idle good block,
the chunks of an input, and the round trip of a stream (R222). -/

namespace Sys2Proof.Machine

/-! ### The chunks of an input (R220) -/

theorem flatten_chunksOf {size : Nat} (hs : 0 < size) (k : Nat) (bytes : List Byte) (hk : bytes.length ≤ k) :
    (chunksOf k size bytes).flatten = bytes := by
  induction k generalizing bytes with
  | zero => rw [List.length_eq_zero_iff.1 (Nat.le_zero.1 hk)]; rfl
  | succ k ih =>
    unfold chunksOf
    split
    · next h => rw [h]; rfl
    · rw [List.flatten_cons, ih _ (by rw [List.length_drop]; omega), List.take_append_drop]

theorem length_of_mem_chunksOf {size : Nat} (hs : 0 < size) {k : Nat} {bytes bs : List Byte}
    (h : bs ∈ chunksOf k size bytes) : 1 ≤ bs.length ∧ bs.length ≤ size := by
  induction k generalizing bytes with
  | zero => cases h
  | succ k ih =>
    unfold chunksOf at h
    split at h
    · cases h
    · next hne =>
      rcases List.mem_cons.1 h with rfl | h
      · have hpos := List.length_pos_iff.2 hne
        rw [List.length_take]
        omega
      · exact ih h

/-- Chunks of k - 1 bytes or less are legal for BLKENC (R211, R220). -/
theorem legalChunk_of_mem_chunksOf {n bound : Nat} {bytes bs : List Byte} (hk : 2 ≤ (Nat.size n - 1) / 8)
    (h : bs ∈ chunksOf bound ((Nat.size n - 1) / 8 - 1) bytes) : LegalChunk n bs := by
  obtain ⟨h1, hle⟩ := length_of_mem_chunksOf (by omega) h
  exact { nonempty := h1, fits := by omega }

/-! ### The driver's accesses -/

/-- A read of a slot that no running command blocks. -/
theorem State.hostRead_of_unblocked {s : State} {off : Nat} {t : Slot} (hs : slotAt s.cfg off = t)
    (hb : t.readBlocked = false) : s.hostRead off = s.slotWord t := by
  rw [State.hostRead, hs, State.readData, hb, Bool.and_false]
  rfl

theorem hostWrites_inv {s : State} (h : s.Inv) {ws : List (Nat × Word)} (h4 : ∀ a ∈ ws, a.1 % 4 = 0) :
    (s.hostWrites ws).Inv := by
  induction ws generalizing s with
  | nil => exact h
  | cons a ws ih =>
    exact ih (memWrite_inv h (h4 a List.mem_cons_self) a.2) fun b hb => h4 b (List.mem_cons_of_mem a hb)

theorem loadChunk_inv {s : State} (h : s.Inv) (bs : List Byte) : (s.loadChunk bs).Inv := by
  refine hostWrites_inv h fun a ha => ?_
  obtain ⟨w, -, rfl⟩ := List.mem_map.1 ha
  dsimp only
  omega

namespace HostReady

section
variable {c : Config} {s : State} (h : HostReady c s)
include h

/-- LDW (R125) writes its register and leaves the modulus. -/
theorem loadWide (i : WReg) {v : Nat} (hv : v < radix c) :
    HostReady c (s.loadWide i v) ∧ SameModulus s (s.loadWide i v) ∧
      ∀ j, (s.loadWide i v).readW j = if i = j then v else s.readW j := by
  obtain ⟨hgood, hidle, hreleased, rfl⟩ := h
  obtain ⟨r, hr⟩ := s.loadWide_eq hgood.legal hidle hreleased i v hv (hgood.wide i)
  rw [hr]
  exact ⟨⟨(hgood.setW hreleased i hv).withInputs _ _ _, hidle, hreleased, rfl⟩, ⟨rfl, rfl, rfl, rfl⟩,
    fun j => s.readW_setW i j v⟩

/-- A chunk loaded with its length (R220 step 4) leaves the wide registers and the modulus. -/
theorem loadChunk_arg0 {bs : List Byte} (hb : bs.length ≤ numBytes c) (v : Word) :
    HostReady c ((s.loadChunk bs).memWrite 0x014 v) ∧ SameModulus s ((s.loadChunk bs).memWrite 0x014 v) ∧
      SameWideExcept [] s ((s.loadChunk bs).memWrite 0x014 v) ∧ ((s.loadChunk bs).memWrite 0x014 v).arg0 = v ∧
      ((s.loadChunk bs).memWrite 0x014 v).chunk bs.length = bs := by
  obtain ⟨hgood, hidle, hreleased, rfl⟩ := h
  obtain ⟨m, r, hload, -, hbytes⟩ := s.loadChunk_eq hgood.legal hidle hreleased hgood.bufForm bs hb
  have hgood' : ((s.loadChunk bs).memWrite 0x014 v).Inv := memWrite_inv (loadChunk_inv hgood bs) (by decide) v
  rw [hload, State.memWrite_arg0 _ (by exact hidle) (by exact hreleased)] at hgood' ⊢
  refine ⟨⟨hgood', hidle, hreleased, rfl⟩, ⟨rfl, rfl, rfl, rfl⟩, fun _ _ => rfl, rfl, ?chunk⟩
  case chunk =>
    refine List.ext_getElem (State.chunk_length _ _) fun j hj hj' => ?_
    rw [← List.getD_eq_getElem _ 0 hj, State.chunk_getD _ hj', ← List.getD_eq_getElem _ 0 hj']
    exact hbytes j hj'

/-- ISSUE and WAIT of a command that completes on the state its accept leaves. -/
theorem issueAndWait {t : State} {i : Instr} (he : exec i (s.accepted i) = .next t) (hp : t.phase = .idle) :
    s.issueAndWait i = t ∧ HostReady c t :=
  ⟨s.issueAndWait_eq t h.idle h.released i (decodeOfEncodeIsTheCommand i) he, h.of_exec he hp⟩

end

end HostReady

/-! ### A block with a loaded key -/

/-- The idle block holds the modulus `n` and, in W1, the exponent `x` of a key (log 13). -/
structure KeyReady (c : Config) (n x : Nat) (s : State) : Prop where
  ready : HostReady c s
  valid : s.status.modv = true
  modulus : s.n = n
  exponent : s.readW 1 = x

/-- SETMOD W0 makes the loaded key ready and leaves the wide registers. -/
theorem HostReady.setmod {c : Config} {s : State} (h : HostReady c s) (h2 : 2 ≤ s.readW 0) :
    KeyReady c (s.readW 0) (s.readW 1) (s.issueAndWait (.setmod 0)) ∧
      ∀ i, (s.issueAndWait (.setmod 0)).readW i = s.readW i := by
  obtain ⟨he, ht⟩ := h.issueAndWait (exec_setmod_of_two_le (s := s.accepted (.setmod 0)) h2) rfl
  rw [he]
  exact ⟨⟨ht, rfl, rfl, rfl⟩, fun _ => rfl⟩

namespace KeyReady

section
variable {c : Config} {n x : Nat} {s : State} (h : KeyReady c n x s)
include h

theorem two_le : 2 ≤ n := h.modulus ▸ h.ready.good.two_le_n h.valid

theorem modulus_lt : n < radix c := h.modulus ▸ h.ready.cfg ▸ h.ready.good.modulus

/-- What leaves the modulus and W1 keeps the key. -/
theorem of_same {t : State} (ht : HostReady c t) (hm : SameModulus s t) (hx : t.readW 1 = s.readW 1) :
    KeyReady c n x t := by
  obtain ⟨hn, hmodv, -, -⟩ := hm
  exact ⟨ht, hmodv.trans h.valid, hn.trans h.modulus, hx.trans h.exponent⟩

theorem hostRead_blksz : (s.hostRead 0x020).toNat = (Nat.size n - 1) / 8 := by
  rw [State.hostRead_of_unblocked (t := .blksz) rfl rfl, ← h.modulus]
  exact h.ready.good.blksz_toNat h.valid

/-- VERIFY W2, W1, W3 of a signed identity sets FLAG, which the host reads in STATUS (R39, R181). -/
theorem verify (hsig : s.readW 2 ^ x % n = s.readW 3) :
    KeyReady c n x (s.issueAndWait (.verify 2 1 3)) ∧
      ((s.issueAndWait (.verify 2 1 3)).hostRead 0x00C).getLsbD 3 = true := by
  have hflag : s.readW 2 ^ s.readW 1 % s.n = s.readW 3 := by rwa [h.exponent, h.modulus]
  have hn : 2 ≤ s.n := h.modulus.symm ▸ h.two_le
  obtain ⟨he, ht⟩ := h.ready.issueAndWait
    (exec_verify_of_valid (s := s.accepted (.verify 2 1 3)) h.valid hn 2 1 3) rfl
  rw [he]
  refine ⟨h.of_same ht ⟨rfl, rfl, rfl, rfl⟩ rfl, ?flag⟩
  case flag =>
    rw [State.hostRead_of_unblocked (t := .status) rfl rfl, State.slotWord]
    obtain ⟨-, -, -, hbit, -⟩ := State.statusWord_fields _
    rw [hbit]
    exact decide_eq_true hflag

/-- BLKENC W4, W1 of a legal chunk in BUF with its length in ARG0 gives its encryption, which the host reads in W4. -/
theorem blkenc {bs : List Byte} (hb : LegalChunk n bs) (hlen : s.arg0.toNat = bs.length)
    (hchunk : s.chunk bs.length = bs) :
    (s.issueAndWait (.blkenc 4 1)).hostReadWide 4 = markedInt bs ^ x % n ∧
      KeyReady c n x (s.issueAndWait (.blkenc 4 1)) := by
  have hk : s.arg0.toNat ≤ s.blksz.toNat - 1 := by
    have hfits := hb.fits
    rw [h.ready.good.blksz_toNat h.valid, h.modulus]
    omega
  obtain ⟨t, he, hw4, hidle, hsame, hothers⟩ := blkenc_encrypts_chunk (s := s.accepted (.blkenc 4 1)) h.valid
    (h.modulus.symm ▸ h.two_le : 2 ≤ s.n) (hlen ▸ hb.nonempty) hk 4 1
  have hpower : t.readW 4 = markedInt (s.chunk s.arg0.toNat) ^ s.readW 1 % s.n := hw4
  obtain ⟨ht, hready⟩ := h.ready.issueAndWait he hidle
  rw [ht]
  refine ⟨?read, h.of_same hready hsame (hothers 1 (by decide))⟩
  case read =>
    rw [t.hostReadWide_eq hready.good.legal hidle 4 (hready.good.wide 4), hpower, hlen, hchunk, h.exponent, h.modulus]

/-- One chunk encrypted (R220 step 4). -/
theorem encryptChunk {bs : List Byte} (hb : LegalChunk n bs) :
    (s.encryptChunk bs).1 = markedInt bs ^ x % n ∧ KeyReady c n x (s.encryptChunk bs).2 := by
  obtain ⟨hload, hsame, hwide, harg, hchunk⟩ :=
    h.ready.loadChunk_arg0 (hb.length_lt_numBytes h.modulus_lt).le (BitVec.ofNat 32 bs.length)
  have hlen : (BitVec.ofNat 32 bs.length).toNat = bs.length :=
    hb.length_toNat (h.ready.cfg ▸ h.ready.good.legal) h.modulus_lt
  exact (h.of_same hload hsame (hwide 1 (by simp))).blkenc hb (by rw [harg, hlen]) hchunk

/-- BLKDEC W5, W4, W1 of an encrypted chunk gives the chunk, which the host reads in BUF. -/
theorem blkdec {bs : List Byte} {e : Nat} (hk : RsaKey n e x) (hb : LegalChunk n bs)
    (hw4 : s.readW 4 = markedInt bs ^ e % n) :
    (s.issueAndWait (.blkdec 5 4 1)).hostReadBuf ((s.issueAndWait (.blkdec 5 4 1)).hostRead 0x01C).toNat = bs ∧
      KeyReady c n x (s.issueAndWait (.blkdec 5 4 1)) := by
  have ⟨hready, hvalid, hn, hx⟩ := h
  subst hn hx
  obtain ⟨t, he, hback, hidle, hsame, hothers⟩ :=
    blkdec_recovers_chunk (s := s.accepted (.blkdec 5 4 1)) 5 (hready.accepted_inv _) hvalid hb hk hw4
  obtain ⟨ht, hready'⟩ := hready.issueAndWait he hidle
  rw [ht]
  refine ⟨?read, h.of_same hready' hsame (hothers 1 (by decide))⟩
  case read =>
    have hlen : (t.hostRead 0x01C).toNat = bs.length := by
      rw [State.hostRead_of_unblocked (t := .res0) rfl rfl, State.slotWord, hback.length,
        hb.length_toNat hready.good.legal hready.good.modulus]
    have hfits : bs.length ≤ numBytes t.cfg := by
      rw [hready'.cfg]; exact (hb.length_lt_numBytes h.modulus_lt).le
    rw [hlen, t.hostReadBuf_eq hready'.good.legal hidle _ hfits]
    refine List.ext_getElem (t.chunk_length _) fun j _ hj => ?_
    rw [List.getElem_map, List.getElem_range, hback.payload j hj, List.getD_eq_getElem _ _ hj]

/-- One line decrypted (R221 step 2). -/
theorem decryptLine {bs : List Byte} {e : Nat} (hk : RsaKey n e x) (hb : LegalChunk n bs) :
    (s.decryptLine (markedInt bs ^ e % n)).1 = bs ∧ KeyReady c n x (s.decryptLine (markedInt bs ^ e % n)).2 := by
  have hlt : markedInt bs ^ e % n < radix c := (Nat.mod_lt _ (by have := h.two_le; omega)).trans h.modulus_lt
  obtain ⟨hload, hsame, hwide⟩ := h.ready.loadWide 4 hlt
  exact (h.of_same hload hsame (hwide 1)).blkdec hk hb (hwide 4)

end

/-! ### All chunks and all lines -/

/-- The chunks encrypted one after the other: each under the same key (R220 step 4). -/
theorem encryptChunks {c : Config} {n x : Nat} {s : State} (h : KeyReady c n x s) {cs : List (List Byte)}
    (hcs : ∀ bs ∈ cs, LegalChunk n bs) : encryptChunks s cs = cs.map fun bs => markedInt bs ^ x % n := by
  induction cs generalizing s with
  | nil => rfl
  | cons bs cs ih =>
    obtain ⟨hfirst, hnext⟩ := h.encryptChunk (hcs bs List.mem_cons_self)
    rw [Machine.encryptChunks, hfirst, ih hnext fun b hb => hcs b (List.mem_cons_of_mem bs hb), List.map_cons]

/-- The lines of encrypted chunks decrypted one after the other (R221 step 2). -/
theorem decryptLines {c : Config} {n e x : Nat} {s : State} (h : KeyReady c n x s) (hk : RsaKey n e x)
    {cs : List (List Byte)} (hcs : ∀ bs ∈ cs, LegalChunk n bs) :
    decryptLines s (cs.map fun bs => some (markedInt bs ^ e % n)) = .ok cs.flatten := by
  induction cs generalizing s with
  | nil => rfl
  | cons bs cs ih =>
    obtain ⟨hfirst, hnext⟩ := h.decryptLine hk (hcs bs List.mem_cons_self)
    have hfits : ¬radix s.cfg ≤ markedInt bs ^ e % n := by
      have hlt := Nat.mod_lt (markedInt bs ^ e) (Nat.zero_lt_of_lt h.two_le)
      rw [h.ready.cfg]
      exact not_le.2 (hlt.trans h.modulus_lt)
    rw [List.map_cons, Machine.decryptLines, if_neg hfits,
      ih hnext fun b hb => hcs b (List.mem_cons_of_mem bs hb), hfirst, List.flatten_cons]

end KeyReady

/-! ### The procedures (R220, R221) -/

section
variable {c : Config} {s : State} (h : HostReady c s)
include h

theorem HostReady.loadPublicKey (key : PublicKey) (hn : key.n < radix c) (he : key.e < radix c)
    (hs : key.signature < radix c) (hi : key.identity < radix c) :
    ∃ t, (((s.loadWide 0 key.n).loadWide 1 key.e).loadWide 2 key.signature).loadWide 3 key.identity = t ∧
      HostReady c t ∧ t.readW 0 = key.n ∧ t.readW 1 = key.e ∧ t.readW 2 = key.signature ∧ t.readW 3 = key.identity := by
  obtain ⟨h0, -, r0⟩ := h.loadWide 0 hn
  obtain ⟨h1, -, r1⟩ := h0.loadWide 1 he
  obtain ⟨h2, -, r2⟩ := h1.loadWide 2 hs
  obtain ⟨h3, -, r3⟩ := h2.loadWide 3 hi
  exact ⟨_, rfl, h3, by simp [r3, r2, r1, r0], by simp [r3, r2, r1], by simp [r3, r2], by simp [r3]⟩

theorem HostReady.loadPrivateKey (key : PrivateKey) (hn : key.n < radix c) (hd : key.d < radix c) :
    ∃ t, (s.loadWide 0 key.n).loadWide 1 key.d = t ∧ HostReady c t ∧ t.readW 0 = key.n ∧ t.readW 1 = key.d := by
  obtain ⟨h0, -, r0⟩ := h.loadWide 0 hn
  obtain ⟨h1, -, r1⟩ := h0.loadWide 1 hd
  exact ⟨_, rfl, h1, by simp [r1, r0], by simp [r1]⟩

/-- With a signed identity and k of 2 or more no error of R220 occurs: each chunk is encrypted. -/
theorem encryptStream_of_signed {key : PublicKey} (bytes : List Byte) (hn : key.n < radix c) (he : key.e < radix c)
    (hs : key.signature < radix c) (hk : 2 ≤ (Nat.size key.n - 1) / 8)
    (hsig : key.signature ^ key.e % key.n = key.identity) :
    encryptStream s key bytes =
      .ok ((chunksOf bytes.length ((Nat.size key.n - 1) / 8 - 1) bytes).map fun bs =>
        markedInt bs ^ key.e % key.n) := by
  have h2 : 2 ≤ key.n := by simpa using Nat.lt_size.1 (by omega : 1 < Nat.size key.n)
  have hi : key.identity < radix c := hsig ▸ (Nat.mod_lt _ (by omega)).trans hn
  obtain ⟨t, hload, ht, hw0, hw1, hw2, hw3⟩ := h.loadPublicKey key hn he hs hi
  obtain ⟨hkey, hsame⟩ := ht.setmod (hw0.symm ▸ h2)
  rw [hw0, hw1] at hkey
  obtain ⟨hverified, hflag⟩ := hkey.verify (by rw [hsame, hsame, hw2, hw3, hsig])
  unfold encryptStream
  dsimp only
  rw [hload, if_neg (by rw [hkey.hostRead_blksz]; omega), if_pos hflag, hkey.hostRead_blksz,
    hverified.encryptChunks fun bs hbs => legalChunk_of_mem_chunksOf hk hbs]

/-- The lines of encrypted chunks decrypt to the chunks (R221). -/
theorem decryptStream_of_encrypted {key : PrivateKey} {e : Nat} {cs : List (List Byte)} (hn : key.n < radix c)
    (hd : key.d < radix c) (hk : RsaKey key.n e key.d) (hcs : ∀ bs ∈ cs, LegalChunk key.n bs) :
    decryptStream s key (cs.map fun bs => some (markedInt bs ^ e % key.n)) = .ok cs.flatten := by
  obtain ⟨t, hload, ht, hw0, hw1⟩ := h.loadPrivateKey key hn hd
  obtain ⟨hkey, -⟩ := ht.setmod (hw0.symm ▸ rsaKey_two_le hk)
  rw [hw0, hw1] at hkey
  rw [decryptStream, hload]
  exact hkey.decryptLines hk hcs

end

/-- Settles O60: the driver encrypts the chunks of the input one by one, the decryption gives each chunk back, and the chunks
concatenate to the input. -/
theorem streamRoundTrip : Obligations.StreamRoundTrip := by
  intro s s' n e d sig ident bytes h h' hp hp' hr hr' hcfg hkey hn he hd hs hsize hsig
  have hk : 2 ≤ (Nat.size n - 1) / 8 := by omega
  refine ⟨_, encryptStream_of_signed ⟨h, hp, hr, rfl⟩ bytes hn he hs hk hsig, ?decrypted⟩
  case decrypted =>
    rw [List.map_map]
    refine (decryptStream_of_encrypted ⟨h', hp', hr', hcfg⟩ hn hd hkey fun bs hbs =>
      legalChunk_of_mem_chunksOf hk hbs).trans ?_
    rw [flatten_chunksOf (Nat.sub_pos_of_lt hk) _ _ le_rfl]

end Sys2Proof.Machine
end

section
/-! Completions and errors (60_exceptions.md): what every completion shows in STATUS, the errors each command can raise, and
the interrupt output. -/

namespace Sys2Proof.Machine

/-! ### The end of a command (R231, R233) -/

/-- A command has ended: the engine is IDLE, DONE stands, and ERR goes with an error code. -/
def HasEnded (t : State) : Prop :=
  t.phase = .idle ∧ t.status.done = true ∧ (t.status.err = true ↔ t.status.errcode ≠ .none)

theorem hasEnded_raise (s : State) {code : ErrCode} (hc : code ≠ .none) : HasEnded (s.raise code) :=
  ⟨rfl, rfl, by simp [hc]⟩

theorem hasEnded_complete (s : State) (f : Bool) (r : Nat) : HasEnded (s.complete f r) :=
  ⟨rfl, rfl, by simp⟩

/-- A command ends in its step, or it takes draws and leaves a busy engine busy (R52, R203). -/
theorem exec_ends_or_draws {i : Instr} {s t : State} (h : exec i s = .next t) :
    HasEnded t ∨ TakesDraws i ∧ (s.phase ≠ .idle → t.phase ≠ .idle) := by
  cases exec_shape i s t h with
  | failed code hc ht => subst ht; exact .inl (hasEnded_raise s hc)
  | completed u f r ht _ _ => subst ht; exact .inl (hasEnded_complete u f r)
  | held hd ht => subst ht; exact .inr ⟨hd, id⟩
  | attempted p k x hd ht => subst ht; exact .inr ⟨hd, stayBusy_phase_ne_idle (s := { s with port := p }) k x⟩

/-- The turn that makes a busy engine IDLE sets DONE, for a word that names no command too (R116, R117). -/
theorem engineStep_sets_done {s t : State} {c : Command} (hp : s.phase = .busy c) (h : engineStep s = .next t)
    (ht : t.phase = .idle) : t.status.done = true := by
  have hbusy : s.phase ≠ .idle := by simp [hp]
  rcases engineStep_cases h with ⟨hidle, -⟩ | ⟨_, -, ⟨code, rfl⟩ | ⟨i, -, he⟩⟩
  · exact absurd hidle hbusy
  · rfl
  · rcases exec_ends_or_draws he with ⟨-, hdone, -⟩ | ⟨-, hstays⟩
    · exact hdone
    · exact absurd ht (hstays hbusy)

/-! ### Error completions (R232, R233, R235) -/

/-- An error that was not there before is an error completion. -/
theorem exec_eq_raise_of_err {i : Instr} {s t : State} (hs : s.status.err = false) (h : exec i s = .next t)
    (ht : t.status.err = true) : ∃ code, code ≠ .none ∧ t = s.raise code := by
  cases exec_shape i s t h with
  | failed code hc ht => exact ⟨code, hc, ht⟩
  | completed u f r hu _ _ => subst hu; simp at ht
  | held _ hu => subst hu; simp [hs] at ht
  | attempted p k x _ hu => subst hu; simp [hs] at ht

/-- The errors of each command, as R235 lists them. -/
def RaisedBy (e : ErrCode) : Instr → Prop
  | .nop | .gcd _ _ _ | .mul _ _ _ _ | .mrtest _ => False
  | .setmod _ => e = .badModulus
  | .modinv _ _ _ => e = .divByZero
  | .breduce _ _ _ | .modmul _ _ _ | .powmod _ _ _ | .verify _ _ _ | .blkdec _ _ _ => e = .noModulus
  | .montmul _ _ _ | .montin _ _ | .montout _ _ => e = .noModulus ∨ e = .evenModulus
  | .primegen _ => e = .badArg
  | .blkenc _ _ => e = .noModulus ∨ e = .keyTooSmall ∨ e = .badArg

/-- An answer with ERR set has a code that the command `i` raises. -/
def ErrsAs (i : Instr) (k : Result) : Prop :=
  ∀ t, k = .next t → t.status.err = true → RaisedBy t.status.errcode i

theorem ErrsAs.of_clear {i : Instr} {t : State} (ht : t.status.err = false) : ErrsAs i (.next t) := by
  rintro _ ⟨⟩ herr
  simp [ht] at herr

theorem ErrsAs.complete {i : Instr} {s : State} {f : Bool} {r : Nat} : ErrsAs i (.next (s.complete f r)) :=
  .of_clear rfl

/-- A pre-check raises its own code, and nothing else that what follows it does not raise (R234). -/
theorem ErrsAs.check {i : Instr} {bad : Prop} [Decidable bad] {code : ErrCode} {s : State} {k : Result}
    (hc : RaisedBy code i) (hk : ErrsAs i k) : ErrsAs i (check bad code s k) := by
  intro t h herr
  rcases check_cases h with ⟨-, rfl⟩ | ⟨-, h⟩
  · exact hc
  · exact hk t h herr

/-- The pre-checks of each command are its errors; behind them it completes or, waiting for draws, leaves ERR. -/
theorem exec_errsAs (i : Instr) {s : State} (hs : s.status.err = false) : ErrsAs i (exec i s) := by
  cases i
  case nop | gcd | mul => exact .complete
  case setmod | breduce | modmul | powmod | verify | blkdec => exact .check rfl .complete
  case montmul | montin | montout => exact .check (.inl rfl) (.check (.inr rfl) .complete)
  case blkenc => exact .check (.inl rfl) (.check (.inr (.inl rfl)) (.check (.inr (.inr rfl)) .complete))
  case modinv => refine .check rfl ?_; split <;> exact .complete
  case mrtest ra =>
    intro t h
    rcases exec_mrtest_cases h with ⟨-, rfl⟩ | ⟨f, p, -, rfl⟩
    · exact ErrsAs.of_clear hs _ rfl
    · exact ErrsAs.complete _ rfl
  case primegen rd =>
    refine .check rfl ?_
    split
    · exact .of_clear hs
    · split
      · exact .complete
      · exact .of_clear (by simpa using hs)

/-! ### The interrupt output (R240) -/

theorem State.irq_of_done {s : State} (h : s.status.done = true) : s.irq = s.ie := by
  rw [irq, h, Bool.and_true]

theorem State.irq_of_not_done {s : State} (h : s.status.done = false) : s.irq = false := by
  rw [irq, h, Bool.and_false]

/-! ### The obligations -/

/-- Settles O23: only a command that takes draws can leave its step unfinished. -/
theorem commandsWithoutDrawsComplete : Obligations.CommandsWithoutDrawsComplete := by
  intro i s hd
  obtain ⟨t, h⟩ := exec_answers i s
  rcases exec_ends_or_draws h with hended | ⟨hdraws, -⟩
  · exact ⟨t, h, hended⟩
  · exact absurd hdraws hd

/-- Settles O24: every error of a command is `State.raise`, which changes STATUS and the phase alone. -/
theorem errorsArePrecise : Obligations.ErrorsArePrecise := by
  intro i s t hs h ht
  obtain ⟨code, hc, rfl⟩ := exec_eq_raise_of_err hs h ht
  exact ⟨hc, failedWith_raise s code⟩

/-- Settles O25, from the pre-checks of each command. -/
theorem eachCommandRaisesOnlyItsErrors : Obligations.EachCommandRaisesOnlyItsErrors := by
  intro i s t hs h ht
  have hraised : RaisedBy t.status.errcode i := exec_errsAs i hs t h ht
  cases i <;> exact hraised

/-- Settles O41: NO_MODULUS is the first pre-check of all nine. -/
theorem noModulusComesFirst : Obligations.NoModulusComesFirst := by
  intro s rd ra rb rc i hv hi
  rcases hi with rfl | rfl | rfl | rfl | rfl | rfl | rfl | rfl | rfl <;>
    exact ⟨_, checkModulus_of_invalid s _ hv, failedWith_raise s _⟩

/-- Settles O19: the write is an accept, which starts the command with no attempt made and clears DONE, ERR and ERRCODE. -/
theorem cmdWriteWhileIdleIsAccepted : Obligations.CmdWriteWhileIdleIsAccepted := fun s w hp hr =>
  ⟨_, actFirst_hostWr_cmd w hp hr, rfl, ⟨_, rfl, rfl, rfl⟩, rfl, rfl, rfl, rfl, rfl, fun i => State.readW_accept s w i,
    fun j => State.readBuf_accept s w j, .refl s, rfl, rfl, rfl, rfl, rfl, State.irq_of_not_done rfl⟩

/-- Settles O11: a completion sets DONE and no command writes IE; the three writes set IE, clear DONE, or accept. -/
theorem interruptFollowsEnableAndDone : Obligations.InterruptFollowsEnableAndDone := by
  refine ⟨fun s => Bool.and_eq_true_iff, fun s t c hp h ht => ?completion, fun s t v hr =>
    ⟨fun h => ?enable, fun h hv => ?clear, fun h hp => ?accept⟩⟩
  case completion =>
    obtain ⟨-, hie, -⟩ := engineStep_sameHostSide h
    rw [State.irq_of_done (engineStep_sets_done hp h ht), hie]
  case enable =>
    rw [actFirst_hostWr_ctrl v hr] at h
    cases h; exact ⟨rfl, rfl⟩
  case clear =>
    rw [actFirst_hostWr_status v hr] at h
    cases h; exact State.irq_of_not_done (by simp [hv])
  case accept =>
    rw [actFirst_hostWr_cmd v hp hr] at h
    cases h; exact State.irq_of_not_done rfl

end Sys2Proof.Machine
end
